-- ==== Sys2Proof/Word.lean ====
section
/-! DEFINITION. The machine word, the presented command word and the parameter triple (spec 00_scope R10, R11, R14; 30_encoding R90). -/

namespace Sys2Proof

/-- WORD = 32 bits, the width of every `uint` (R10, R11, D2). -/
abbrev Word := BitVec 32

/-- A command as it stands on the command port, the 100-bit word of R90. -/
abbrev CommandWord := BitVec 100

/-- ClockParams, the triple `div_ref, loopc, div_out` (R14), each component a u32 (R11). -/
structure ClockParams where
  divRef : Word
  loopc : Word
  divOut : Word
  deriving DecidableEq, Repr

/-- The triple of three zeros. -/
def ClockParams.zero : ClockParams := ⟨0, 0, 0⟩

end Sys2Proof
end

