-- ==== Sys2Proof/Config.lean ====
section
/-! DEFINITION. Configuration: what is fixed for one machine and never written (spec 10_state R37), the shape of the
per-variant data (30_encoding R96, R97, R107, R108, R110), the numbers the spec fixes (00_scope R8, R10) and the values it
leaves free (20_memory R66; 45_lifecycle R223; 10_state R39, R40). The reference values stand in Machine/Variants.lean. -/

namespace Sys2Proof

/-- TOLERANCE_KHZ (R8). -/
def toleranceKhz : Nat := 1000
/-- LOCK_POLL_MAX (R8). -/
def lockPollMax : Nat := 2000
/-- RATIO_LO (R8). -/
def ratioLo : Nat := 12
/-- RATIO_HI (R8). -/
def ratioHi : Nat := 32
/-- REF_KHZ_MAX = 2^22 - 1 (R10, D22). -/
def refKhzMax : Nat := 4194303
/-- LOOPC_W_MAX (R10, D22). -/
def loopcWMax : Nat := 10

/-- A field descriptor (R97): bits `off + width - 1` down to `off` of word `word` of the register. -/
structure Field where
  word : Nat
  off : Nat
  width : Nat
  deriving DecidableEq, Repr

/-- A RegisterLayout (R96): only `sel_out` and `set_param` may be absent. -/
structure Layout where
  nwords : Nat
  divRef : Field
  loopc : Field
  divOut : Field
  locked : Field
  bypass : Field
  powerdown : Field
  selOut : Option Field
  setParam : Option Field
  deriving DecidableEq, Repr

/-- BOUNDS[v] (R107): each pair is an interval closed below and open above. -/
structure Bounds where
  doutLo : Nat
  doutHi : Nat
  drefLo : Nat
  drefHi : Nat
  loopcLo : Nat
  loopcHi : Nat
  deriving DecidableEq, Repr

/-- What one variant tag selects, together and at once (R23): layout, bounds and pre-poll delay in microseconds (R108). -/
structure VariantConfig where
  layout : Layout
  bounds : Bounds
  prepollDelayUs : Nat
  deriving DecidableEq, Repr

/-- A table entry, the 7-tuple of R110 in the spec's order. -/
structure TableEntry where
  clockKhz : Word
  width : Word
  height : Word
  refresh : Word
  divOut : Word
  loopc : Word
  divRef : Word
  deriving DecidableEq, Repr

/-- The triple of an entry, each component moved by name (R123). -/
def TableEntry.params (e : TableEntry) : ClockParams := ⟨e.divRef, e.loopc, e.divOut⟩

/-- The configuration of R10 and R37: four variants, tags 0 to 3 (D8), the constant table (R70) and NUM_PLL (R9). -/
structure Config where
  variant0 : VariantConfig
  variant1 : VariantConfig
  variant2 : VariantConfig
  variant3 : VariantConfig
  table : List TableEntry
  numPll : Nat
  deriving DecidableEq, Repr

/-- The variant a tag names (R23). -/
def Config.variant (cfg : Config) (v : BitVec 2) : VariantConfig :=
  if v = 0 then cfg.variant0 else if v = 1 then cfg.variant1 else if v = 2 then cfg.variant2 else cfg.variant3

/-! Free values. No body, so nothing can evaluate them: a claim about them holds whatever they are. -/

/-- The `n`-th lock draw of port `pll`, where the state's script names none (R41, R66, D33; log 3). -/
opaque Config.lockDraw (pll n : Nat) : Bool

/-- The `n`-th answer (grant or deny) to `map_req` of port `pll`, where the state's script names none (R221, R223; log 4). -/
opaque Config.grantDraw (pll n : Nat) : Bool

/-- Word `i` of the PLL register of port `pll` at power-on (R39, R261, U10; log 7). -/
opaque Config.powerOnWord (pll i : Nat) : Word

/-- ACTIVE of port `pll` at power-on (R40, U11; log 7). -/
opaque Config.powerOnActive (pll : Nat) : Option ClockParams

/-- The variant of the PLL that sits on port `pll` (R264: what INIT's tag must name; log 25). -/
opaque Config.boardVariant (pll : Nat) : BitVec 2

/-- The frequency in kHz of the oscillator that port `pll`'s PLL runs from (R9, R264; log 25). -/
opaque Config.boardRefKhz (pll : Nat) : Word

end Sys2Proof
end

