-- ==== Sys2Proof/Syntax.lean ====
section
/-! DEFINITION. The ten commands (spec 00_scope R2; 30_encoding R91, R93) and their written form (R113). -/

namespace Sys2Proof

/-- A command. Every command carries its three operands A, B, C, the ignored ones too: they are latched at acceptance
whatever they hold (10_state R26, R33) and may hold any value (R93). -/
inductive Instr where
  /-- INIT (R220): A = base address, B = variant tag, C = reference frequency in kHz. -/
  | init (a b c : Word)
  /-- LOOKUP (R120): A = requested kHz. -/
  | lookup (a b c : Word)
  /-- SEARCH (R135): A = requested kHz. -/
  | search (a b c : Word)
  /-- COMPUTE (R141): A = requested kHz. -/
  | compute (a b c : Word)
  /-- CALCFREQ (R131): A = div_ref, B = loopc, C = div_out. -/
  | calcfreq (a b c : Word)
  /-- ENCODE (R152): A = div_ref, B = loopc, C = div_out. -/
  | encode (a b c : Word)
  /-- DECODE (R155): A = word 0, B = word 1. -/
  | decode (a b c : Word)
  /-- APPLY (R170): A = div_ref, B = loopc, C = div_out. -/
  | apply (a b c : Word)
  /-- READFREQ (R210): no operand. -/
  | readfreq (a b c : Word)
  /-- TEARDOWN (R225): no operand. -/
  | teardown (a b c : Word)
  deriving DecidableEq, Repr

/-- Operand A of a command. -/
def Instr.a : Instr → Word
  | .init a _ _ | .lookup a _ _ | .search a _ _ | .compute a _ _ | .calcfreq a _ _
  | .encode a _ _ | .decode a _ _ | .apply a _ _ | .readfreq a _ _ | .teardown a _ _ => a

/-- Operand B of a command. -/
def Instr.b : Instr → Word
  | .init _ b _ | .lookup _ b _ | .search _ b _ | .compute _ b _ | .calcfreq _ b _
  | .encode _ b _ | .decode _ b _ | .apply _ b _ | .readfreq _ b _ | .teardown _ b _ => b

/-- Operand C of a command. -/
def Instr.c : Instr → Word
  | .init _ _ c | .lookup _ _ c | .search _ _ c | .compute _ _ c | .calcfreq _ _ c
  | .encode _ _ c | .decode _ _ c | .apply _ _ c | .readfreq _ _ c | .teardown _ _ c => c

/-- The mnemonics of R113, the two pseudo-commands of R114 among them. -/
inductive Mnemonic where
  | INIT | LOOKUP | SEARCH | COMPUTE | CALCFREQ | ENCODE | DECODE | APPLY | READFREQ | TEARDOWN
  | SETFREQ | GETFREQ
  deriving DecidableEq, Repr

/-- A command line as R113 writes it: an optional `p<k>:`, the mnemonic, the operands it writes, as numbers. -/
structure CommandLine where
  port : Option Nat
  mnemonic : Mnemonic
  operands : List Nat
  deriving DecidableEq, Repr

end Sys2Proof
end

