-- ==== Sys2Proof/WellFormed.lean ====
section
/-! DEFINITION. Well-formedness: command lines (spec 30_encoding R113), layouts and their bounds (R97, R99), the table
(20_memory R71), a whole configuration. A term of `Instr` is always well-formed: its operands are three 32-bit words and
R93 admits every value of each, so there is no check on `Instr` itself. Numbers that are too wide for an operand can be
written only in a `CommandLine`, which is checked here. -/

namespace Sys2Proof

/-- How many operands a line of this mnemonic may write (R113); `DECODE w0` is the form of a one-word variant. -/
def Mnemonic.operandCounts : Mnemonic → List Nat
  | .INIT | .CALCFREQ | .ENCODE | .APPLY => [3]
  | .LOOKUP | .SEARCH | .COMPUTE | .SETFREQ => [1]
  | .DECODE => [1, 2]
  | .READFREQ | .TEARDOWN | .GETFREQ => [0]

/-- A line is well-formed when it writes as many operands as its form has and each is a u32 (R11, R113). -/
def CommandLine.wf (l : CommandLine) : Bool :=
  l.mnemonic.operandCounts.contains l.operands.length && l.operands.all (· < 2 ^ 32)

/-- `mask(n) = 2^n - 1` as a number (R11). -/
def maskNat (n : Nat) : Nat := 2 ^ n - 1

/-- The three parameter fields. -/
def Layout.paramFields (L : Layout) : List Field := [L.divRef, L.loopc, L.divOut]

/-- The control and status fields that are present. -/
def Layout.bitFields (L : Layout) : List Field :=
  [L.locked, L.bypass, L.powerdown] ++ L.selOut.toList ++ L.setParam.toList

/-- Every present field. -/
def Layout.fields (L : Layout) : List Field := L.paramFields ++ L.bitFields

/-- Two fields share no bit. -/
abbrev Field.Disjoint (f g : Field) : Prop :=
  f.word ≠ g.word ∨ f.off + f.width ≤ g.off ∨ g.off + g.width ≤ f.off

/-- R96, R97: one or two words; a parameter field is at least one bit wide, a control or status field exactly one. -/
abbrev Layout.WidthsOk (L : Layout) : Prop :=
  (L.nwords = 1 ∨ L.nwords = 2) ∧ (∀ f ∈ L.paramFields, 1 ≤ f.width) ∧ (∀ f ∈ L.bitFields, f.width = 1)

/-- R99 (a): every present field lies inside a word of the register. -/
abbrev Layout.FieldsInside (L : Layout) : Prop :=
  ∀ f ∈ L.fields, f.word < L.nwords ∧ f.off + f.width ≤ 32

/-- R99 (b): no two present fields overlap. -/
abbrev Layout.FieldsDisjoint (L : Layout) : Prop := L.fields.Pairwise Field.Disjoint

/-- R97 and R99 (a) to (c). -/
abbrev Layout.WF (L : Layout) : Prop :=
  L.WidthsOk ∧ L.FieldsInside ∧ L.FieldsDisjoint ∧ L.loopc.width ≤ loopcWMax

/-- R99 (d): the bounds fit the fields. -/
abbrev Bounds.FitLayout (B : Bounds) (L : Layout) : Prop :=
  B.drefHi - 1 ≤ maskNat L.divRef.width ∧ B.loopcHi - 1 ≤ maskNat L.loopc.width ∧ B.doutHi - 1 ≤ maskNat L.divOut.width

/-- R99 (e): no bound admits a zero divider. -/
abbrev Bounds.NoZeroDivider (B : Bounds) : Prop := 1 ≤ B.drefLo ∧ 1 ≤ B.doutLo

/-- WF of R99 for one variant. -/
abbrev VariantConfig.WF (V : VariantConfig) : Prop :=
  V.layout.WF ∧ V.bounds.FitLayout V.layout ∧ V.bounds.NoZeroDivider

/-- R71: an entry has non-zero dividers, a `loopc` of at most LOOPC_W_MAX bits, and Ratio. -/
abbrev TableEntry.WF (e : TableEntry) : Prop :=
  0 < e.divRef.toNat ∧ 0 < e.divOut.toNat ∧ e.loopc.toNat < 2 ^ loopcWMax ∧
    ratioLo * e.divRef.toNat ≤ e.loopc.toNat ∧ e.loopc.toNat ≤ ratioHi * e.divRef.toNat

/-- R71: entries of one frequency carry one triple. -/
abbrev TableDuplicatesAgree (t : List TableEntry) : Prop :=
  t.Pairwise fun e f => e.clockKhz = f.clockKhz → e.params = f.params

/-- R71 for a whole table. -/
abbrev TableWF (t : List TableEntry) : Prop := (∀ e ∈ t, e.WF) ∧ TableDuplicatesAgree t

/-- The four variants. -/
def Config.variants (cfg : Config) : List VariantConfig := [cfg.variant0, cfg.variant1, cfg.variant2, cfg.variant3]

/-- An admissible configuration (R10, U22). -/
abbrev Config.WF (cfg : Config) : Prop := (∀ V ∈ cfg.variants, V.WF) ∧ TableWF cfg.table

end Sys2Proof
end

