-- ==== Sys2Proof/Decode.lean ====
section
/-! DEFINITION. Decoding a command word into a command or a rejection by name (spec 30_encoding R90 to R93), the encoder
written from the same format, and the assembler of R113. -/

namespace Sys2Proof

/-- `cmd_op`, bits 99:96 of the command word (R90). -/
def opField (w : CommandWord) : BitVec 4 := w.extractLsb' 96 4
/-- `cmd_a`, bits 95:64 (R90). -/
def aField (w : CommandWord) : Word := w.extractLsb' 64 32
/-- `cmd_b`, bits 63:32 (R90). -/
def bField (w : CommandWord) : Word := w.extractLsb' 32 32
/-- `cmd_c`, bits 31:0 (R90). -/
def cField (w : CommandWord) : Word := w.extractLsb' 0 32

/-- What the decoder reads: a command, or an opcode that selects none (R92). -/
inductive Decoded where
  | command (i : Instr)
  | illegalOpcode (op : BitVec 4)
  deriving DecidableEq, Repr

/-- The command an opcode selects with the operands A, B, C (R91), or the rejection of R92. -/
def decodeFields (op : BitVec 4) (a b c : Word) : Decoded :=
  match op.toNat with
  | 1 => .command (.init a b c)
  | 2 => .command (.lookup a b c)
  | 3 => .command (.search a b c)
  | 4 => .command (.compute a b c)
  | 5 => .command (.calcfreq a b c)
  | 6 => .command (.encode a b c)
  | 7 => .command (.decode a b c)
  | 8 => .command (.apply a b c)
  | 9 => .command (.readfreq a b c)
  | 10 => .command (.teardown a b c)
  | _ => .illegalOpcode op

/-- The decoder, total on all 2^100 command words (R90 to R92). -/
def decode (w : CommandWord) : Decoded := decodeFields (opField w) (aField w) (bField w) (cField w)

/-- The opcode of a command (R91). -/
def Instr.opcode : Instr → BitVec 4
  | .init .. => 1
  | .lookup .. => 2
  | .search .. => 3
  | .compute .. => 4
  | .calcfreq .. => 5
  | .encode .. => 6
  | .decode .. => 7
  | .apply .. => 8
  | .readfreq .. => 9
  | .teardown .. => 10

/-- `{cmd_op, cmd_a, cmd_b, cmd_c}` (R90). -/
def packCommand (op : BitVec 4) (a b c : Word) : CommandWord := op ++ a ++ b ++ c

/-- The command word of a command (R90, R91). -/
def encode (i : Instr) : CommandWord := packCommand i.opcode i.a i.b i.c

/-- The command word that the number `w` of an instruction of `nbits` bits puts on the port: the port has 100 wires, so
bits above them do not reach CORE (log 16). -/
def tableWord (nbits w : Nat) : CommandWord := BitVec.ofNat 100 (w % 2 ^ nbits)

/-- The instruction the decoder reads from a table word, numbered as spec/opcode_table.json numbers it. -/
def decodeTableWord (nbits w : Nat) : Option Instr :=
  match decode (tableWord nbits w) with
  | .command i => some i
  | .illegalOpcode _ => none

/-- Operand `n` of a line, an omitted one encoded as 0 (R113). -/
def CommandLine.operand (l : CommandLine) (n : Nat) : Word := BitVec.ofNat 32 (l.operands.getD n 0)

/-- The command of a well-formed line (R113). GETFREQ is another name of READFREQ (R114); SETFREQ is two commands, which
the host issues (Machine/Pseudo.lean), so it has no command word of its own. -/
def CommandLine.assemble (l : CommandLine) : Option Instr :=
  if l.wf then
    match l.mnemonic with
    | .INIT => some (.init (l.operand 0) (l.operand 1) (l.operand 2))
    | .LOOKUP => some (.lookup (l.operand 0) 0 0)
    | .SEARCH => some (.search (l.operand 0) 0 0)
    | .COMPUTE => some (.compute (l.operand 0) 0 0)
    | .CALCFREQ => some (.calcfreq (l.operand 0) (l.operand 1) (l.operand 2))
    | .ENCODE => some (.encode (l.operand 0) (l.operand 1) (l.operand 2))
    | .DECODE => some (.decode (l.operand 0) (l.operand 1) 0)
    | .APPLY => some (.apply (l.operand 0) (l.operand 1) (l.operand 2))
    | .READFREQ | .GETFREQ => some (.readfreq 0 0 0)
    | .TEARDOWN => some (.teardown 0 0 0)
    | .SETFREQ => none
  else none

end Sys2Proof
end

