-- ==== Sys2Proof/Machine/BitFields.lean ====
section
/-! DEFINITION. Bit fields of a register word (spec 30_encoding R100) and what a target word stores (20_memory R64, R65). -/

namespace Sys2Proof.Machine

/-- `mask(n) = 2^n - 1` as a word (R11). -/
def mask (n : Nat) : Word := BitVec.ofNat 32 (maskNat n)

/-- `Extract(w, f)` (R100). -/
def extract (w : Word) (f : Field) : Word := (w >>> f.off) &&& mask f.width

/-- `Insert(w, f, v)` (R100). -/
def insert (w : Word) (f : Field) (v : Word) : Word :=
  (w &&& ~~~(mask f.width <<< f.off)) ||| ((v &&& mask f.width) <<< f.off)

/-- The stored form of `v` in word `i` (R64, R65): `v` with the `locked` bit 0. -/
def storedValue (L : Layout) (i : Nat) (v : Word) : Word := if i = L.locked.word then insert v L.locked 0 else v

end Sys2Proof.Machine
end

