-- ==== Sys2Proof/Machine/Variants.lean ====
section
/-! DEFINITION. The reference configuration: the four layouts (spec 30_encoding R102 to R105), bounds (R107), pre-poll
delays (R108), the table (20_memory R72) and NUM_PLL (00_scope R9). All are the spec's defaults (R10, U25; log 10). -/

namespace Sys2Proof.Machine

/-- Variant 0, "generic two-word with commit" (R102). -/
def layout0 : Layout :=
  { nwords := 2
    divOut := ⟨0, 0, 7⟩
    loopc := ⟨0, 21, 9⟩
    divRef := ⟨1, 0, 7⟩
    locked := ⟨1, 7, 1⟩
    selOut := some ⟨1, 8, 1⟩
    setParam := some ⟨1, 11, 1⟩
    bypass := ⟨1, 12, 1⟩
    powerdown := ⟨1, 13, 1⟩ }

/-- Variant 1, "two-word without commit" (R103). -/
def layout1 : Layout :=
  { nwords := 2
    selOut := some ⟨0, 0, 1⟩
    bypass := ⟨0, 1, 1⟩
    powerdown := ⟨0, 2, 1⟩
    locked := ⟨0, 16, 1⟩
    divRef := ⟨0, 26, 6⟩
    loopc := ⟨1, 0, 10⟩
    divOut := ⟨1, 10, 6⟩
    setParam := none }

/-- Variant 2, "one-word with commit" (R104). -/
def layout2 : Layout :=
  { nwords := 1
    divOut := ⟨0, 0, 7⟩
    loopc := ⟨0, 7, 8⟩
    divRef := ⟨0, 15, 4⟩
    setParam := some ⟨0, 28, 1⟩
    bypass := ⟨0, 29, 1⟩
    powerdown := ⟨0, 30, 1⟩
    locked := ⟨0, 31, 1⟩
    selOut := none }

/-- Variant 3, "one-word minimal" (R105). -/
def layout3 : Layout :=
  { nwords := 1
    powerdown := ⟨0, 0, 1⟩
    bypass := ⟨0, 1, 1⟩
    locked := ⟨0, 2, 1⟩
    divRef := ⟨0, 4, 4⟩
    loopc := ⟨0, 8, 7⟩
    divOut := ⟨0, 16, 6⟩
    selOut := none
    setParam := none }

/-- The generic search bounds (R8, R107): div_out in [6,64), div_ref in [3,6), loopc in [6,161). -/
def genericBounds : Bounds :=
  { doutLo := 6, doutHi := 64, drefLo := 3, drefHi := 6, loopcLo := 6, loopcHi := 161 }

/-- BOUNDS[3]: the generic bounds with `loopc` cut to what seven bits hold (R107). -/
def bounds3 : Bounds := { genericBounds with loopcHi := 128 }

/-- The reference table (R72). -/
def referenceTable : List TableEntry :=
  [{ clockKhz := 148500, width := 1920, height := 1080, refresh := 60, divOut := 11, loopc := 49, divRef := 3 },
   { clockKhz := 25175, width := 640, height := 480, refresh := 60, divOut := 85, loopc := 107, divRef := 5 }]

/-- The configuration this hardware runs with: the reference values, the delays of R108 (0, 1, 0, 1 us). -/
def hw : Config :=
  { variant0 := ⟨layout0, genericBounds, 0⟩
    variant1 := ⟨layout1, genericBounds, 1⟩
    variant2 := ⟨layout2, genericBounds, 0⟩
    variant3 := ⟨layout3, bounds3, 1⟩
    table := referenceTable
    numPll := 2 }

end Sys2Proof.Machine
end

