-- ==== Sys2Proof/Machine/State.lean ====
section
/-! DEFINITION. The state of one CORE with its PLL target and what the outside does to it, as plain data (spec 10_state
R20 to R47, 20_memory R64), the reasons a step can stop, and the state after reset (R45). -/

namespace Sys2Proof.Machine

/-- FSM (R30): the name of the last protocol step completed, or what else is in flight. Codes 12 to 15 are never taken. -/
inductive Fsm where
  | idle | bypassed | off | poweredDown | paramStaged | paramCommitted | poweringUp | waitingLock | on | unbypassed
  | exec | read
  deriving DecidableEq, Repr

/-- The status codes of R231; codes 11 to 15 are never produced. -/
inductive Status where
  | ok | errMapFailed | noExactMatch | errToleranceExceeded | warnLockTimeout | errIllegalCmd | errNotInit | errBadArg
  | errInvalidParams | errDivZero | errBadState
  deriving DecidableEq, Repr

/-- Words 0 and 1 of a PLL register, or of what was read from it (R38); word 1 means nothing on a one-word variant. -/
structure RegWords where
  w0 : Word
  w1 : Word
  deriving DecidableEq, Repr

/-- The PllHandle registers (R21 to R24). -/
structure Handle where
  /-- H_VALID (R21) -/
  valid : Bool
  /-- H_BASE (R22) -/
  base : Word
  /-- H_VARIANT (R23) -/
  variant : BitVec 2
  /-- H_REF_KHZ (R24) -/
  refKhz : Word
  deriving DecidableEq, Repr

/-- The cached ClockParams (R25): H_CACHE_VALID, and H_CACHE_DIV_REF, H_CACHE_LOOPC, H_CACHE_DIV_OUT. -/
structure Cache where
  valid : Bool
  params : ClockParams
  deriving DecidableEq, Repr

/-- OPCODE, A, B, C: the command last accepted (R26). -/
structure CommandRegs where
  opcode : BitVec 4
  a : Word
  b : Word
  c : Word
  deriving DecidableEq, Repr

/-- STATUS (R28), RES0 to RES3 (R27) and the `rsp_valid` pulse (R34, R43). -/
structure Response where
  status : Status
  res0 : Word
  res1 : Word
  res2 : Word
  res3 : Word
  valid : Bool
  deriving DecidableEq, Repr

/-- The sequencer: FSM (R30), SUB (R31), LOCK_ITERS (R32), LOCK_TIMEOUT (R35), and the words read and not yet used (the
locals `w` and `W[i]` of R174, R178, R210; log 14). -/
structure Sequencer where
  fsm : Fsm
  sub : BitVec 3
  lockIters : BitVec 11
  lockTimeout : Bool
  read : RegWords
  deriving DecidableEq, Repr

/-- The S_* registers (R36): S_REQ, the three loop counters, S_BEST_DIFF, the best triple, S_HAVE. -/
structure SearchRegs where
  req : Word
  divOut : Word
  divRef : Word
  loopc : Word
  bestDiff : Word
  best : ClockParams
  found : Bool
  deriving DecidableEq, Repr

/-- The PLL target (R64): W0, W1 (R38) and ACTIVE (R40). -/
structure PllTarget where
  words : RegWords
  active : Option ClockParams
  deriving DecidableEq, Repr

/-- One event on CORE's bus and map ports (R43), or a delay. A bus event carries the word index of R62 and the bus address. -/
inductive PortEvent where
  /-- one RegRead (R61): word index, `bus_addr`, the value on `bus_rdata` -/
  | read (i : Nat) (addr : Word) (value : Word)
  /-- one RegWrite (R62): word index, `bus_addr`, `bus_wdata` -/
  | write (i : Nat) (addr : Word) (value : Word)
  /-- one Delay (R181, R246), in microseconds -/
  | delay (us : Nat)
  /-- `map_req` with address and size in bytes (R221) -/
  | mapReq (addr : Word) (size : Nat)
  /-- `map_grant`, the platform's yes (R223) -/
  | mapGrant
  /-- `map_deny`, the platform's no (R223) -/
  | mapDeny
  /-- a `map_release` pulse (R225) -/
  | mapRelease
  deriving DecidableEq, Repr

/-- What the platform does on `map_req` (R223): grant, deny, or never answer (U4). -/
inductive GrantAnswer where
  | grant | deny | silent
  deriving DecidableEq, Repr

/-- What the host does on a coming step (log 2, log 21): present a command until it is accepted (R33, R274), present none
for one step, or pull `rst_n` low for one step (R45, R260). -/
inductive HostInput where
  | command (w : CommandWord)
  | quiet
  | reset
  deriving DecidableEq, Repr

/-- What the board fixes for one port (R9, R264): the variant of its PLL and the frequency of its oscillator. INIT's B and C
are to name them; CORE cannot check it (log 25). -/
structure Board where
  variant : BitVec 2
  refKhz : Word
  deriving DecidableEq, Repr

/-- The outside of CORE as plain data: the host's inputs to come, the free draws, the bus, the time base, the board
(logs 1 to 5, 17, 25). -/
structure Env where
  /-- the port this CORE sits on, the source's `pll_id` (R90, R248) -/
  pllId : Nat
  /-- the board's facts about that port; never written -/
  board : Board
  /-- what the host does on the coming steps, the next one first -/
  host : List HostInput
  /-- true: a command in flight advances by one bus transaction a step (R31); false: one step runs it whole (log 1) -/
  fine : Bool
  /-- the lock draws named in advance, by position; beyond them a draw is `Config.lockDraw` -/
  lockScript : List Bool
  /-- how many lock draws have been made -/
  lockPos : Nat
  /-- the map answers named in advance, by position; beyond them an answer is `Config.grantDraw` -/
  grantScript : List GrantAnswer
  /-- how many map answers have been given -/
  grantPos : Nat
  /-- how many bus transactions have been acknowledged -/
  busCount : Nat
  /-- none: every transaction is acknowledged; some n: only the first n are (U3) -/
  busLimit : Option Nat
  /-- whether `tick_us` keeps pulsing (U5) -/
  tickRuns : Bool
  deriving DecidableEq, Repr

/-- The whole state. -/
structure State where
  handle : Handle
  cache : Cache
  cmd : CommandRegs
  rsp : Response
  seq : Sequencer
  search : SearchRegs
  pll : PllTarget
  /-- the last APPLY that began has completed, and its lock wait saw the lock (R69; log 19): no register of the spec -/
  settled : Bool
  /-- the port events so far, the newest first (log 14) -/
  trace : List PortEvent
  env : Env
  deriving DecidableEq, Repr

/-- Why the machine makes no further step: the stuck cases of 93_implementation_defined U3 to U5. Each is safe: the
hardware waits for ever inside the command, and so does the model. None arises unless `Env` says the outside is dead. -/
inductive Fault where
  /-- Raised by a bus transaction that is never acknowledged (R242, U3). Safe. -/
  | busNeverAcknowledges
  /-- Raised by INIT when the platform never answers `map_req` (R273, U4). Safe. -/
  | mapNeverAnswered
  /-- Raised by the pre-poll delay of APPLY when `tick_us` never pulses (R246, U5). Safe. -/
  | timeBaseStopped
  deriving DecidableEq, Repr

/-- Why the model gives no meaning. -/
inductive Refusal where
  /-- An instruction whose meaning is not written yet; no arm uses it any more. Safe. -/
  | notModelled (mnemonic : String)
  /-- Raised by a bus transaction whose address H_BASE + 4*i is above 2^32 - 1: outside the spec (R76, U2). Safe. -/
  | windowPastTop
  deriving DecidableEq, Repr

/-- All S_* registers 0 (R45). -/
def SearchRegs.zero : SearchRegs := ⟨0, 0, 0, 0, 0, ClockParams.zero, false⟩

/-- The sequencer at reset (R45). -/
def Sequencer.zero : Sequencer := ⟨.idle, 0, 0, false, ⟨0, 0⟩⟩

/-- The outside right after reset (logs 1 to 5, 17, 25): the host presents nothing, no draw is named in advance, bus and
time base work. -/
def Env.quiet (pll : Nat) : Env :=
  { pllId := pll, board := ⟨Config.boardVariant pll, Config.boardRefKhz pll⟩, host := [], fine := false, lockScript := [], lockPos := 0, grantScript := [], grantPos := 0,
    busCount := 0, busLimit := none, tickRuns := true }

/-- Every register of CORE as R45 says, over the given target and outside (R45, R260, R261). -/
def State.resetCoreWith (pll : PllTarget) (settled : Bool) (trace : List PortEvent) (env : Env) : State :=
  { handle := ⟨false, 0, 0, 0⟩
    cache := ⟨false, ClockParams.zero⟩
    cmd := ⟨0, 0, 0, 0⟩
    rsp := ⟨.ok, 0, 0, 0, 0, false⟩
    seq := Sequencer.zero
    search := SearchRegs.zero
    pll := pll
    settled := settled
    trace := trace
    env := env }

/-- The PLL target of port `pll` at power-on (R39, R40, R64, R261): any words, but for the stored `locked` bit, which is 0, and
any ACTIVE: body-less constants (log 7). -/
def PllTarget.powerOn (cfg : Config) (pll : Nat) : PllTarget :=
  let L := (cfg.variant (Config.boardVariant pll)).layout
  { words := ⟨storedValue L 0 (Config.powerOnWord pll 0), storedValue L 1 (Config.powerOnWord pll 1)⟩
    active := Config.powerOnActive pll }

/-- CORE on port `pll` right after power-on and reset, under a configuration; no APPLY has completed yet. -/
def State.resetOf (cfg : Config) (pll : Nat) : State :=
  State.resetCoreWith (PllTarget.powerOn cfg pll) false [] (Env.quiet pll)

/-- The machine right after reset (R45): the reference configuration, port 0. -/
def State.reset : State := State.resetOf hw 0

/-- The outcome of one step or one operation of this machine. -/
abbrev Outcome := Host.Outcome State Fault Refusal

end Sys2Proof.Machine
end

