-- ==== Sys2Proof/Machine/Operands.lean ====
section
/-! DEFINITION. Fields of a register (spec 10_state R38, 30_encoding R97), the operand checks (R95, R101; 41_search R132;
45_lifecycle R222), the codec functions (42_codec R150, R151, R154) and the frequency formula (41_search R130). -/

namespace Sys2Proof.Machine

/-- Word `i` of a register; a register has words 0 and 1 only (R38). -/
def RegWords.get (W : RegWords) (i : Nat) : Word := if i = 0 then W.w0 else W.w1

/-- The register with word `i` replaced. -/
def RegWords.set (W : RegWords) (i : Nat) (v : Word) : RegWords :=
  if i = 0 then { W with w0 := v } else { W with w1 := v }

/-- Field `f` of the register `W`: `Extract(W[f.word], f)`. -/
def readField (W : RegWords) (f : Field) : Word := extract (W.get f.word) f

/-- The register with field `f` replaced by `v`: `W[f.word] = Insert(W[f.word], f, v)`. -/
def writeField (W : RegWords) (f : Field) (v : Word) : RegWords := W.set f.word (insert (W.get f.word) f v)

/-- `Fits(L, p)` (R101). -/
def fits (L : Layout) (p : ClockParams) : Bool :=
  decide (p.divRef.toNat ≤ maskNat L.divRef.width) && decide (p.loopc.toNat ≤ maskNat L.loopc.width) &&
    decide (p.divOut.toNat ≤ maskNat L.divOut.width)

/-- One of the two dividers is 0, so the formula is not defined (R130, R131, R171, R213). -/
def zeroDivider (p : ClockParams) : Bool := p.divRef == 0 || p.divOut == 0

/-- `Ratio(p)` (R132), both ends included. -/
def ratio (p : ClockParams) : Bool :=
  decide (ratioLo * p.divRef.toNat ≤ p.loopc.toNat) && decide (p.loopc.toNat ≤ ratioHi * p.divRef.toNat)

/-- The operand checks of INIT (R222): a variant tag up to 3, a base that is a multiple of 4, a reference in 1..REF_KHZ_MAX. -/
def initArgsOk (a b c : Word) : Bool :=
  decide (b.toNat ≤ 3) && decide (a.toNat % 4 = 0) && decide (1 ≤ c.toNat) && decide (c.toNat ≤ refKhzMax)

/-- `Freq(ref, p) = ((ref / p.div_ref) * p.loopc) / p.div_out` over the naturals, divide first (R130). -/
def freq (ref : Nat) (p : ClockParams) : Nat := ref / p.divRef.toNat * p.loopc.toNat / p.divOut.toNat

/-- `|a - b|` (R11, R134). -/
def absDiff (a b : Nat) : Nat := if b ≤ a then a - b else b - a

/-- `EncodeInto(L, W, p)` (R150). -/
def encodeInto (L : Layout) (W : RegWords) (p : ClockParams) : RegWords :=
  writeField (writeField (writeField W L.divRef p.divRef) L.loopc p.loopc) L.divOut p.divOut

/-- `EncodeImage(L, p)` (R151). -/
def encodeImage (L : Layout) (p : ClockParams) : RegWords := encodeInto L ⟨0, 0⟩ p

/-- `DecodeParams(L, W)` (R154). -/
def decodeParams (L : Layout) (W : RegWords) : ClockParams :=
  ⟨readField W L.divRef, readField W L.loopc, readField W L.divOut⟩

/-- The layout the handle selects (R23, R159). -/
def State.layout (cfg : Config) (s : State) : Layout := (cfg.variant s.handle.variant).layout

/-- The bounds the handle selects (R23, R107). -/
def State.bounds (cfg : Config) (s : State) : Bounds := (cfg.variant s.handle.variant).bounds

/-- PREPOLL_DELAY_US of the handle's variant (R108, R172). -/
def State.prepollDelayUs (cfg : Config) (s : State) : Nat := (cfg.variant s.handle.variant).prepollDelayUs

end Sys2Proof.Machine
end

