-- ==== Sys2Proof/Machine/Flags.lean ====
section
/-! DEFINITION. Status codes (spec 60_exceptions R231), FSM codes (10_state R30), BUSY and the status outputs (R29, R43),
the control and status bits of a register (42_codec R153) and the status-bit word (30_encoding R111). -/

namespace Sys2Proof.Machine

/-- The 4-bit STATUS code (R231). -/
def Status.code : Status → BitVec 4
  | .ok => 0
  | .errMapFailed => 1
  | .noExactMatch => 2
  | .errToleranceExceeded => 3
  | .warnLockTimeout => 4
  | .errIllegalCmd => 5
  | .errNotInit => 6
  | .errBadArg => 7
  | .errInvalidParams => 8
  | .errDivZero => 9
  | .errBadState => 10

/-- The 4-bit FSM code (R30). -/
def Fsm.code : Fsm → BitVec 4
  | .idle => 0
  | .bypassed => 1
  | .off => 2
  | .poweredDown => 3
  | .paramStaged => 4
  | .paramCommitted => 5
  | .poweringUp => 6
  | .waitingLock => 7
  | .on => 8
  | .unbypassed => 9
  | .exec => 10
  | .read => 11

/-- BUSY = 1 exactly when FSM is not IDLE (R29). -/
def State.busy (s : State) : Bool := s.seq.fsm != .idle

/-- The response and status outputs of R43, each a view of a register. -/
structure Outputs where
  cmdReady : Bool
  rspValid : Bool
  rspStatus : BitVec 4
  rspR0 : Word
  rspR1 : Word
  rspR2 : Word
  rspR3 : Word
  busy : Bool
  fsmState : BitVec 4
  lockIters : BitVec 11
  lockTimeout : Bool
  hValid : Bool
  cacheValid : Bool
  cacheDivRef : Word
  cacheLoopc : Word
  cacheDivOut : Word
  deriving DecidableEq, Repr

/-- What the outside sees on the output ports (R29, R43). -/
def State.outputs (s : State) : Outputs :=
  { cmdReady := !s.busy
    rspValid := s.rsp.valid
    rspStatus := s.rsp.status.code
    rspR0 := s.rsp.res0
    rspR1 := s.rsp.res1
    rspR2 := s.rsp.res2
    rspR3 := s.rsp.res3
    busy := s.busy
    fsmState := s.seq.fsm.code
    lockIters := s.seq.lockIters
    lockTimeout := s.seq.lockTimeout
    hValid := s.handle.valid
    cacheValid := s.cache.valid
    cacheDivRef := s.cache.params.divRef
    cacheLoopc := s.cache.params.loopc
    cacheDivOut := s.cache.params.divOut }

/-- The five control and status bits (R153), each as the word Extract gives; an absent one is 0. -/
structure StatusBits where
  locked : Word
  bypass : Word
  powerdown : Word
  selOut : Word
  setParam : Word
  deriving DecidableEq, Repr

/-- A field that may be absent reads 0 when it is (R109, R153). -/
def readOptField (W : RegWords) : Option Field → Word
  | some f => readField W f
  | none => 0

/-- `DecodeStatus(L, W)` (R153). -/
def decodeStatus (L : Layout) (W : RegWords) : StatusBits :=
  { locked := readField W L.locked
    bypass := readField W L.bypass
    powerdown := readField W L.powerdown
    selOut := readOptField W L.selOut
    setParam := readOptField W L.setParam }

/-- The status-bit word DECODE returns (R111). -/
def StatusBits.word (b : StatusBits) : Word :=
  b.locked ||| (b.bypass <<< 1) ||| (b.powerdown <<< 2) ||| (b.selOut <<< 3) ||| (b.setParam <<< 4)

end Sys2Proof.Machine
end

