-- ==== Sys2Proof/Machine/Ops.lean ====
section
/-! DEFINITION. The shared operations: sequencing of outcomes, `respond` and `raise` (spec 10_state R34, 60_exceptions R230,
R238), command acceptance (R33), reset (R45, R260 to R262), the PLL target (20_memory R64 to R68), the two bus
transactions (R61, R62) and the read-modify-write made of them (43_programmer R174). -/

namespace Sys2Proof.Machine

/-- Do `f` from the state `o` ends in; a stop is final. -/
def andThen (o : Outcome) (f : State → Outcome) : Outcome :=
  match o with
  | .next s => f s
  | .fault r => .fault r
  | .refused r => .refused r

/-! ### Ending a command -/

/-- `respond(s, r0, r1, r2, r3)` (R34); `none` is `-`, the register keeps its value. -/
def respond (st : Status) (r0 r1 r2 r3 : Option Word) (s : State) : State :=
  { s with
    rsp :=
      { status := st, res0 := r0.getD s.rsp.res0, res1 := r1.getD s.rsp.res1, res2 := r2.getD s.rsp.res2,
        res3 := r3.getD s.rsp.res3, valid := true }
    seq := { s.seq with fsm := .idle, sub := 0 } }

/-- `raise E` for an error that names no result register (R12, R94, R238): this hardware's only exception entry. It ends
the command with the status; nothing is saved, control goes nowhere, and there is nothing to return from (R239). -/
def raise (st : Status) (s : State) : Outcome := .next (respond st none none none none s)

/-! ### Beginning a command -/

/-- The command latch of R33 and R26: OPCODE, A, B, C take the presented command. -/
def accept (w : CommandWord) (s : State) : State :=
  { s with cmd := ⟨opField w, aField w, bField w, cField w⟩ }

/-- The answer to an opcode that selects no command (R92). -/
def illegalCommand (s : State) : Outcome := raise .errIllegalCmd s

/-- `rst_n` low for one clock (R45, R260): every register of CORE takes its reset value; the PLL target is untouched
(R261), whatever was in flight is abandoned (R262), and the outside goes on. -/
def resetCore (s : State) : State := State.resetCoreWith s.pll s.settled s.trace s.env

/-! ### Moving the sequencer -/

/-- `FSM <- q` at the end of a transition; SUB is 0 when the next one begins (R31). -/
def State.moveTo (q : Fsm) (s : State) : State := { s with seq := { s.seq with fsm := q, sub := 0 } }

/-- SUB moves to the next bus transaction of the transition (R31). -/
def State.nextSub (s : State) : State := { s with seq := { s.seq with sub := s.seq.sub + 1 } }

/-- One more port event. -/
def State.record (e : PortEvent) (s : State) : State := { s with trace := e :: s.trace }

/-! ### The free inputs -/

/-- The lock draw at position `n` (R66): scripted, or free. -/
def Env.lockAt (e : Env) (n : Nat) : Bool := (e.lockScript[n]?).getD (Config.lockDraw e.pllId n)

/-- The map answer at position `n` (R221, R223): scripted, or free. -/
def Env.grantAt (e : Env) (n : Nat) : GrantAnswer :=
  (e.grantScript[n]?).getD (if Config.grantDraw e.pllId n then .grant else .deny)

/-- The bus acknowledges no further transaction (R242, U3). -/
def Env.busDead (e : Env) : Bool :=
  match e.busLimit with
  | none => false
  | some n => decide (n ≤ e.busCount)

/-! ### The PLL target -/

/-- The commit event of a write to word `i` that changes it from `old` to `new` (R67): the 0-to-1 edge of `set_param`
where the layout has it, else the 1-to-0 edge of `powerdown`. -/
def commitEvent (L : Layout) (i : Nat) (old new : Word) : Bool :=
  match L.setParam with
  | some f => i == f.word && extract old f == 0 && extract new f == 1
  | none => i == L.powerdown.word && extract old L.powerdown == 1 && extract new L.powerdown == 0

/-- Target write (R65, R67). -/
def PllTarget.write (L : Layout) (i : Nat) (v : Word) (t : PllTarget) : PllTarget :=
  let new := storedValue L i v
  let W := t.words.set i new
  { words := W
    active := if commitEvent L i (t.words.get i) new then some (decodeParams L W) else t.active }

/-- A lock draw as the bit it puts into a word. -/
def lockBit (draw : Bool) : Word := if draw then 1 else 0

/-- Target read of word `i` under a lock draw (R66). -/
def PllTarget.value (L : Layout) (i : Nat) (draw : Bool) (t : PllTarget) : Word :=
  if i = L.locked.word then insert (t.words.get i) L.locked (lockBit draw) else t.words.get i

/-! ### Bus transactions -/

/-- `bus_addr` of word `i`: H_BASE + 4*i (R60, R61). -/
def State.busAddr (s : State) (i : Nat) : Word := s.handle.base + BitVec.ofNat 32 (4 * i)

/-- Word `i` of the window lies inside the 32-bit address space (R76). -/
def State.inAddressSpace (s : State) (i : Nat) : Bool := decide (s.handle.base.toNat + 4 * i < 2 ^ 32)

/-- One bus transaction on word `i` with effect `act`: refused past the top of the address space (R76, U2), stuck when the
bus never acknowledges (R242, U3), else completed before anything else happens (R77). -/
def busTransaction (i : Nat) (act : State → State) (s : State) : Outcome :=
  if s.inAddressSpace i then
    if s.env.busDead then .fault .busNeverAcknowledges
    else .next (act { s with env := { s.env with busCount := s.env.busCount + 1 } })
  else .refused .windowPastTop

/-- The value a RegRead of word `i` returns now (R61, R66). -/
def State.readValue (cfg : Config) (i : Nat) (s : State) : Word :=
  s.pll.value (s.layout cfg) i (s.env.lockAt s.env.lockPos)

/-- The effect of a completed RegRead (R61, R66): the value is held in `seq.read`; a read of the word that holds `locked`
uses up one lock draw; the target does not change (R68). -/
def readEffect (cfg : Config) (i : Nat) (s : State) : State :=
  { s.record (.read i (s.busAddr i) (s.readValue cfg i)) with
    seq := { s.seq with read := s.seq.read.set i (s.readValue cfg i) }
    env := { s.env with lockPos := if i = (s.layout cfg).locked.word then s.env.lockPos + 1 else s.env.lockPos } }

/-- RegRead(i) (R61). -/
def busRead (cfg : Config) (i : Nat) (s : State) : Outcome := busTransaction i (readEffect cfg i) s

/-- The effect of a completed RegWrite (R62, R65, R67). -/
def writeEffect (cfg : Config) (i : Nat) (v : Word) (s : State) : State :=
  { s.record (.write i (s.busAddr i) v) with pll := s.pll.write (s.layout cfg) i v }

/-- RegWrite(i, v) (R62). -/
def busWrite (cfg : Config) (i : Nat) (v : Word) (s : State) : Outcome := busTransaction i (writeEffect cfg i v) s

/-! ### Read-modify-write -/

/-- One read-modify-write (R174, R178): the word, and the fields replaced in it. -/
structure Rmw where
  word : Nat
  edits : List (Field × Word)
  deriving DecidableEq, Repr

/-- The word written, from the word read: the named fields replaced by Insert. -/
def Rmw.edit (r : Rmw) (w : Word) : Word := r.edits.foldl (fun w e => insert w e.1 e.2) w

/-- `SetBit(f, v)` (R174). -/
def setBit (f : Field) (v : Word) : Rmw := ⟨f.word, [(f, v)]⟩

/-- The write half of a read-modify-write: from the word just read. -/
def rmwWrite (cfg : Config) (r : Rmw) (s : State) : Outcome := busWrite cfg r.word (r.edit (s.seq.read.get r.word)) s

/-- A read-modify-write: RegRead, then RegWrite of the edited word (R174). -/
def runRmw (cfg : Config) (r : Rmw) (s : State) : Outcome := andThen (busRead cfg r.word s) (rmwWrite cfg r)

/-- Read-modify-writes one after another (R77). -/
def runRmws (cfg : Config) : List Rmw → State → Outcome
  | [], s => .next s
  | r :: rs, s => andThen (runRmw cfg r s) (runRmws cfg rs)

end Sys2Proof.Machine
end

