-- ==== Sys2Proof/Machine/Codec.lean ====
section
/-! DEFINITION. ENCODE and DECODE (spec 42_codec R152, R155). -/

namespace Sys2Proof.Machine

/-- Word 1 of a register image, 0 on a variant that has no word 1 (R112, R152). -/
def imageWord1 (L : Layout) (I : RegWords) : Word := if L.nwords = 2 then I.w1 else 0

/-- ENCODE (R152) under a configuration. -/
def encodeCmd (cfg : Config) (p : ClockParams) (s : State) : Outcome :=
  if !s.handle.valid then raise .errNotInit s
  else if !fits (s.layout cfg) p then raise .errInvalidParams s
  else
    let I := encodeImage (s.layout cfg) p
    .next (respond .ok (some I.w0) (some (imageWord1 (s.layout cfg) I)) none none s)

/-- DECODE (R155) under a configuration. Word 1 is ignored on a one-word variant, because no field lies in it (R99 (a)). -/
def decodeCmd (cfg : Config) (W : RegWords) (s : State) : Outcome :=
  if !s.handle.valid then raise .errNotInit s
  else
    let p := decodeParams (s.layout cfg) W
    .next (respond .ok (some p.divRef) (some p.loopc) (some p.divOut) (some (decodeStatus (s.layout cfg) W).word) s)

/-- ENCODE: A = div_ref, B = loopc, C = div_out (R152). -/
def execEncode (a b c : Word) (s : State) : Outcome := encodeCmd hw ⟨a, b, c⟩ s

/-- DECODE: A = word 0, B = word 1; C is ignored (R155). -/
def execDecode (a b _c : Word) (s : State) : Outcome := decodeCmd hw ⟨a, b⟩ s

end Sys2Proof.Machine
end

