-- ==== Sys2Proof/Machine/Lifecycle.lean ====
section
/-! DEFINITION. INIT and TEARDOWN (spec 45_lifecycle). -/

namespace Sys2Proof.Machine

/-- `map_req` with the base and the window's size, 4 * nwords bytes (R221); the answer is used up. -/
def requestMap (cfg : Config) (a b : Word) (s : State) : State :=
  { s.record (.mapReq a (4 * (cfg.variant (b.setWidth 2)).layout.nwords)) with
    env := { s.env with grantPos := s.env.grantPos + 1 } }

/-- The handle of a successful INIT (R221). -/
def fillHandle (a b c : Word) (s : State) : State :=
  { s with handle := ⟨true, a, b.setWidth 2, c⟩, cache := { s.cache with valid := false } }

/-- INIT (R221 to R224) under a configuration. -/
def initCmd (cfg : Config) (a b c : Word) (s : State) : Outcome :=
  if s.handle.valid then raise .errBadState s
  else if !initArgsOk a b c then raise .errBadArg s
  else
    match s.env.grantAt s.env.grantPos with
    | .grant => .next (respond .ok none none none none (fillHandle a b c ((requestMap cfg a b s).record .mapGrant)))
    | .deny => raise .errMapFailed ((requestMap cfg a b s).record .mapDeny)
    | .silent => .fault .mapNeverAnswered

/-- TEARDOWN (R225): one `map_release` pulse, handle and cache invalid; base, variant and reference stay (R226). -/
def teardownCmd (s : State) : Outcome :=
  if !s.handle.valid then raise .errNotInit s
  else
    .next (respond .ok none none none none
      { s.record .mapRelease with
        handle := { s.handle with valid := false }, cache := { s.cache with valid := false } })

/-- INIT: A = base address, B = variant tag, C = reference frequency in kHz (R220). -/
def execInit (a b c : Word) (s : State) : Outcome := initCmd hw a b c s

/-- TEARDOWN: all operands are ignored (R225). -/
def execTeardown (_a _b _c : Word) (s : State) : Outcome := teardownCmd s

end Sys2Proof.Machine
end

