-- ==== Sys2Proof/Machine/Programmer.lean ====
section
/-! DEFINITION. APPLY, the reprogram sequencer (spec 43_programmer): the transitions as data, the whole sequence (R189),
and the same sequence one bus transaction at a time (10_state R31). -/

namespace Sys2Proof.Machine

/-- The checks before the sequence, in order (R171); none when the triple is accepted. -/
def applyRefusal (cfg : Config) (p : ClockParams) (s : State) : Option Status :=
  if !s.handle.valid then some .errNotInit
  else if !fits (s.layout cfg) p then some .errInvalidParams
  else if zeroDivider p then some .errInvalidParams
  else none

/-- The state after the transition out of a state: the chain of R170. -/
def Fsm.next : Fsm → Fsm
  | .idle => .bypassed
  | .bypassed => .off
  | .off => .poweredDown
  | .poweredDown => .paramStaged
  | .paramStaged => .paramCommitted
  | .paramCommitted => .poweringUp
  | .poweringUp => .waitingLock
  | .waitingLock => .on
  | .on => .unbypassed
  | .unbypassed => .idle
  | .exec => .idle
  | .read => .idle

/-- The parameter fields with the values to stage. -/
def paramEdits (L : Layout) (p : ClockParams) : List (Field × Word) :=
  [(L.divRef, p.divRef), (L.loopc, p.loopc), (L.divOut, p.divOut)]

/-- The read-modify-write that stages word `i`, if a parameter field lies in it (R178). -/
def stageWord (L : Layout) (p : ClockParams) (i : Nat) : Option Rmw :=
  let es := (paramEdits L p).filter (fun e => e.1.word == i)
  if es.isEmpty then none else some ⟨i, es⟩

/-- Staging, words ascending (R178). -/
def stageRmws (L : Layout) (p : ClockParams) : List Rmw := (List.range L.nwords).filterMap (stageWord L p)

/-- A SetBit that does not apply on a layout without the bit (R172). -/
def setOptBit (f : Option Field) (v : Word) : List Rmw :=
  match f with
  | some f => [setBit f v]
  | none => []

/-- The read-modify-writes of the transition out of a state (R175 to R180, R184, R185); the transitions that make no bus
transaction and the polls have none. -/
def transitionRmws (L : Layout) (p : ClockParams) : Fsm → List Rmw
  | .idle => [setBit L.bypass 1]
  | .bypassed => setOptBit L.selOut 0
  | .off => [setBit L.powerdown 1]
  | .poweredDown => stageRmws L p
  | .paramStaged => setOptBit L.setParam 1 ++ setOptBit L.setParam 0
  | .paramCommitted => [setBit L.powerdown 0]
  | .poweringUp => []
  | .waitingLock => setOptBit L.selOut 1
  | .on => [setBit L.bypass 0]
  | .unbypassed => []
  | .exec => []
  | .read => []

/-- The whole transition out of `q`: its read-modify-writes, then the next state (R175 to R180, R184, R185). -/
def transition (cfg : Config) (p : ClockParams) (q : Fsm) (s : State) : Outcome :=
  andThen (runRmws cfg (transitionRmws (s.layout cfg) p q) s) fun t => .next (t.moveTo q.next)

/-- Transitions one after another. -/
def transitions (cfg : Config) (p : ClockParams) : List Fsm → State → Outcome
  | [], s => .next s
  | q :: qs, s => andThen (transition cfg p q s) (transitions cfg p qs)

/-- LOCK_ITERS <- 0, FSM <- WAITING_LOCK (R181). -/
def startWait (s : State) : State := State.moveTo .waitingLock { s with seq := { s.seq with lockIters := 0 } }

/-- Step 7, first part (R181): the delay where the variant has one, a step with no effect (R246), then the wait begins.
With a dead time base the delay never ends (U5). -/
def settle (cfg : Config) (s : State) : Outcome :=
  if s.prepollDelayUs cfg = 0 then .next (startWait s)
  else if s.env.tickRuns then .next (startWait (s.record (.delay (s.prepollDelayUs cfg))))
  else .fault .timeBaseStopped

/-- LOCK_ITERS and LOCK_TIMEOUT after a poll that read `w` (R183). SUB becomes 1 when the wait is over: the read just made
was transaction 0 of the transition to ON (log 13). -/
def pollResult (L : Layout) (w : Word) (q : Sequencer) : Sequencer :=
  if extract w L.locked = 1 then { q with lockIters := q.lockIters + 1, lockTimeout := false, sub := 1 }
  else if (q.lockIters + 1).toNat = lockPollMax then { q with lockIters := q.lockIters + 1, lockTimeout := true, sub := 1 }
  else { q with lockIters := q.lockIters + 1 }

/-- One poll (R183). -/
def poll (cfg : Config) (s : State) : Outcome :=
  andThen (busRead cfg (s.layout cfg).locked.word s) fun t =>
    .next { t with seq := pollResult (t.layout cfg) (t.seq.read.get (t.layout cfg).locked.word) t.seq }

/-- At most `n` polls, until the wait is over (R182). -/
def pollWait (cfg : Config) : Nat → State → Outcome
  | 0, s => .next s
  | n + 1, s => andThen (poll cfg s) fun t => if t.seq.sub = 0 then pollWait cfg n t else .next t

/-- The sequence begins: what an earlier APPLY reached is given up (R69; log 19). -/
def unsettle (s : State) : State := { s with settled := false }

/-- Completion (R186, R190): the cache, then the response; whether the lock was seen is remembered (R69; log 19). -/
def complete (p : ClockParams) (s : State) : State :=
  respond (if s.seq.lockTimeout then .warnLockTimeout else .ok) none none none (some (s.seq.lockIters.setWidth 32))
    { s with cache := ⟨true, p⟩, settled := !s.seq.lockTimeout }

/-- Steps 1 to 6, as the states they leave (R175 to R180). -/
def firstSteps : List Fsm := [.idle, .bypassed, .off, .poweredDown, .paramStaged, .paramCommitted]

/-- Steps 8 and 9, as the states they leave (R184, R185). -/
def lastSteps : List Fsm := [.waitingLock, .on]

/-- The whole sequence after the checks (R189). -/
def applySequence (cfg : Config) (p : ClockParams) (s : State) : Outcome :=
  andThen (transitions cfg p firstSteps (unsettle s)) fun s =>
    andThen (settle cfg s) fun s =>
      andThen (pollWait cfg lockPollMax s) fun s =>
        andThen (transitions cfg p lastSteps s) fun s => .next (complete p s)

/-- APPLY (R170, R171, R189) under a configuration. -/
def applyCmd (cfg : Config) (p : ClockParams) (s : State) : Outcome :=
  match applyRefusal cfg p s with
  | some st => raise st s
  | none => applySequence cfg p s

/-- APPLY: A = div_ref, B = loopc, C = div_out (R170). -/
def execApply (a b c : Word) (s : State) : Outcome := applyCmd hw ⟨a, b, c⟩ s

/-! ### One bus transaction at a time -/

/-- Transaction SUB - `first` of the read-modify-writes `rs` of the transition out of `q`: even ones read, odd ones write;
after the last, or when there is none, the transition is over (R31, R172). -/
def rmwTick (cfg : Config) (rs : List Rmw) (first : Nat) (q : Fsm) (s : State) : Outcome :=
  let k := s.seq.sub.toNat - first
  match rs[k / 2]? with
  | none => .next (s.moveTo q.next)
  | some r =>
    if k % 2 = 0 then andThen (busRead cfg r.word s) fun t => .next t.nextSub
    else andThen (rmwWrite cfg r s) fun t => .next (if k + 1 = 2 * rs.length then t.moveTo q.next else t.nextSub)

/-- One bus transaction, or one transition without any, of an APPLY of `p` in flight (R31). -/
def applyTick (cfg : Config) (p : ClockParams) (s : State) : Outcome :=
  match s.seq.fsm with
  | .poweringUp => settle cfg s
  | .waitingLock =>
    if s.seq.sub = 0 then poll cfg s else rmwTick cfg (transitionRmws (s.layout cfg) p .waitingLock) 1 .waitingLock s
  | .unbypassed => .next (complete p s)
  | q => rmwTick cfg (transitionRmws (s.layout cfg) p q) 0 q s

/-- Acceptance of an APPLY (R33, R171): the checks, then step 1 as one piece, so that BUSY is 1 from here on (log 13). -/
def applyBegin (cfg : Config) (p : ClockParams) (s : State) : Outcome :=
  match applyRefusal cfg p s with
  | some st => raise st s
  | none => transition cfg p .idle (unsettle s)

end Sys2Proof.Machine
end

