-- ==== Sys2Proof/Machine/Readback.lean ====
section
/-! DEFINITION. READFREQ (spec 44_readback). -/

namespace Sys2Proof.Machine

/-- RegReads of the given words, in order (R211). -/
def readAll (cfg : Config) : List Nat → State → Outcome
  | [], s => .next s
  | i :: is, s => andThen (busRead cfg i s) (readAll cfg is)

/-- The response from the words read (R210, R213): only their parameter fields matter (R212). -/
def respondFreq (cfg : Config) (s : State) : State :=
  let p := decodeParams (s.layout cfg) s.seq.read
  if zeroDivider p then respond .errDivZero (some 0) none none none s
  else respond .ok (some (BitVec.ofNat 32 (freq s.handle.refKhz.toNat p))) none none none s

/-- READFREQ (R210) under a configuration: word 0 first, each word of the register once. -/
def readfreqCmd (cfg : Config) (s : State) : Outcome :=
  if !s.handle.valid then raise .errNotInit s
  else andThen (readAll cfg (List.range (s.layout cfg).nwords) (s.moveTo .read)) fun t => .next (respondFreq cfg t)

/-- READFREQ: all operands are ignored (R210). -/
def execReadfreq (_a _b _c : Word) (s : State) : Outcome := readfreqCmd hw s

/-! ### One bus transaction at a time -/

/-- Acceptance of a READFREQ (R33, R210). -/
def readBegin (s : State) : Outcome :=
  if !s.handle.valid then raise .errNotInit s else .next (s.moveTo .read)

/-- One RegRead of a READFREQ in flight, or its response after the last (R31, R211). -/
def readTick (cfg : Config) (s : State) : Outcome :=
  if s.seq.sub.toNat < (s.layout cfg).nwords then andThen (busRead cfg s.seq.sub.toNat s) fun t => .next t.nextSub
  else .next (respondFreq cfg s)

end Sys2Proof.Machine
end

