-- ==== Sys2Proof/Machine/Search.lean ====
section
/-! DEFINITION. LOOKUP (spec 40_table_lookup), CALCFREQ, SEARCH, COMPUTE (41_search). -/

namespace Sys2Proof.Machine

/-- The first entry with this clock (R120, R121): only `clock_khz` is compared. -/
def tableFind (table : List TableEntry) (khz : Word) : Option TableEntry := table.find? (fun e => e.clockKhz == khz)

/-- The response of a table hit (R94): the triple, and 0. -/
def respondHit (p : ClockParams) (s : State) : Outcome :=
  .next (respond .ok (some p.divRef) (some p.loopc) (some p.divOut) (some 0) s)

/-- LOOKUP (R120) under a configuration. -/
def lookupCmd (cfg : Config) (khz : Word) (s : State) : Outcome :=
  match tableFind cfg.table khz with
  | some e => respondHit e.params s
  | none => raise .noExactMatch s

/-- CALCFREQ (R131) under a configuration: Fits first, then the zero test, then the formula. -/
def calcfreqCmd (cfg : Config) (p : ClockParams) (s : State) : Outcome :=
  if !s.handle.valid then raise .errNotInit s
  else if !fits (s.layout cfg) p then raise .errInvalidParams s
  else if zeroDivider p then .next (respond .errDivZero (some 0) none none none s)
  else .next (respond .ok (some (BitVec.ofNat 32 (freq s.handle.refKhz.toNat p))) none none none s)

/-- `lo .. hi - 1`, ascending (R133). -/
def counted (lo hi : Nat) : List Nat := List.range' lo (hi - lo)

/-- The passes of the three nested loops in order: div_out outermost, then div_ref, then loopc (R133). DESIGN CHOICE (log 11):
where one of the three intervals is empty there is no pass at all, not even one that moves an outer counter. -/
def loopPasses (B : Bounds) : List ClockParams :=
  (counted B.doutLo B.doutHi).flatMap fun o =>
    (counted B.drefLo B.drefHi).flatMap fun d =>
      (counted B.loopcLo B.loopcHi).map fun l => ⟨BitVec.ofNat 32 d, BitVec.ofNat 32 l, BitVec.ofNat 32 o⟩

/-- The candidate sequence (R133): the passes with Ratio. -/
def candidates (B : Bounds) : List ClockParams := (loopPasses B).filter ratio

/-- `diff` of a candidate (R134). -/
def searchDiff (ref : Nat) (req : Word) (p : ClockParams) : Nat := absDiff req.toNat (freq ref p)

/-- The registers at the start of a search (R135, second and third line). R36 has the counters re-initialised too and names no
value; the first pass writes all three. DESIGN CHOICE (log 11): with no pass they keep what they held. -/
def SearchRegs.start (req : Word) (r : SearchRegs) : SearchRegs :=
  { r with req := req, found := false, bestDiff := 0xFFFFFFFF, best := ClockParams.zero }

/-- One pass of the innermost loop (R135, R136): the counters take the pass's values; a candidate is recorded when it is
the first or strictly better. -/
def SearchRegs.visit (ref : Nat) (r : SearchRegs) (p : ClockParams) : SearchRegs :=
  if ratio p && (!r.found || decide (searchDiff ref r.req p < r.bestDiff.toNat)) then
    { r with
      divOut := p.divOut, divRef := p.divRef, loopc := p.loopc
      found := true, bestDiff := BitVec.ofNat 32 (searchDiff ref r.req p), best := p }
  else { r with divOut := p.divOut, divRef := p.divRef, loopc := p.loopc }

/-- The recorded best is an exact match, on which the search stops (R137). -/
def SearchRegs.exact (r : SearchRegs) : Bool := r.found && r.bestDiff == 0

/-- The loops over the given passes, with the short-circuit (R135, R137). -/
def searchWalk (ref : Nat) : List ClockParams → SearchRegs → SearchRegs
  | [], r => r
  | p :: ps, r => if (r.visit ref p).exact then r.visit ref p else searchWalk ref ps (r.visit ref p)

/-- The tolerance verdict (R138). -/
def SearchRegs.verdict (r : SearchRegs) : Status :=
  if r.found && decide (r.bestDiff.toNat ≤ toleranceKhz) then .ok else .errToleranceExceeded

/-- The response of a finished search (R94, R135). -/
def respondSearch (r : SearchRegs) (s : State) : State :=
  respond r.verdict (some r.best.divRef) (some r.best.loopc) (some r.best.divOut) (some r.bestDiff)
    { s with search := r }

/-- The S_* registers a search for `req` ends with. -/
def searchResult (cfg : Config) (req : Word) (s : State) : SearchRegs :=
  searchWalk s.handle.refKhz.toNat (loopPasses (s.bounds cfg)) (s.search.start req)

/-- The body of SEARCH from its second line (R135). -/
def searchBody (cfg : Config) (req : Word) (s : State) : Outcome := .next (respondSearch (searchResult cfg req s) s)

/-- SEARCH (R135) under a configuration. -/
def searchCmd (cfg : Config) (req : Word) (s : State) : Outcome :=
  if !s.handle.valid then raise .errNotInit s else searchBody cfg req s

/-- COMPUTE (R141, R142) under a configuration: the first table match if it fits the variant, else the search. -/
def computeCmd (cfg : Config) (req : Word) (s : State) : Outcome :=
  if !s.handle.valid then raise .errNotInit s
  else
    match tableFind cfg.table req with
    | some e => if fits (s.layout cfg) e.params then respondHit e.params s else searchBody cfg req s
    | none => searchBody cfg req s

/-- LOOKUP: B and C are ignored (R120). -/
def execLookup (a _b _c : Word) (s : State) : Outcome := lookupCmd hw a s

/-- SEARCH: B and C are ignored (R135). -/
def execSearch (a _b _c : Word) (s : State) : Outcome := searchCmd hw a s

/-- COMPUTE: B and C are ignored (R141). -/
def execCompute (a _b _c : Word) (s : State) : Outcome := computeCmd hw a s

/-- CALCFREQ: A = div_ref, B = loopc, C = div_out (R131). -/
def execCalcfreq (a b c : Word) (s : State) : Outcome := calcfreqCmd hw ⟨a, b, c⟩ s

end Sys2Proof.Machine
end

