-- ==== Sys2Proof/Machine/Dispatch.lean ====
section
/-! DEFINITION. The dispatch: one arm per command. -/

namespace Sys2Proof.Machine

-- A command's whole effect on a state in which it has been accepted.
def exec (i : Instr) (s : State) : Host.Outcome State Fault Refusal :=
  match i with
  | .init a b c => Sys2Proof.Machine.execInit a b c s
  | .lookup a b c => Sys2Proof.Machine.execLookup a b c s
  | .search a b c => Sys2Proof.Machine.execSearch a b c s
  | .compute a b c => Sys2Proof.Machine.execCompute a b c s
  | .calcfreq a b c => Sys2Proof.Machine.execCalcfreq a b c s
  | .encode a b c => Sys2Proof.Machine.execEncode a b c s
  | .decode a b c => Sys2Proof.Machine.execDecode a b c s
  | .apply a b c => Sys2Proof.Machine.execApply a b c s
  | .readfreq a b c => Sys2Proof.Machine.execReadfreq a b c s
  | .teardown a b c => Sys2Proof.Machine.execTeardown a b c s

end Sys2Proof.Machine
end

