-- ==== Sys2Proof/Machine/Sequencing.lean ====
section
/-! DEFINITION. From the command port to a command's meaning (spec 10_state R33; 30_encoding R92), whole or one bus
transaction at a time (R31; log 1). The configuration and the commands' meanings are arguments (R10): Step.lean gives `hw` and `exec`. -/

namespace Sys2Proof.Machine

/-- The whole of a presented command word: decoded and run, or answered as illegal (R91, R92). -/
def runWord (run : Instr → State → Outcome) (w : CommandWord) (s : State) : Outcome :=
  match decode w with
  | .command i => run i s
  | .illegalOpcode _ => illegalCommand s

/-- The triple in A, B, C. -/
def CommandRegs.params (c : CommandRegs) : ClockParams := ⟨c.a, c.b, c.c⟩

/-- The command word the operand registers hold. -/
def CommandRegs.word (c : CommandRegs) : CommandWord := packCommand c.opcode c.a c.b c.c

/-- The first clock of an accepted command (R33): APPLY and READFREQ start their sequences, an illegal opcode is answered
at once (R92), every other command enters EXEC. -/
def begin (cfg : Config) (w : CommandWord) (s : State) : Outcome :=
  match decode w with
  | .command (.apply a b c) => applyBegin cfg ⟨a, b, c⟩ s
  | .command (.readfreq _ _ _) => readBegin s
  | .command _ => .next (s.moveTo .exec)
  | .illegalOpcode _ => illegalCommand s

/-- One more clock of the command in flight (R30, R31); in IDLE nothing happens (R47). -/
def advance (cfg : Config) (run : Instr → State → Outcome) (s : State) : Outcome :=
  match s.seq.fsm with
  | .idle => .next s
  | .exec => runWord run s.cmd.word s
  | .read => readTick cfg s
  | _ => applyTick cfg s.cmd.params s

/-- The command on the port in IDLE is accepted and run (R33). -/
def acceptAndRun (cfg : Config) (run : Instr → State → Outcome) (w : CommandWord) (s : State) : Outcome :=
  if s.env.fine then begin cfg w (accept w s) else runWord run w (accept w s)

/-- `rsp_valid` is 1 for the one step in which a command responds (R34). -/
def endPulse (s : State) : State := { s with rsp := { s.rsp with valid := false } }

/-- The host's inputs that remain. -/
def withHost (inputs : List HostInput) (s : State) : State := { s with env := { s.env with host := inputs } }

/-- One step with the host's next input: a reset is obeyed in every state (R45, R262); a command is accepted in IDLE and
held otherwise (R33, R274); else the command in flight goes on. -/
def stepInput (cfg : Config) (run : Instr → State → Outcome) (s : State) : Outcome :=
  match s.env.host with
  | .reset :: rest => .next (resetCore (withHost rest s))
  | .command w :: rest => if s.seq.fsm = .idle then acceptAndRun cfg run w (withHost rest s) else advance cfg run s
  | .quiet :: rest => advance cfg run (withHost rest s)
  | [] => advance cfg run s

/-- The state in which the host presents the command word `w` on an idle port, to be run whole. -/
def presentWord (w : CommandWord) (s : State) : State :=
  { s.moveTo .idle with env := { s.env with host := .command w :: s.env.host, fine := false } }

end Sys2Proof.Machine
end

