-- ==== Sys2Proof/Machine/Step.lean ====
section
/-! DEFINITION. The step, and how a table word is put where the next step takes its command. -/

namespace Sys2Proof.Machine

/-- One step: the response pulse of the step before ends (R34), then the host's next input is obeyed. -/
def step (s : State) : Host.Outcome State Fault Refusal := stepInput hw exec (endPulse s)

/-- `s` with the table word presented on the idle command port, run whole by the next step (log 2, log 16). -/
def State.withFetchWord (s : State) (nbits w : Nat) : State := presentWord (tableWord nbits w) s

end Sys2Proof.Machine
end

