-- ==== Sys2Proof/Machine/Output.lean ====
section
/-! DEFINITION. The output clock as an observation for claims (spec 20_memory R69; logs 19, 25); no command reads it. -/

namespace Sys2Proof.Machine

/-- What the PLL's output carries (R69), in kHz. -/
inductive OutputClock where
  | reference (khz : Word)
  | unspecified
  | pll (khz : Nat)
  deriving DecidableEq, Repr

/-- The layout of the PLL itself: that of the board's variant, not of the handle's tag (R264; log 25). -/
def State.boardLayout (cfg : Config) (s : State) : Layout := (cfg.variant s.env.board.variant).layout

/-- INIT was told the truth (R264): the handle's tag and reference are the board's. -/
abbrev State.BoardAsTold (s : State) : Prop :=
  s.handle.variant = s.env.board.variant ∧ s.handle.refKhz = s.env.board.refKhz

/-- The output is selected: `sel_out` = 1, or the layout has no such bit (R69). -/
def selected (L : Layout) (W : RegWords) : Bool :=
  match L.selOut with
  | some f => readField W f == 1
  | none => true

/-- The output clock of a target with layout `L` on an oscillator of `ref` kHz (R69): bypass wins; deselected, powered down or
never committed is unspecified, and so is an ACTIVE with a zero divider, for which Freq is not defined (R130; log 19). -/
def PllTarget.output (L : Layout) (ref : Word) (t : PllTarget) : OutputClock :=
  if readField t.words L.bypass = 1 then .reference ref
  else if !selected L t.words || readField t.words L.powerdown == 1 then .unspecified
  else
    match t.active with
    | none => .unspecified
    | some p => if zeroDivider p then .unspecified else .pll (freq ref.toNat p)

/-- The output clock of the port's PLL. Layout and REF_KHZ are the board's, so what CORE forgets or is told (a reset, an INIT, a
TEARDOWN) does not change it (R261; log 25). -/
def outputClock (cfg : Config) (s : State) : OutputClock := s.pll.output (s.boardLayout cfg) s.env.board.refKhz

/-- The output comes from the PLL and was reached through a complete APPLY whose lock wait saw the lock (R69: "trusted"). -/
def trusted (cfg : Config) (s : State) : Bool :=
  match outputClock cfg s with
  | .pll _ => s.settled
  | _ => false

end Sys2Proof.Machine
end

