-- ==== Sys2Proof/Machine/Configured.lean ====
section
/-! DEFINITION. The machine under any configuration (spec 00_scope R9, R10): the same meanings and the same step as
Dispatch.lean and Step.lean run under the reference one (Laws/Configured.lean says so). -/

namespace Sys2Proof.Machine

/-- A command's whole effect under a configuration. -/
def execIn (cfg : Config) (i : Instr) (s : State) : Outcome :=
  match i with
  | .init a b c => initCmd cfg a b c s
  | .lookup a _ _ => lookupCmd cfg a s
  | .search a _ _ => searchCmd cfg a s
  | .compute a _ _ => computeCmd cfg a s
  | .calcfreq a b c => calcfreqCmd cfg ⟨a, b, c⟩ s
  | .encode a b c => encodeCmd cfg ⟨a, b, c⟩ s
  | .decode a b _ => decodeCmd cfg ⟨a, b⟩ s
  | .apply a b c => applyCmd cfg ⟨a, b, c⟩ s
  | .readfreq _ _ _ => readfreqCmd cfg s
  | .teardown _ _ _ => teardownCmd s

/-- One step under a configuration. -/
def stepIn (cfg : Config) (s : State) : Outcome := stepInput cfg (execIn cfg) (endPulse s)

end Sys2Proof.Machine
end

