-- ==== Sys2Proof/Machine/Pseudo.lean ====
section
/-! DEFINITION. The pseudo-commands the host expands (spec 30_encoding R114). CORE does not know them. The machine's step is
an argument, so that they stand for every configuration (00_scope R10). -/

namespace Sys2Proof.Machine

/-- The host presents one command on the idle port of a machine with the step `st` and lets it run. -/
def issueBy (st : State → Outcome) (i : Instr) (s : State) : Outcome := st (presentWord (encode i) s)

/-- `SETFREQ khz` (R114): COMPUTE; then, only if STATUS = OK, APPLY of the three results. -/
def setfreqBy (st : State → Outcome) (khz : Word) (s : State) : Outcome :=
  andThen (issueBy st (.compute khz 0 0) s) fun t =>
    if t.rsp.status = .ok then issueBy st (.apply t.rsp.res0 t.rsp.res1 t.rsp.res2) t else .next t

/-- `GETFREQ` (R114): another name of READFREQ. -/
def getfreqBy (st : State → Outcome) (s : State) : Outcome := issueBy st (.readfreq 0 0 0) s

/-- One command on the reference machine. -/
def issue (i : Instr) (s : State) : Outcome := issueBy step i s

/-- SETFREQ on the reference machine. -/
def setfreq (khz : Word) (s : State) : Outcome := setfreqBy step khz s

/-- GETFREQ on the reference machine. -/
def getfreq (s : State) : Outcome := getfreqBy step s

/-- SETFREQ under a configuration. -/
def setfreqIn (cfg : Config) (khz : Word) (s : State) : Outcome := setfreqBy (stepIn cfg) khz s

/-- GETFREQ under a configuration. -/
def getfreqIn (cfg : Config) (s : State) : Outcome := getfreqBy (stepIn cfg) s

end Sys2Proof.Machine
end

