-- ==== Sys2Proof/Machine/System.lean ====
section
/-! DEFINITION. NUM_PLL copies of CORE side by side (spec 00_scope R9; 10_state R20; 60_exceptions R248): each with its own
ports and PLL target, sharing only the constant configuration. -/

namespace Sys2Proof.Machine

/-- The copies, by port. -/
structure System where
  cores : List State
  deriving DecidableEq, Repr

/-- The NUM_PLL copies of a configuration right after power-on and reset: all in IDLE (R9, R248). -/
def System.resetOf (cfg : Config) : System := ⟨(List.range cfg.numPll).map (State.resetOf cfg)⟩

/-- The copies of the reference configuration (NUM_PLL = 2, D1). -/
def System.reset : System := System.resetOf hw

/-- One step, by `st`, of the copy on port `k`; the others do not move. A port with no copy has nothing to step. -/
def System.stepBy (st : State → Outcome) (k : Nat) (y : System) : Host.Outcome System Fault Refusal :=
  match y.cores[k]? with
  | none => .next y
  | some s =>
    match st s with
    | .next t => .next ⟨y.cores.set k t⟩
    | .fault r => .fault r
    | .refused r => .refused r

/-- One step of the copy on port `k` of the reference machine. A reset input (R260) reaches this copy alone: whether one copy
can be reset without the others is not in the spec, and the model admits it (log 26). -/
def System.stepAt (k : Nat) (y : System) : Host.Outcome System Fault Refusal := System.stepBy step k y

/-- One step of the copy on port `k` under a configuration. -/
def System.stepAtIn (cfg : Config) (k : Nat) (y : System) : Host.Outcome System Fault Refusal :=
  System.stepBy (stepIn cfg) k y

/-- The reset of R248 while the copies run: all leave reset together, in IDLE (log 26). -/
def System.resetTogether (y : System) : System := ⟨y.cores.map resetCore⟩

/-- The byte addresses of a copy's window (R60). -/
def State.windowBytes (cfg : Config) (s : State) : List Nat :=
  (List.range (4 * (s.layout cfg).nwords)).map (s.handle.base.toNat + ·)

/-- The platform's duty (R76, R264): the windows of two copies with valid handles do not overlap. -/
def windowsDisjoint (cfg : Config) (s t : State) : Bool :=
  !s.handle.valid || !t.handle.valid || (s.windowBytes cfg).all (fun x => !(t.windowBytes cfg).contains x)

end Sys2Proof.Machine
end

