-- ==== Sys2Proof/Safety.lean ====
section
/-! DEFINITION. The terms in which claims are stated: the premises the spec names (60_exceptions R242; 20_memory R76;
70_reset_and_hazards R273), reserved bits (30_encoding R109), and the invariants of the machine. -/

namespace Sys2Proof

/-- Bit `k` of word `i` belongs to field `f`. -/
abbrev Field.Holds (f : Field) (i k : Nat) : Prop := f.word = i ∧ f.off ≤ k ∧ k < f.off + f.width

/-- Bit `k` of word `i` belongs to no present field: a reserved bit (R109). -/
abbrev Layout.Reserved (L : Layout) (i k : Nat) : Prop := ∀ f ∈ L.fields, ¬ Field.Holds f i k

/-- Bit `k` of word `i` belongs to a parameter field. -/
abbrev Layout.ParamBit (L : Layout) (i k : Nat) : Prop := ∃ f ∈ L.paramFields, Field.Holds f i k

end Sys2Proof

namespace Sys2Proof.Machine

/-- The provisos of R273 that concern the bus and the time base: every transaction is acknowledged, `tick_us` pulses. -/
abbrev State.Live (s : State) : Prop := s.env.busLimit = none ∧ s.env.tickRuns = true

/-- The window lies inside the address space (R76). -/
abbrev State.WindowInside (cfg : Config) (s : State) : Prop :=
  s.handle.base.toNat + 4 * ((s.layout cfg).nwords - 1) < 2 ^ 32

/-- The bus events among port events. -/
def PortEvent.isBus : PortEvent → Bool
  | .read _ _ _ | .write _ _ _ => true
  | _ => false

/-- The register writes among port events. -/
def PortEvent.isWrite : PortEvent → Bool
  | .write _ _ _ => true
  | _ => false

/-- The delays among port events. -/
def PortEvent.isDelay : PortEvent → Bool
  | .delay _ => true
  | _ => false

/-- How many lock draws an APPLY uses before its first poll: one for every read of the word that holds `locked`. -/
def lockReadsBeforePolls (L : Layout) (p : ClockParams) : Nat :=
  ((firstSteps.flatMap (transitionRmws L p)).filter (fun r => r.word == L.locked.word)).length

/-- A status that reports an error, WARN_LOCK_TIMEOUT and the outcomes of the work apart (R237, R238). -/
def Status.isCheckFailure : Status → Bool
  | .errMapFailed | .errIllegalCmd | .errNotInit | .errBadArg | .errInvalidParams | .errDivZero | .errBadState => true
  | .ok | .noExactMatch | .errToleranceExceeded | .warnLockTimeout => false

/-! ### The invariant of the registers -/

/-- FSM is one of the nine states of an APPLY in flight (R30). -/
def Fsm.inApply : Fsm → Bool
  | .idle | .exec | .read => false
  | _ => true

/-- H_BASE is a multiple of 4, H_REF_KHZ at most REF_KHZ_MAX, and at least 1 when the handle is valid (R22, R24, R75). -/
abbrev HandleOk (s : State) : Prop :=
  s.handle.base.toNat % 4 = 0 ∧ s.handle.refKhz.toNat ≤ refKhzMax ∧
    (s.handle.valid = true → 1 ≤ s.handle.refKhz.toNat)

/-- A triple that APPLY would program under the handle's variant (R171). -/
abbrev Programmable (s : State) (p : ClockParams) : Prop := fits (s.layout hw) p = true ∧ zeroDivider p = false

/-- A valid cache belongs to a valid handle and holds a triple that was programmable (R25, R190). -/
abbrev CacheOk (s : State) : Prop :=
  s.cache.valid = true → s.handle.valid = true ∧ Programmable s s.cache.params

/-- An APPLY or READFREQ in flight has a valid handle, and an APPLY in flight a programmable triple in A, B, C (R171, R210);
SUB is 0 in IDLE (R31). -/
abbrev InFlightOk (s : State) : Prop :=
  (s.seq.fsm.inApply = true → s.handle.valid = true ∧ Programmable s s.cmd.params) ∧
    (s.seq.fsm = .read → s.handle.valid = true) ∧ (s.seq.fsm = .idle → s.seq.sub = 0)

/-- The wait still polls: transaction 0 of the transition out of WAITING_LOCK is to come. -/
abbrev Polling (s : State) : Prop := s.seq.fsm = .waitingLock ∧ s.seq.sub = 0

/-- LOCK_ITERS never exceeds LOCK_POLL_MAX, stays below it while polling, and LOCK_TIMEOUT means that all polls were made
(R32, R35, R183). -/
abbrev PollOk (s : State) : Prop :=
  s.seq.lockIters.toNat ≤ lockPollMax ∧ (Polling s → s.seq.lockIters.toNat < lockPollMax) ∧
    (¬ Polling s → s.seq.lockTimeout = true → s.seq.lockIters.toNat = lockPollMax)

/-- A recorded best candidate satisfies Ratio (R132, R140). -/
abbrev SearchOk (s : State) : Prop := s.search.found = true → ratio s.search.best = true

/-- The invariant of CORE's registers. -/
abbrev Inv (s : State) : Prop := HandleOk s ∧ CacheOk s ∧ InFlightOk s ∧ PollOk s ∧ SearchOk s

/-! ### The invariant of the protocol (R269): what the register holds at each point of an APPLY -/

/-- The read-modify-write whose read has been made and whose write comes next, in a transition of an APPLY. -/
def pendingWrite (cfg : Config) (s : State) : Option Rmw :=
  let k := if s.seq.fsm = .waitingLock then s.seq.sub.toNat - 1 else s.seq.sub.toNat
  if k % 2 = 1 then (transitionRmws (s.layout cfg) s.cmd.params s.seq.fsm)[k / 2]? else none

/-- What was read for the coming write is what the register still holds, `locked` apart. -/
abbrev LatchFresh (s : State) : Prop :=
  ∀ r ∈ pendingWrite hw s,
    storedValue (s.layout hw) r.word (s.seq.read.get r.word) = storedValue (s.layout hw) r.word (s.pll.words.get r.word)

/-- The status bits the register holds. -/
def State.bits (s : State) : StatusBits := decodeStatus (s.layout hw) s.pll.words

/-- From step 1 until step 9 the output is bypassed (R269). -/
abbrev BypassHeld (s : State) : Prop :=
  s.seq.fsm.inApply = true → s.seq.fsm ≠ .unbypassed → s.bits.bypass = 1

/-- Parameters are staged and committed only while the PLL is powered down (R269). -/
abbrev PoweredDownHeld (s : State) : Prop :=
  s.seq.fsm ∈ [Fsm.poweredDown, .paramStaged, .paramCommitted] → s.bits.powerdown = 1

/-- The output stays deselected until the lock wait is over (R269). -/
abbrev DeselectedHeld (s : State) : Prop :=
  s.seq.fsm ∈ [Fsm.off, .poweredDown, .paramStaged, .paramCommitted, .poweringUp, .waitingLock] → s.bits.selOut = 0

/-- Once staged, the parameters stay in the register (R178, R192). -/
abbrev StagedHeld (s : State) : Prop :=
  s.seq.fsm ∈ [Fsm.paramStaged, .paramCommitted, .poweringUp, .waitingLock, .on, .unbypassed] →
    decodeParams (s.layout hw) s.pll.words = s.cmd.params

/-- The commit bit is back at 0 after step 5 (R179). -/
abbrev CommitCleared (s : State) : Prop :=
  s.seq.fsm ∈ [Fsm.paramCommitted, .poweringUp, .waitingLock, .on, .unbypassed] → s.bits.setParam = 0

/-- While the words are being staged, those written so far hold their part of the triple (R178). -/
abbrev PartlyStaged (s : State) : Prop :=
  s.seq.fsm = .poweredDown →
    ∀ r ∈ (stageRmws (s.layout hw) s.cmd.params).take (s.seq.sub.toNat / 2), ∀ e ∈ r.edits,
      readField s.pll.words e.1 = e.2

/-- SUB is the index of a transaction of the transition in flight, or 0 where the transition makes none (R31); in WAITING_LOCK
the poll that ends the wait is transaction 0 (log 13), and a READFREQ makes one read a word. -/
abbrev SubInRange (s : State) : Prop :=
  (s.seq.fsm.inApply = true →
    s.seq.sub.toNat ≤ (if s.seq.fsm = .waitingLock then 1 else 0) +
      (2 * (transitionRmws (s.layout hw) s.cmd.params s.seq.fsm).length - 1)) ∧
    (s.seq.fsm = .read → s.seq.sub.toNat ≤ (s.layout hw).nwords)

/-- The invariant of the protocol. -/
abbrev ProtocolInv (s : State) : Prop :=
  Inv s ∧ SubInRange s ∧ LatchFresh s ∧ PartlyStaged s ∧ BypassHeld s ∧ PoweredDownHeld s ∧ DeselectedHeld s ∧ StagedHeld s ∧ CommitCleared s

/-! ### Grants and releases (R226) -/

/-- The grants and releases among port events, newest first: true for a grant. -/
def mapEvents (trace : List PortEvent) : List Bool :=
  trace.filterMap fun e => match e with
    | .mapGrant => some true
    | .mapRelease => some false
    | _ => none

/-- Grants and releases alternate, the oldest (the last of the list) a grant. -/
def alternates : List Bool → Bool
  | [] => true
  | [b] => b
  | b :: c :: rest => (b != c) && alternates (c :: rest)

/-- A handle is valid exactly when the newest of the grants and releases is a grant, and they alternate (R226). -/
abbrev MapInv (s : State) : Prop :=
  alternates (mapEvents s.trace) = true ∧ ((mapEvents s.trace).head? = some true ↔ s.handle.valid = true)

end Sys2Proof.Machine
end

