-- ==== Sys2Proof/Certificates/Slice0/Obligations.lean ====
section
/-! DEFINITION. The statements for the provers, by file of the spec. -/

open Sys2Proof Sys2Proof.Machine

/-! ### 30_encoding: command words -/

/-- R90, R91: the decoder reads back every command, with every operand at every value, from the word the encoder writes. -/
def Obligations.DecodeReadsBackEveryCommand : Prop :=
  ∀ i : Instr, decode (encode i) = .command i

/-- R90, R91: a word that decodes to a command is that command's only word, so no bit of a command word is dropped. -/
def Obligations.EveryCommandHasOneWord : Prop :=
  ∀ (w : CommandWord) (i : Instr), decode w = .command i → encode i = w

/-- 95_test_vectors P1 to P3: command words written out as `{op, A, B, C}` decode to the commands they stand for. -/
def Obligations.WrittenCommandWordsDecode : Prop :=
  decode 0x11FE0049000000000000186A0 = .command (.init 0x1FE00490 0 100000) ∧
    decode 0x2000062570000000000000000 = .command (.lookup 25175 0 0) ∧
    decode 0x4000244140000000000000000 = .command (.compute 148500 0 0) ∧
    decode 0x800000003000000310000000B = .command (.apply 3 49 11) ∧
    decode 0xA000000000000000000000000 = .command (.teardown 0 0 0)

/-! ### 10_state: acceptance, reset, one step -/

/-- R33: in IDLE a presented command is accepted and run: the step latches OPCODE, A, B, C, ends the response pulse, takes
the command off the port, and is otherwise exactly `exec` of the command. -/
def Obligations.StepRunsThePresentedCommand : Prop :=
  ∀ (i : Instr) (rest : List HostInput) (s : State),
    s.seq.fsm = .idle → s.env.host = .command (encode i) :: rest → s.env.fine = false →
    step s =
      exec i
        { s with
          cmd := ⟨i.opcode, i.a, i.b, i.c⟩
          rsp := { s.rsp with valid := false }
          env := { s.env with host := rest } }

/-- R92: an illegal opcode is accepted and answered ERR_ILLEGAL_CMD with no other effect, at either granularity. -/
def Obligations.IllegalCommandIsAnsweredAtOnce : Prop :=
  ∀ (w : CommandWord) (rest : List HostInput) (s : State),
    s.seq.fsm = .idle → s.env.host = .command w :: rest → (opField w = 0 ∨ 11 ≤ opField w) →
    step s =
      .next
        { s with
          cmd := ⟨opField w, aField w, bField w, cField w⟩
          rsp := { s.rsp with status := .errIllegalCmd, valid := true }
          seq := { s.seq with fsm := .idle, sub := 0 }
          env := { s.env with host := rest } }

/-- R33: while a command is in flight a presented command is neither accepted nor dropped, and the latched one stays. -/
def Obligations.BusyPortHoldsTheCommand : Prop :=
  ∀ (w : CommandWord) (rest : List HostInput) (s t : State),
    s.seq.fsm ≠ .idle → s.env.host = .command w :: rest → step s = .next t →
    t.env.host = .command w :: rest ∧ t.cmd = s.cmd

/-- R45, R260, R261, R262 (that `rsp_valid`, the bit of R34 which R45 does not list, is 0 then is the model's, log 20): a
reset, in whatever state it arrives, puts every register of CORE at its reset value and leaves the PLL target as it is. -/
def Obligations.ResetInAnyStateClearsCoreOnly : Prop :=
  ∀ (rest : List HostInput) (s : State),
    s.env.host = .reset :: rest →
    ∃ t, step s = .next t ∧
      t.handle = ⟨false, 0, 0, 0⟩ ∧ t.cache = ⟨false, ⟨0, 0, 0⟩⟩ ∧ t.cmd = ⟨0, 0, 0, 0⟩ ∧
      t.rsp = ⟨.ok, 0, 0, 0, 0, false⟩ ∧
      t.seq.fsm = .idle ∧ t.seq.sub = 0 ∧ t.seq.lockIters = 0 ∧ t.seq.lockTimeout = false ∧
      t.search = ⟨0, 0, 0, 0, 0, ⟨0, 0, 0⟩, false⟩ ∧
      t.pll = s.pll ∧ t.trace = s.trace ∧ t.env = { s.env with host := rest }

/-- R45: the state after reset. -/
def Obligations.ResetStateHoldsTheListedValues : Prop :=
  State.reset.handle = ⟨false, 0, 0, 0⟩ ∧ State.reset.cache = ⟨false, ⟨0, 0, 0⟩⟩ ∧ State.reset.cmd = ⟨0, 0, 0, 0⟩ ∧
    State.reset.rsp.status.code = 0 ∧ State.reset.rsp.res0 = 0 ∧ State.reset.rsp.res1 = 0 ∧
    State.reset.rsp.res2 = 0 ∧ State.reset.rsp.res3 = 0 ∧
    State.reset.seq.fsm.code = 0 ∧ State.reset.seq.sub = 0 ∧ State.reset.seq.lockIters = 0 ∧
    State.reset.seq.lockTimeout = false ∧ State.reset.search = ⟨0, 0, 0, 0, 0, ⟨0, 0, 0⟩, false⟩

/-- R47: with no command in flight and none presented nothing changes (the response pulse of the step before ends, log 20). -/
def Obligations.IdleCoreStaysAsItIs : Prop :=
  ∀ s : State, s.seq.fsm = .idle → s.env.host = [] → step s = .next { s with rsp := { s.rsp with valid := false } }

/-- R31, R146 (the two granularities are the model's, log 1): run one bus transaction a step, every command reaches the very
state that its whole-command step gives. -/
def Obligations.FineStepsReachTheWholeCommandState : Prop :=
  ∀ (i : Instr) (s t : State),
    s.seq.fsm = .idle → s.env.host = [.command (encode i)] → s.env.fine = false → step s = .next t →
    ∃ k, Host.Core.run Sys2Proof.core k { s with env := { s.env with fine := true } } =
      .next { t with env := { t.env with fine := true } }

/-! ### 20_memory: the window and the PLL target -/

/-- R66, R68: a completed RegRead returns the stored word, but for the `locked` bit, which is the lock draw; it changes no
state of the target. -/
def Obligations.RegReadReturnsTheStoredWordAndTheDraw : Prop :=
  ∀ (cfg : Config) (i : Nat) (s t : State), cfg.WF → i < (s.layout cfg).nwords → busRead cfg i s = .next t →
    t.pll = s.pll ∧
      (∀ k, ¬ Field.Holds (s.layout cfg).locked i k →
        (t.seq.read.get i).getLsbD k = (s.pll.words.get i).getLsbD k) ∧
      ((s.layout cfg).locked.word = i →
        (t.seq.read.get i).getLsbD (s.layout cfg).locked.off = s.env.lockAt s.env.lockPos) ∧
      t.trace = .read i (s.handle.base + BitVec.ofNat 32 (4 * i)) (t.seq.read.get i) :: s.trace

/-- R65: a completed RegWrite stores every bit as written but `locked`, which stays 0, and no other word. -/
def Obligations.RegWriteStoresAllButLocked : Prop :=
  ∀ (cfg : Config) (i j : Nat) (v : Word) (s t : State), cfg.WF →
    i < (s.layout cfg).nwords → j < (s.layout cfg).nwords → busWrite cfg i v s = .next t →
    (∀ k, ¬ Field.Holds (s.layout cfg).locked i k → (t.pll.words.get i).getLsbD k = v.getLsbD k) ∧
      ((s.layout cfg).locked.word = i → (t.pll.words.get i).getLsbD (s.layout cfg).locked.off = false) ∧
      (j ≠ i → t.pll.words.get j = s.pll.words.get j) ∧
      t.trace = .write i (s.handle.base + BitVec.ofNat 32 (4 * i)) v :: s.trace

/-- R67, R68: ACTIVE takes the parameter fields exactly at the 0-to-1 edge of `set_param` where the layout has it, else
exactly at the 1-to-0 edge of `powerdown`; no other write changes it, and writing the value a word already holds changes
nothing. -/
def Obligations.ActiveChangesOnlyAtTheCommitEvent : Prop :=
  ∀ (cfg : Config) (i : Nat) (v : Word) (s t : State), cfg.WF →
    i < (s.layout cfg).nwords → busWrite cfg i v s = .next t →
    let L := s.layout cfg
    let bit := fun (W : RegWords) (f : Field) => (W.get f.word).getLsbD f.off
    let event := match L.setParam with
      | some f => bit s.pll.words f = false ∧ bit t.pll.words f = true
      | none => bit s.pll.words L.powerdown = true ∧ bit t.pll.words L.powerdown = false
    (event → t.pll.active = some (decodeParams L t.pll.words)) ∧ (¬ event → t.pll.active = s.pll.active) ∧
      (v = s.pll.words.get i → (L.locked.word = i → v.getLsbD L.locked.off = false) → t.pll = s.pll)

/-- R76, R242 (the names of the stops are the model's, logs 5 and 6): a transaction past the top of the address space is
refused by name, one that the bus never acknowledges stops by name, and every other completes and is counted. -/
def Obligations.BusTransactionsCompleteOrStopByName : Prop :=
  ∀ (cfg : Config) (i : Nat) (v : Word) (s : State),
    (2 ^ 32 ≤ s.handle.base.toNat + 4 * i →
      busRead cfg i s = .refused .windowPastTop ∧ busWrite cfg i v s = .refused .windowPastTop) ∧
    (s.handle.base.toNat + 4 * i < 2 ^ 32 →
      (∀ n, s.env.busLimit = some n → n ≤ s.env.busCount →
        busRead cfg i s = .fault .busNeverAcknowledges ∧ busWrite cfg i v s = .fault .busNeverAcknowledges) ∧
      ((∀ n, s.env.busLimit = some n → s.env.busCount < n) →
        ∃ r w, busRead cfg i s = .next r ∧ busWrite cfg i v s = .next w ∧
          r.env.busCount = s.env.busCount + 1 ∧ w.env.busCount = s.env.busCount + 1))

/-- R69 (computed by the model, log 19, from the board's layout and reference, log 25): bypassed, the output is the
reference; else deselected, powered down or never committed, it is unspecified; else it is the PLL's at Freq(ref, ACTIVE).
After an APPLY under the board's tag and reference, from a register whose `set_param` was 0 or absent, it is the PLL's at
Freq(ref, triple), trusted if the lock was seen and not trusted if it was not. No other command and no reset changes the
output or its trust. -/
def Obligations.OutputAfterALockedApplyIsTrusted : Prop :=
  (∀ (cfg : Config) (s : State),
    let L := s.boardLayout cfg
    let W := s.pll.words
    (readField W L.bypass = 1 → outputClock cfg s = .reference s.env.board.refKhz) ∧
    (readField W L.bypass ≠ 1 →
      ((∃ f, L.selOut = some f ∧ readField W f = 0) ∨ readField W L.powerdown = 1 ∨ s.pll.active = none) →
      outputClock cfg s = .unspecified) ∧
    (readField W L.bypass ≠ 1 → (∀ f, L.selOut = some f → readField W f = 1) → readField W L.powerdown ≠ 1 →
      ∀ p : ClockParams, s.pll.active = some p → p.divRef ≠ 0 → p.divOut ≠ 0 →
      outputClock cfg s = .pll (s.env.board.refKhz.toNat / p.divRef.toNat * p.loopc.toNat / p.divOut.toNat))) ∧
  (∀ (a b c : Word) (s t : State),
    (decodeStatus (s.layout hw) s.pll.words).setParam = 0 → Programmable s ⟨a, b, c⟩ → s.BoardAsTold →
    s.handle.valid = true → exec (.apply a b c) s = .next t →
    outputClock hw t = .pll (s.handle.refKhz.toNat / a.toNat * b.toNat / c.toNat) ∧
      (t.rsp.status = .ok → trusted hw t = true) ∧ (t.rsp.status = .warnLockTimeout → trusted hw t = false)) ∧
  (∀ (i : Instr) (s t : State), (∀ a b c, i ≠ .apply a b c) → exec i s = .next t →
    outputClock hw t = outputClock hw s ∧ trusted hw t = trusted hw s) ∧
  (∀ (rest : List HostInput) (s : State), s.env.host = .reset :: rest →
    ∃ t, step s = .next t ∧ outputClock hw t = outputClock hw s ∧ trusted hw t = trusted hw s)

/-! ### 40_table_lookup and 41_search -/

/-- R120 to R123: on every table LOOKUP answers the first entry of the clock, each component by name, whatever the handle;
with no such entry it answers NO_EXACT_MATCH and keeps the result registers. -/
def Obligations.LookupAnswersTheFirstMatch : Prop :=
  (∀ (cfg : Config) (khz : Word) (before after : List TableEntry) (e : TableEntry) (s : State),
    cfg.table = before ++ e :: after → e.clockKhz = khz → (∀ x ∈ before, x.clockKhz ≠ khz) →
    lookupCmd cfg khz s =
      .next
        { s with
          rsp := ⟨.ok, e.divRef, e.loopc, e.divOut, 0, true⟩
          seq := { s.seq with fsm := .idle, sub := 0 } }) ∧
  (∀ (cfg : Config) (khz : Word) (s : State), (∀ x ∈ cfg.table, x.clockKhz ≠ khz) →
    lookupCmd cfg khz s =
      .next
        { s with
          rsp := { s.rsp with status := .noExactMatch, valid := true }
          seq := { s.seq with fsm := .idle, sub := 0 } })

/-- R72, R120: LOOKUP on the reference table, which needs no handle. -/
def Obligations.LookupOfTheReferenceTable : Prop :=
  ∀ (a b c : Word) (s : State),
    exec (.lookup 148500 b c) s =
      .next { s with rsp := ⟨.ok, 3, 49, 11, 0, true⟩, seq := { s.seq with fsm := .idle, sub := 0 } } ∧
    exec (.lookup 25175 b c) s =
      .next { s with rsp := ⟨.ok, 5, 107, 85, 0, true⟩, seq := { s.seq with fsm := .idle, sub := 0 } } ∧
    (a ≠ 148500 → a ≠ 25175 →
      exec (.lookup a b c) s =
        .next
          { s with
            rsp := { s.rsp with status := .noExactMatch, valid := true }
            seq := { s.seq with fsm := .idle, sub := 0 } })

/-- R130, R131, R237: CALCFREQ tests Fits first (ERR_INVALID_PARAMS), then the dividers (ERR_DIV_ZERO with RES0 = 0), and
otherwise answers the divide-first formula without wrap-around; nothing else changes. -/
def Obligations.CalcfreqAnswersTheFormula : Prop :=
  ∀ (a b c : Word) (s : State), s.handle.valid = true → s.handle.refKhz.toNat ≤ 4194303 →
    let done := fun (st : Status) (r : Word) => (Host.Outcome.next
      { s with
        rsp := { s.rsp with status := st, res0 := r, valid := true }
        seq := { s.seq with fsm := .idle, sub := 0 } } : Outcome)
    (fits (s.layout hw) ⟨a, b, c⟩ = false → exec (.calcfreq a b c) s = done .errInvalidParams s.rsp.res0) ∧
    (fits (s.layout hw) ⟨a, b, c⟩ = true → a = 0 ∨ c = 0 → exec (.calcfreq a b c) s = done .errDivZero 0) ∧
    (fits (s.layout hw) ⟨a, b, c⟩ = true → a ≠ 0 → c ≠ 0 →
      ∃ r : Word, r.toNat = s.handle.refKhz.toNat / a.toNat * b.toNat / c.toNat ∧
        exec (.calcfreq a b c) s = done .ok r)

/-- R143: Freq is non-decreasing in loopc, non-increasing in div_out and in div_ref, and doubling loopc at least doubles it. -/
def Obligations.FreqIsMonotone : Prop :=
  ∀ (ref : Nat) (p q : ClockParams), 0 < p.divRef.toNat → 0 < p.divOut.toNat →
    p.divRef.toNat ≤ q.divRef.toNat → q.loopc.toNat ≤ p.loopc.toNat → p.divOut.toNat ≤ q.divOut.toNat →
    freq ref q ≤ freq ref p ∧
      (p.divRef = q.divRef → p.divOut = q.divOut → p.loopc.toNat = 2 * q.loopc.toNat → 2 * freq ref q ≤ freq ref p)

/-- R133: the candidates are exactly the triples inside the bounds with Ratio, and they come in the order div_out, then
div_ref, then loopc, each ascending. -/
def Obligations.CandidatesAreOrderedAndComplete : Prop :=
  ∀ B : Bounds, B.doutHi ≤ 2 ^ 32 → B.drefHi ≤ 2 ^ 32 → B.loopcHi ≤ 2 ^ 32 →
    (∀ p : ClockParams, p ∈ candidates B ↔
      (B.doutLo ≤ p.divOut.toNat ∧ p.divOut.toNat < B.doutHi) ∧
      (B.drefLo ≤ p.divRef.toNat ∧ p.divRef.toNat < B.drefHi) ∧
      (B.loopcLo ≤ p.loopc.toNat ∧ p.loopc.toNat < B.loopcHi) ∧
      12 * p.divRef.toNat ≤ p.loopc.toNat ∧ p.loopc.toNat ≤ 32 * p.divRef.toNat) ∧
    (candidates B).Pairwise fun p q =>
      p.divOut < q.divOut ∨ (p.divOut = q.divOut ∧
        (p.divRef < q.divRef ∨ (p.divRef = q.divRef ∧ p.loopc < q.loopc)))

/-- R36, R134 to R138: SEARCH ends with the first of the candidates of least difference, and that difference; OK exactly when
it is at most 1000. It writes nothing but the S_* registers, STATUS and RES0 to RES3. -/
def Obligations.SearchAnswersTheFirstBestCandidate : Prop :=
  ∀ (a b c : Word) (s : State), s.handle.valid = true → s.handle.refKhz.toNat ≤ 4194303 →
    let diff := fun p : ClockParams =>
      absDiff a.toNat (s.handle.refKhz.toNat / p.divRef.toNat * p.loopc.toNat / p.divOut.toNat)
    ∃ (t : State) (before after : List ClockParams) (p : ClockParams),
      exec (.search a b c) s = .next t ∧
      candidates (s.bounds hw) = before ++ p :: after ∧
      (∀ q ∈ before, diff p < diff q) ∧ (∀ q ∈ after, diff p ≤ diff q) ∧
      t.rsp.res0 = p.divRef ∧ t.rsp.res1 = p.loopc ∧ t.rsp.res2 = p.divOut ∧ t.rsp.res3.toNat = diff p ∧
      t.rsp.status = (if diff p ≤ 1000 then .ok else .errToleranceExceeded) ∧
      t.search.req = a ∧ t.search.found = true ∧ t.search.best = p ∧ t.search.bestDiff = t.rsp.res3 ∧
      t = { s with search := t.search, rsp := { t.rsp with valid := true }, seq := { s.seq with fsm := .idle, sub := 0 } }

/-- R139: with no candidate at all, which no reference variant shows, the search fails with zeros and 0xFFFFFFFF, and S_HAVE
stays 0. -/
def Obligations.SearchWithNoCandidateFails : Prop :=
  (∀ v : BitVec 2, candidates (hw.variant v).bounds ≠ []) ∧
  ∀ (cfg : Config) (req : Word) (s : State), s.handle.valid = true → candidates (s.bounds cfg) = [] →
    ∃ t, searchCmd cfg req s = .next t ∧ t.rsp = ⟨.errToleranceExceeded, 0, 0, 0, 0xFFFFFFFF, true⟩ ∧
      t.search.found = false ∧ t.seq.fsm = .idle ∧ t.pll = s.pll ∧ t.handle = s.handle

/-- R140: what SEARCH answers lies within the bounds, satisfies Ratio and fits the variant, and no divider is 0, whatever the
status. -/
def Obligations.SearchResultsAreUsable : Prop :=
  ∀ (a b c : Word) (s t : State), s.handle.valid = true → exec (.search a b c) s = .next t →
    let p : ClockParams := ⟨t.rsp.res0, t.rsp.res1, t.rsp.res2⟩
    p ∈ candidates (s.bounds hw) ∧ ratio p = true ∧ fits (s.layout hw) p = true ∧ zeroDivider p = false

/-- R145: at 100000 kHz with the generic bounds the computed values run from 19047 to 533333, both reached; a request above
534333 or below 18047 fails, 534333 succeeds with diff 1000, 534334 fails with diff 1001. -/
def Obligations.SearchReachesExactlyTheRange : Prop :=
  ∀ (b c : Word) (s : State), s.handle.valid = true → s.handle.refKhz = 100000 → s.handle.variant ≠ 3 →
    (∀ p ∈ candidates (s.bounds hw), 19047 ≤ freq 100000 p ∧ freq 100000 p ≤ 533333) ∧
    (⟨4, 128, 6⟩ ∈ candidates (s.bounds hw) ∧ freq 100000 ⟨4, 128, 6⟩ = 533333) ∧
    (⟨3, 36, 63⟩ ∈ candidates (s.bounds hw) ∧ freq 100000 ⟨3, 36, 63⟩ = 19047) ∧
    (∀ a : Word, a.toNat < 18047 ∨ 534333 < a.toNat →
      ∃ t, exec (.search a b c) s = .next t ∧ t.rsp.status = .errToleranceExceeded) ∧
    (∃ t, exec (.search 534333 b c) s = .next t ∧ t.rsp.status = .ok ∧ t.rsp.res3 = 1000) ∧
    (∃ t, exec (.search 534334 b c) s = .next t ∧ t.rsp.status = .errToleranceExceeded ∧ t.rsp.res3 = 1001)

/-- R141: a table hit that fits the variant is what COMPUTE answers, with no search: the S_* registers stay. -/
def Obligations.ComputeAnswersAFittingTableHit : Prop :=
  ∀ (b c : Word) (s : State), s.handle.valid = true →
    exec (.compute 148500 b c) s =
      .next { s with rsp := ⟨.ok, 3, 49, 11, 0, true⟩, seq := { s.seq with fsm := .idle, sub := 0 } } ∧
    (s.handle.variant = 0 ∨ s.handle.variant = 2 →
      exec (.compute 25175 b c) s =
        .next { s with rsp := ⟨.ok, 5, 107, 85, 0, true⟩, seq := { s.seq with fsm := .idle, sub := 0 } })

/-- R141, R142: on a table miss, and on a hit that does not fit the variant, COMPUTE is SEARCH. -/
def Obligations.ComputeSearchesOnMissOrMisfit : Prop :=
  ∀ (a b c : Word) (s : State), s.handle.valid = true →
    (a ≠ 148500 → a ≠ 25175 → exec (.compute a b c) s = exec (.search a b c) s) ∧
    (s.handle.variant = 1 ∨ s.handle.variant = 3 → exec (.compute 25175 b c) s = exec (.search 25175 b c) s)

/-- 95_test_vectors 1.4, R140, R142: whatever COMPUTE answers satisfies Ratio and fits the variant. -/
def Obligations.ComputeResultsFitTheVariant : Prop :=
  ∀ (a b c : Word) (s : State), s.handle.valid = true →
    ∃ t, exec (.compute a b c) s = .next t ∧
      ratio ⟨t.rsp.res0, t.rsp.res1, t.rsp.res2⟩ = true ∧
      fits (s.layout hw) ⟨t.rsp.res0, t.rsp.res1, t.rsp.res2⟩ = true

/-! ### 42_codec -/

/-- R100: Extract after Insert, of the same field and of another one of the same well-formed layout. -/
def Obligations.ExtractAfterInsert : Prop :=
  ∀ (L : Layout) (f g : Field) (W : RegWords) (v : Word), L.WF → f ∈ L.fields → g ∈ L.fields →
    readField (writeField W f v) f = v &&& mask f.width ∧
      (f ≠ g → readField (writeField W f v) g = readField W g)

/-- R156: staging a triple that fits and decoding gives it back, from every register content of every well-formed layout; a
triple within an admissible variant's bounds fits; without Fits it fails: on variant 1, div_out = 85 reads back as 21. -/
def Obligations.DecodeAfterEncodeIsTheTriple : Prop :=
  (∀ (L : Layout) (W : RegWords) (p : ClockParams), L.WF → fits L p = true →
    decodeParams L (encodeInto L W p) = p) ∧
  (∀ (V : VariantConfig) (p : ClockParams), V.WF →
    p.divOut.toNat < V.bounds.doutHi → p.divRef.toNat < V.bounds.drefHi → p.loopc.toNat < V.bounds.loopcHi →
    fits V.layout p = true) ∧
  (∀ (W : RegWords) (d l : Word), (decodeParams layout1 (encodeInto layout1 W ⟨d, l, 85⟩)).divOut = 21)

/-- R157: staging moves no control or status bit and no reserved bit, and moving a control bit moves no parameter. -/
def Obligations.StagingAndControlBitsDoNotInterfere : Prop :=
  ∀ (L : Layout) (W : RegWords) (p : ClockParams), L.WF →
    decodeStatus L (encodeInto L W p) = decodeStatus L W ∧
      (∀ i k, i < L.nwords → L.Reserved i k →
        ((encodeInto L W p).get i).getLsbD k = (W.get i).getLsbD k) ∧
      (∀ f ∈ L.bitFields, ∀ v, decodeParams L (writeField W f v) = decodeParams L W)

/-- R158: encoding what was decoded restores the register, and an image holds the parameter bits and nothing else. -/
def Obligations.EncodeAfterDecodeIsTheRegister : Prop :=
  ∀ (L : Layout) (W : RegWords), L.WF →
    encodeInto L W (decodeParams L W) = W ∧
      (∀ i k, i < L.nwords →
        ((encodeImage L (decodeParams L W)).get i).getLsbD k =
          (decide (L.ParamBit i k) && (W.get i).getLsbD k))

/-- R152: ENCODE answers the image of a triple that fits: its parameter fields hold A, B, C, every other bit is 0, and RES1
is 0 where there is no word 1; a triple that does not fit is answered ERR_INVALID_PARAMS; nothing else changes. -/
def Obligations.EncodeAnswersTheImage : Prop :=
  ∀ (a b c : Word) (s : State), s.handle.valid = true →
    (fits (s.layout hw) ⟨a, b, c⟩ = true →
      ∃ w0 w1 : Word,
        exec (.encode a b c) s =
          .next
            { s with
              rsp := { s.rsp with status := .ok, res0 := w0, res1 := w1, valid := true }
              seq := { s.seq with fsm := .idle, sub := 0 } } ∧
        decodeParams (s.layout hw) ⟨w0, w1⟩ = ⟨a, b, c⟩ ∧
        (∀ i k, i < 2 → ¬ (s.layout hw).ParamBit i k → ((⟨w0, w1⟩ : RegWords).get i).getLsbD k = false) ∧
        ((s.layout hw).nwords = 1 → w1 = 0)) ∧
    (fits (s.layout hw) ⟨a, b, c⟩ = false →
      exec (.encode a b c) s =
        .next
          { s with
            rsp := { s.rsp with status := .errInvalidParams, valid := true }
            seq := { s.seq with fsm := .idle, sub := 0 } })

/-- R111, R153 to R155: DECODE answers each field as the number in its bits, and the status word bit by bit; word B does not
matter on a one-word variant; nothing else changes. -/
def Obligations.DecodeAnswersTheFields : Prop :=
  ∀ (a b c : Word) (s : State), s.handle.valid = true →
    let L := s.layout hw
    let W : RegWords := ⟨a, b⟩
    let num := fun f : Field => (W.get f.word).toNat / 2 ^ f.off % 2 ^ f.width
    let bit := fun f : Option Field => f.any fun g => (W.get g.word).getLsbD g.off
    ∃ p q r st : Word,
      exec (.decode a b c) s =
        .next
          { s with
            rsp := ⟨.ok, p, q, r, st, true⟩
            seq := { s.seq with fsm := .idle, sub := 0 } } ∧
      p.toNat = num L.divRef ∧ q.toNat = num L.loopc ∧ r.toNat = num L.divOut ∧
      st.getLsbD 0 = bit (some L.locked) ∧ st.getLsbD 1 = bit (some L.bypass) ∧
      st.getLsbD 2 = bit (some L.powerdown) ∧ st.getLsbD 3 = bit L.selOut ∧ st.getLsbD 4 = bit L.setParam ∧
      (∀ k, 5 ≤ k → st.getLsbD k = false) ∧
      (L.nwords = 1 → ∀ b' : Word, exec (.decode a b' c) s = exec (.decode a b c) s)

/-! ### 43_programmer -/

/-- R171: the checks of APPLY in order, each ending the command with its status, no transaction and nothing else; Ratio and
the bounds are not tested: every triple that fits and has no zero divider is programmed. -/
def Obligations.ApplyTestsOnlyHandleFitsAndZero : Prop :=
  ∀ (a b c : Word) (s : State),
    let done := fun st : Status => (Host.Outcome.next
      { s with
        rsp := { s.rsp with status := st, valid := true }
        seq := { s.seq with fsm := .idle, sub := 0 } } : Outcome)
    (s.handle.valid = false → exec (.apply a b c) s = done .errNotInit) ∧
    (s.handle.valid = true → fits (s.layout hw) ⟨a, b, c⟩ = false → exec (.apply a b c) s = done .errInvalidParams) ∧
    (s.handle.valid = true → fits (s.layout hw) ⟨a, b, c⟩ = true → a = 0 ∨ c = 0 →
      exec (.apply a b c) s = done .errInvalidParams) ∧
    (s.handle.valid = true → fits (s.layout hw) ⟨a, b, c⟩ = true → a ≠ 0 → c ≠ 0 → s.Live → s.WindowInside hw →
      ∃ t, exec (.apply a b c) s = .next t ∧ decodeParams (s.layout hw) t.pll.words = ⟨a, b, c⟩)

/-- R192 (all of it): an APPLY of a programmable triple completes; afterwards the register holds the triple, `bypass`,
`powerdown` and `set_param` are 0, `sel_out` is 1 where present, every reserved bit is as before, the cache holds the triple,
and ACTIVE is the triple if `set_param` was 0 or is absent. -/
def Obligations.ApplyLeavesTheRegisterProgrammed : Prop :=
  ∀ (a b c : Word) (s : State),
    s.handle.valid = true → Programmable s ⟨a, b, c⟩ → s.Live → s.WindowInside hw →
    ∃ t, exec (.apply a b c) s = .next t ∧
      decodeParams (s.layout hw) t.pll.words = ⟨a, b, c⟩ ∧
      readField t.pll.words (s.layout hw).bypass = 0 ∧ readField t.pll.words (s.layout hw).powerdown = 0 ∧
      (∀ f, (s.layout hw).selOut = some f → readField t.pll.words f = 1) ∧
      (∀ f, (s.layout hw).setParam = some f → readField t.pll.words f = 0) ∧
      (∀ i k, i < (s.layout hw).nwords → (s.layout hw).Reserved i k →
        (t.pll.words.get i).getLsbD k = (s.pll.words.get i).getLsbD k) ∧
      t.cache = ⟨true, ⟨a, b, c⟩⟩ ∧
      ((∀ f, (s.layout hw).setParam = some f → readField s.pll.words f = 0) → t.pll.active = some ⟨a, b, c⟩)

/-- R193, R268: with `set_param` already 1 the APPLY programs the register but ACTIVE does not change. -/
def Obligations.ApplyWithCommitBitSetDoesNotCommit : Prop :=
  ∀ (a b c : Word) (f : Field) (s t : State),
    s.handle.valid = true → Programmable s ⟨a, b, c⟩ → (s.layout hw).setParam = some f →
    readField s.pll.words f = 1 → exec (.apply a b c) s = .next t →
    t.pll.active = s.pll.active ∧ decodeParams (s.layout hw) t.pll.words = ⟨a, b, c⟩

/-- R182, R183, R186, R187 (the draws by their position, log 3): the wait ends at the first poll that draws 1, with OK and
the number of polls; when the first 2000 polls draw 0 it ends with WARN_LOCK_TIMEOUT and 2000. -/
def Obligations.ApplyReportsTheLockWait : Prop :=
  ∀ (a b c : Word) (s : State),
    s.handle.valid = true → Programmable s ⟨a, b, c⟩ → s.Live → s.WindowInside hw →
    let draw := fun n => s.env.lockAt (s.env.lockPos + lockReadsBeforePolls (s.layout hw) ⟨a, b, c⟩ + n)
    (∀ n, n < 2000 → (∀ m, m < n → draw m = false) → draw n = true →
      ∃ t, exec (.apply a b c) s = .next t ∧ t.rsp = { s.rsp with status := .ok, res3 := BitVec.ofNat 32 (n + 1), valid := true } ∧
        t.seq.lockIters.toNat = n + 1 ∧ t.seq.lockTimeout = false) ∧
    ((∀ m, m < 2000 → draw m = false) →
      ∃ t, exec (.apply a b c) s = .next t ∧ t.rsp = { s.rsp with status := .warnLockTimeout, res3 := 2000, valid := true } ∧
        t.seq.lockIters.toNat = 2000 ∧ t.seq.lockTimeout = true)

/-- R170, R174: the frame of APPLY: handle, operand registers, S_* registers, RES0 to RES2 stay, FSM is back in IDLE, and
every event is a transaction or a delay; a one-word variant's word 1 stays too. -/
def Obligations.ApplyChangesNothingElse : Prop :=
  ∀ (a b c : Word) (s t : State), exec (.apply a b c) s = .next t →
    t.handle = s.handle ∧ t.cmd = s.cmd ∧ t.search = s.search ∧
      t.rsp.res0 = s.rsp.res0 ∧ t.rsp.res1 = s.rsp.res1 ∧ t.rsp.res2 = s.rsp.res2 ∧
      t.seq.fsm = .idle ∧ t.seq.sub = 0 ∧
      (∃ new, t.trace = new ++ s.trace ∧ ∀ e ∈ new, e.isBus || e.isDelay) ∧
      ((s.layout hw).nwords = 1 → t.pll.words.w1 = s.pll.words.w1) ∧
      t.env = { s.env with lockPos := t.env.lockPos, busCount := t.env.busCount }

/-- R194 (counted in the model's trace, logs 14 and 15): the bus transactions and delays of an APPLY on the four reference
variants; the polls are LOCK_ITERS many. -/
def Obligations.ApplyTransactionCounts : Prop :=
  ∀ (a b c : Word) (s t : State),
    s.handle.valid = true → Programmable s ⟨a, b, c⟩ → exec (.apply a b c) s = .next t →
    ∃ new, t.trace = new ++ s.trace ∧
      (new.filter PortEvent.isBus).length =
        (if s.handle.variant = 0 then 20 else if s.handle.variant = 1 then 16 else if s.handle.variant = 2 then 14 else 10) +
          t.seq.lockIters.toNat ∧
      1 ≤ t.seq.lockIters.toNat ∧ t.seq.lockIters.toNat ≤ 2000 ∧
      new.filter PortEvent.isDelay =
        (if s.handle.variant = 1 ∨ s.handle.variant = 3 then [PortEvent.delay 1] else [])

/-- R191 (in the model's trace, log 14): every write of an APPLY is immediately preceded by a read of the same word. -/
def Obligations.ApplyWritesFollowReads : Prop :=
  ∀ (a b c : Word) (s t : State) (new : List PortEvent),
    exec (.apply a b c) s = .next t → t.trace = new ++ s.trace →
    ∀ (later earlier : List PortEvent) (i : Nat) (ad v : Word),
      new = later ++ .write i ad v :: earlier → ∃ u rest, earlier = .read i ad u :: rest

/-- R174 to R177, R179, R180, R184, R185 (one transaction a step, log 1): every SetBit of the protocol. Of those after step 1
one step of the sequencer makes the read and the next the write, and after the last of a transition FSM holds the name of the
step completed; step 1 is made whole by the step that accepts the APPLY (log 13), and so is the SUB = 1 at which step 8
begins. Every other stored bit but `locked` stays. -/
def Obligations.TwoStepsMakeOneSetBit : Prop :=
  let only := fun (L : Layout) (f : Field) (v : Word) (s t : State) =>
    readField t.pll.words f = v ∧
      ∀ i k, i < L.nwords → ¬ Field.Holds f i k → ¬ Field.Holds L.locked i k →
        (t.pll.words.get i).getLsbD k = (s.pll.words.get i).getLsbD k
  (∀ (q q' : Fsm) (k k' : BitVec 3) (f : Field) (v : Word) (s : State),
    s.seq.fsm = q → s.seq.sub = k → s.env.host = [] → s.Live → s.WindowInside hw →
    (q = .bypassed ∧ k = 0 ∧ (s.layout hw).selOut = some f ∧ v = 0 ∧ q' = .off ∧ k' = 0 ∨
      q = .off ∧ k = 0 ∧ f = (s.layout hw).powerdown ∧ v = 1 ∧ q' = .poweredDown ∧ k' = 0 ∨
      q = .paramStaged ∧ k = 0 ∧ (s.layout hw).setParam = some f ∧ v = 1 ∧ q' = .paramStaged ∧ k' = 2 ∨
      q = .paramStaged ∧ k = 2 ∧ (s.layout hw).setParam = some f ∧ v = 0 ∧ q' = .paramCommitted ∧ k' = 0 ∨
      q = .paramCommitted ∧ k = 0 ∧ f = (s.layout hw).powerdown ∧ v = 0 ∧ q' = .poweringUp ∧ k' = 0 ∨
      q = .waitingLock ∧ k = 1 ∧ (s.layout hw).selOut = some f ∧ v = 1 ∧ q' = .on ∧ k' = 0 ∨
      q = .on ∧ k = 0 ∧ f = (s.layout hw).bypass ∧ v = 0 ∧ q' = .unbypassed ∧ k' = 0) →
    ∃ r t, step s = .next r ∧ r.seq.fsm = q ∧ r.seq.sub = k + 1 ∧ r.pll = s.pll ∧
      step r = .next t ∧ t.seq.fsm = q' ∧ t.seq.sub = k' ∧ only (s.layout hw) f v s t) ∧
  (∀ (a b c : Word) (rest : List HostInput) (s : State),
    s.seq.fsm = .idle → s.env.fine = true → s.env.host = .command (encode (.apply a b c)) :: rest →
    s.handle.valid = true → Programmable s ⟨a, b, c⟩ → s.Live → s.WindowInside hw →
    ∃ t, step s = .next t ∧ t.seq.fsm = .bypassed ∧ t.seq.sub = 0 ∧ t.cmd = ⟨8, a, b, c⟩ ∧
      only (s.layout hw) (s.layout hw).bypass 1 s t)

/-- R183: one step of the sequencer in the lock wait is one poll (SUB = 1 after the last one is the model's, log 13). -/
def Obligations.OneStepIsOnePoll : Prop :=
  ∀ s : State, Polling s → PollOk s → s.env.host = [] → s.Live → s.WindowInside hw →
    ∃ t, step s = .next t ∧ t.pll = s.pll ∧ t.seq.fsm = .waitingLock ∧
      t.seq.lockIters.toNat = s.seq.lockIters.toNat + 1 ∧ t.env.busCount = s.env.busCount + 1 ∧
      (s.env.lockAt s.env.lockPos = true → t.seq.lockTimeout = false ∧ ¬ Polling t) ∧
      (s.env.lockAt s.env.lockPos = false → t.seq.lockIters.toNat = 2000 → t.seq.lockTimeout = true ∧ ¬ Polling t) ∧
      (s.env.lockAt s.env.lockPos = false → t.seq.lockIters.toNat < 2000 →
        t.seq.lockTimeout = s.seq.lockTimeout ∧ Polling t)

/-- R195: two APPLYs presented together leave the register as R192 says for the second triple, whatever the register held:
the triple, the control bits, the reserved bits, the cache and ACTIVE. -/
def Obligations.SecondApplyDecidesTheRegister : Prop :=
  ∀ (a b c a' b' c' : Word) (s : State),
    s.handle.valid = true → Programmable s ⟨a, b, c⟩ → Programmable s ⟨a', b', c'⟩ → s.Live → s.WindowInside hw →
    s.seq.fsm = .idle → s.env.fine = false →
    s.env.host = [.command (encode (.apply a b c)), .command (encode (.apply a' b' c'))] →
    ∃ t, Host.Core.run Sys2Proof.core 2 s = .next t ∧
      decodeParams (s.layout hw) t.pll.words = ⟨a', b', c'⟩ ∧ t.pll.active = some ⟨a', b', c'⟩ ∧
      t.cache = ⟨true, ⟨a', b', c'⟩⟩ ∧ t.cmd = ⟨8, a', b', c'⟩ ∧ t.seq.fsm = .idle ∧
      readField t.pll.words (s.layout hw).bypass = 0 ∧ readField t.pll.words (s.layout hw).powerdown = 0 ∧
      (∀ f, (s.layout hw).selOut = some f → readField t.pll.words f = 1) ∧
      (∀ f, (s.layout hw).setParam = some f → readField t.pll.words f = 0) ∧
      (∀ i k, i < (s.layout hw).nwords → (s.layout hw).Reserved i k →
        (t.pll.words.get i).getLsbD k = (s.pll.words.get i).getLsbD k)

/-! ### 44_readback -/

/-- R210, R211, R212: READFREQ answers the formula on the stored parameter fields, whatever the lock draws and the control
bits; it reads each word once, word 0 first, writes nothing, and leaves handle, cache and target as they are. -/
def Obligations.ReadfreqAnswersTheStoredTriple : Prop :=
  ∀ (a b c : Word) (s : State),
    s.handle.valid = true → s.handle.refKhz.toNat ≤ 4194303 → s.Live → s.WindowInside hw →
    let p := decodeParams (s.layout hw) s.pll.words
    p.divRef ≠ 0 → p.divOut ≠ 0 →
    ∃ t, exec (.readfreq a b c) s = .next t ∧ t.rsp.status = .ok ∧
      t.rsp.res0.toNat = s.handle.refKhz.toNat / p.divRef.toNat * p.loopc.toNat / p.divOut.toNat ∧
      t.rsp.res1 = s.rsp.res1 ∧ t.rsp.res2 = s.rsp.res2 ∧ t.rsp.res3 = s.rsp.res3 ∧
      t.handle = s.handle ∧ t.cache = s.cache ∧ t.cmd = s.cmd ∧ t.search = s.search ∧ t.pll = s.pll ∧
      t.seq = { s.seq with fsm := .idle, sub := 0, read := t.seq.read } ∧
      ∃ new, t.trace = new ++ s.trace ∧
        new.reverse.map (fun e => match e with | .read i _ _ => some i | _ => none) =
          (List.range (s.layout hw).nwords).map some

/-- R213: a register with a zero divider reads back as ERR_DIV_ZERO with RES0 = 0. -/
def Obligations.ReadfreqReportsZeroDividers : Prop :=
  ∀ (a b c : Word) (s : State),
    s.handle.valid = true → s.Live → s.WindowInside hw →
    zeroDivider (decodeParams (s.layout hw) s.pll.words) = true →
    ∃ t, exec (.readfreq a b c) s = .next t ∧
      t.rsp = { s.rsp with status := .errDivZero, res0 := 0, valid := true } ∧
      t.pll = s.pll ∧ t.handle = s.handle ∧ t.cache = s.cache

/-- R192, R212: READFREQ straight after a completed APPLY answers the formula on the applied triple. -/
def Obligations.ReadfreqAfterApplyAnswersTheTriple : Prop :=
  ∀ (a b c : Word) (s t : State),
    s.handle.valid = true → s.handle.refKhz.toNat ≤ 4194303 → Programmable s ⟨a, b, c⟩ → s.Live → s.WindowInside hw →
    exec (.apply a b c) s = .next t →
    ∃ u, exec (.readfreq 0 0 0) t = .next u ∧ u.rsp.status = .ok ∧
      u.rsp.res0.toNat = s.handle.refKhz.toNat / a.toNat * b.toNat / c.toNat

/-! ### 45_lifecycle -/

/-- R221: a granted INIT fills the handle, clears the cache's valid flag, and touches neither results nor the target. -/
def Obligations.InitFillsTheHandle : Prop :=
  ∀ (a b c : Word) (s : State),
    s.handle.valid = false → b.toNat ≤ 3 → a.toNat % 4 = 0 → 1 ≤ c.toNat → c.toNat ≤ 4194303 →
    s.env.grantAt s.env.grantPos = .grant →
    ∃ v : BitVec 2, v.toNat = b.toNat ∧
      exec (.init a b c) s =
        .next
          { s with
            handle := ⟨true, a, v, c⟩
            cache := { s.cache with valid := false }
            rsp := { s.rsp with status := .ok, valid := true }
            seq := { s.seq with fsm := .idle, sub := 0 }
            trace := .mapGrant :: .mapReq a (if b.toNat ≤ 1 then 8 else 4) :: s.trace
            env := { s.env with grantPos := s.env.grantPos + 1 } }

/-- R221 to R224: INIT's errors, first failing test first; no error changes a handle register, and only a denied one has
asked for the window. -/
def Obligations.InitErrorsChangeNoHandleRegister : Prop :=
  ∀ (a b c : Word) (s : State),
    (s.handle.valid = true →
      exec (.init a b c) s =
        .next
          { s with
            rsp := { s.rsp with status := .errBadState, valid := true }
            seq := { s.seq with fsm := .idle, sub := 0 } }) ∧
    (s.handle.valid = false → (3 < b.toNat ∨ a.toNat % 4 ≠ 0 ∨ c.toNat = 0 ∨ 4194303 < c.toNat) →
      exec (.init a b c) s =
        .next
          { s with
            rsp := { s.rsp with status := .errBadArg, valid := true }
            seq := { s.seq with fsm := .idle, sub := 0 } }) ∧
    (s.handle.valid = false → b.toNat ≤ 3 → a.toNat % 4 = 0 → 1 ≤ c.toNat → c.toNat ≤ 4194303 →
      s.env.grantAt s.env.grantPos = .deny →
      exec (.init a b c) s =
        .next
          { s with
            rsp := { s.rsp with status := .errMapFailed, valid := true }
            seq := { s.seq with fsm := .idle, sub := 0 }
            trace := .mapDeny :: .mapReq a (if b.toNat ≤ 1 then 8 else 4) :: s.trace
            env := { s.env with grantPos := s.env.grantPos + 1 } }) ∧
    (s.handle.valid = false → b.toNat ≤ 3 → a.toNat % 4 = 0 → 1 ≤ c.toNat → c.toNat ≤ 4194303 →
      s.env.grantAt s.env.grantPos = .silent → exec (.init a b c) s = .fault .mapNeverAnswered)

/-- R225: TEARDOWN of a valid handle pulses `map_release` once, clears the two valid flags and keeps everything else. -/
def Obligations.TeardownReleasesOnce : Prop :=
  ∀ (a b c : Word) (s : State), s.handle.valid = true →
    exec (.teardown a b c) s =
      .next
        { s with
          handle := { s.handle with valid := false }
          cache := { s.cache with valid := false }
          rsp := { s.rsp with status := .ok, valid := true }
          seq := { s.seq with fsm := .idle, sub := 0 }
          trace := .mapRelease :: s.trace }

/-- R226 (in the model's trace, log 14): grants and releases alternate, and a handle is valid exactly after a grant not yet
released; every step that is not a reset keeps this. -/
def Obligations.GrantsAndReleasesAlternate : Prop :=
  ∀ s t : State, MapInv s → s.env.host.head? ≠ some .reset → step s = .next t → MapInv t

/-! ### 60_exceptions and the whole machine -/

/-- R240: INIT needs H_VALID = 0; LOOKUP answers the same in either state; every other command answers ERR_NOT_INIT without a
valid handle, and changes nothing else. -/
def Obligations.CommandsNeedAHandle : Prop :=
  ∀ (i : Instr) (s : State),
    ((∃ a b c, i = .init a b c) → s.handle.valid = true →
      exec i s =
        .next
          { s with
            rsp := { s.rsp with status := .errBadState, valid := true }
            seq := { s.seq with fsm := .idle, sub := 0 } }) ∧
    ((∃ a b c, i = .lookup a b c) → ∀ h : Handle,
      ∃ t, exec i s = .next t ∧ exec i { s with handle := h } = .next { t with handle := h }) ∧
    ((∀ a b c, i ≠ .init a b c) → (∀ a b c, i ≠ .lookup a b c) → s.handle.valid = false →
      exec i s =
        .next
          { s with
            rsp := { s.rsp with status := .errNotInit, valid := true }
            seq := { s.seq with fsm := .idle, sub := 0 } })

/-- R34, R273: given the provisos (bus, time base, a map answer) and a window inside the address space, every command
responds once and is over: `rsp_valid` is 1 and FSM is IDLE. -/
def Obligations.EveryCommandResponds : Prop :=
  ∀ (i : Instr) (s : State), s.Live → s.WindowInside hw → s.env.grantAt s.env.grantPos ≠ .silent →
    ∃ t, exec i s = .next t ∧ t.rsp.valid = true ∧ t.seq.fsm = .idle ∧ t.seq.sub = 0

/-- R238: a command that ends with an error of its checks has changed no handle register, no cache register, no PLL register,
no S_* register and no lock counter, and RES1 to RES3 stay. -/
def Obligations.CheckErrorsArePrecise : Prop :=
  ∀ (i : Instr) (s t : State), exec i s = .next t → t.rsp.status.isCheckFailure = true →
    t.handle = s.handle ∧ t.cache = s.cache ∧ t.pll = s.pll ∧ t.search = s.search ∧ t.cmd = s.cmd ∧
      t.seq.lockIters = s.seq.lockIters ∧ t.seq.lockTimeout = s.seq.lockTimeout ∧
      t.rsp.res1 = s.rsp.res1 ∧ t.rsp.res2 = s.rsp.res2 ∧ t.rsp.res3 = s.rsp.res3

/-- R21 to R25, R32, R36, R251: which command may write what: only INIT and TEARDOWN the handle; only APPLY, INIT and
TEARDOWN the cache; only APPLY the PLL target and the lock registers; only SEARCH and COMPUTE the S_* registers; no command
the operand registers once latched. -/
def Obligations.OnlyTheNamedCommandsWrite : Prop :=
  ∀ (i : Instr) (s t : State), exec i s = .next t →
    t.cmd = s.cmd ∧
      (t.handle ≠ s.handle → (∃ a b c, i = .init a b c) ∨ ∃ a b c, i = .teardown a b c) ∧
      (t.cache ≠ s.cache → (∃ a b c, i = .init a b c) ∨ (∃ a b c, i = .teardown a b c) ∨ ∃ a b c, i = .apply a b c) ∧
      (t.pll ≠ s.pll → ∃ a b c, i = .apply a b c) ∧
      (t.seq.lockIters ≠ s.seq.lockIters ∨ t.seq.lockTimeout ≠ s.seq.lockTimeout → ∃ a b c, i = .apply a b c) ∧
      (t.search ≠ s.search → (∃ a b c, i = .search a b c) ∨ ∃ a b c, i = .compute a b c)

/-- R22, R24, R25, R31, R32, R35, R75: the invariant of the registers is kept by every step from every state that has it. -/
def Obligations.StepKeepsTheRegisterInvariant : Prop :=
  ∀ s t : State, Inv s → step s = .next t → Inv t

/-- The invariants hold after reset. -/
def Obligations.ResetHasTheInvariants : Prop :=
  ProtocolInv State.reset ∧ MapInv State.reset

/-- R31, R269, R192, R178, R179 (with SUB read as log 13 says and the read latch of log 14): from every state that has it,
every step keeps the protocol's invariant: bypassed from step 1 to step 9, powered down while staging and committing,
deselected until the wait is over, parameters kept once staged. -/
def Obligations.StepKeepsTheProtocolInvariant : Prop :=
  ∀ s t : State, ProtocolInv s → step s = .next t → ProtocolInv t

/-- R248, R275 (without R248's premise of disjoint windows, since the model's copies share nothing in any case, log 17): a
step of one copy of CORE leaves the others as they are, and steps of two copies can be exchanged. -/
def Obligations.CopiesDoNotDisturbEachOther : Prop :=
  ∀ (j k : Nat) (y z : System), j ≠ k → y.stepAt j = .next z →
    z.cores[k]? = y.cores[k]? ∧
      (∀ u, z.stepAt k = .next u → ∃ x, y.stepAt k = .next x ∧ x.stepAt j = .next u)

/-- R114: SETFREQ runs COMPUTE; after a failed one it ends there, with no APPLY; after a successful one it is the APPLY of
the three results of that COMPUTE, and when this completes the register and the cache hold them. -/
def Obligations.SetfreqAppliesOnlyASuccessfulCompute : Prop :=
  ∀ (khz : Word) (s : State), s.handle.valid = true →
    ∃ u, issue (.compute khz 0 0) s = .next u ∧
      (u.rsp.status ≠ .ok → u.rsp.status = .errToleranceExceeded ∧ setfreq khz s = .next u ∧
        u.pll = s.pll ∧ u.cache = s.cache ∧ u.trace = s.trace) ∧
      (u.rsp.status = .ok → ∀ t, setfreq khz s = .next t →
        issue (.apply u.rsp.res0 u.rsp.res1 u.rsp.res2) u = .next t ∧
          (t.rsp.status = .ok ∨ t.rsp.status = .warnLockTimeout) ∧
          t.cmd = ⟨8, u.rsp.res0, u.rsp.res1, u.rsp.res2⟩ ∧
          t.cache = ⟨true, ⟨u.rsp.res0, u.rsp.res1, u.rsp.res2⟩⟩ ∧
          decodeParams (s.layout hw) t.pll.words = ⟨u.rsp.res0, u.rsp.res1, u.rsp.res2⟩ ∧
          ratio t.cache.params = true) ∧
      (u.rsp.status = .ok → s.Live → s.WindowInside hw → ∃ t, setfreq khz s = .next t)

/-- R113, R114: a line is assembled exactly when it is well-formed and no SETFREQ, to the command of its mnemonic (GETFREQ
being READFREQ), whose operands are the numbers written and 0 for those omitted; that command's word decodes to it. -/
def Obligations.AssemblerEncodesTheWrittenOperands : Prop :=
  ∀ l : CommandLine,
    (l.assemble.isSome = true ↔ l.wf = true ∧ l.mnemonic ≠ .SETFREQ) ∧
      (∀ i, l.assemble = some i →
        i.a.toNat = l.operands.getD 0 0 ∧ i.b.toNat = l.operands.getD 1 0 ∧ i.c.toNat = l.operands.getD 2 0 ∧
        decode (encode i) = .command i ∧
        (match l.mnemonic with
          | .INIT => i = .init i.a i.b i.c
          | .LOOKUP => i = .lookup i.a i.b i.c
          | .SEARCH => i = .search i.a i.b i.c
          | .COMPUTE => i = .compute i.a i.b i.c
          | .CALCFREQ => i = .calcfreq i.a i.b i.c
          | .ENCODE => i = .encode i.a i.b i.c
          | .DECODE => i = .decode i.a i.b i.c
          | .APPLY => i = .apply i.a i.b i.c
          | .READFREQ | .GETFREQ => i = .readfreq i.a i.b i.c
          | .TEARDOWN => i = .teardown i.a i.b i.c
          | .SETFREQ => False))
end

