-- ==== Sys2Proof/Laws/Fields.lean ====
section
/-! SUPPORT. What Extract, Insert and the register accessors do, bit by bit (spec 30_encoding R100), and what
well-formedness of a layout gives (R99). -/

namespace Sys2Proof.Machine

theorem getLsbD_mask (n k : Nat) : (mask n).getLsbD k = (decide (k < 32) && decide (k < n)) := by
  simp [mask, maskNat, BitVec.getLsbD_ofNat, Nat.testBit_two_pow_sub_one]

theorem getLsbD_extract (w : Word) (f : Field) (k : Nat) :
    (extract w f).getLsbD k = (decide (k < f.width) && w.getLsbD (f.off + k)) := by
  simp only [extract, BitVec.getLsbD_and, BitVec.getLsbD_ushiftRight, getLsbD_mask]
  by_cases h : k < 32
  · simp [h, Bool.and_comm]
  · have : w.getLsbD (f.off + k) = false := BitVec.getLsbD_of_ge w _ (by omega)
    simp [this]

theorem getLsbD_insert (w : Word) (f : Field) (v : Word) (k : Nat) (h : k < 32) :
    (insert w f v).getLsbD k =
      if f.off ≤ k ∧ k < f.off + f.width then v.getLsbD (k - f.off) else w.getLsbD k := by
  simp only [insert, BitVec.getLsbD_or, BitVec.getLsbD_and, BitVec.getLsbD_not, BitVec.getLsbD_shiftLeft, getLsbD_mask]
  by_cases h1 : f.off ≤ k
  · by_cases h2 : k < f.off + f.width
    · have h3 : k - f.off < f.width := by omega
      have h4 : k - f.off < 32 := by omega
      have h5 : ¬ k < f.off := by omega
      simp [h, h1, h2, h3, h4, h5]
    · have h3 : ¬ k - f.off < f.width := by omega
      simp [h, h2, h3]
  · have h5 : k < f.off := by omega
    simp [h, h1, h5]

/-- Insert changes no bit outside the field (R100). -/
theorem getLsbD_insert_outside (w : Word) (f : Field) (v : Word) (k : Nat) (h : ¬ (f.off ≤ k ∧ k < f.off + f.width)) :
    (insert w f v).getLsbD k = w.getLsbD k := by
  by_cases hk : k < 32
  · rw [getLsbD_insert _ _ _ _ hk, if_neg h]
  · rw [BitVec.getLsbD_of_ge _ _ (by omega), BitVec.getLsbD_of_ge _ _ (by omega)]

/-- Two words that agree on a field's bits give the same Extract. -/
theorem extract_congr (v w : Word) (f : Field)
    (h : ∀ k, f.off ≤ k → k < f.off + f.width → v.getLsbD k = w.getLsbD k) : extract v f = extract w f := by
  apply BitVec.eq_of_getLsbD_eq
  intro k hk
  rw [getLsbD_extract, getLsbD_extract]
  by_cases hw : k < f.width
  · rw [h (f.off + k) (by omega) (by omega)]
  · simp [hw]

/-- Extract after Insert of the same field, inside the word (R100). -/
theorem extract_insert_same (w : Word) (f : Field) (v : Word) (h : f.off + f.width ≤ 32) :
    extract (insert w f v) f = v &&& mask f.width := by
  apply BitVec.eq_of_getLsbD_eq
  intro k hk
  rw [getLsbD_extract, BitVec.getLsbD_and, getLsbD_mask]
  by_cases hw : k < f.width
  · rw [getLsbD_insert _ _ _ _ (by omega), if_pos ⟨by omega, by omega⟩]
    simp [hw, hk]
  · simp [hw]

/-- Extract after Insert of a field that shares no bit (R100). -/
theorem extract_insert_other (w : Word) (f g : Field) (v : Word)
    (h : f.off + f.width ≤ g.off ∨ g.off + g.width ≤ f.off) : extract (insert w f v) g = extract w g := by
  apply extract_congr
  intro k h1 h2
  exact getLsbD_insert_outside _ _ _ _ (by omega)

/-- Inserting what Extract gives changes nothing. -/
theorem insert_extract_self (w : Word) (f : Field) : insert w f (extract w f) = w := by
  apply BitVec.eq_of_getLsbD_eq
  intro k hk
  rw [getLsbD_insert _ _ _ _ hk]
  by_cases h : f.off ≤ k ∧ k < f.off + f.width
  · rw [if_pos h, getLsbD_extract, Nat.add_sub_cancel' h.1]
    have : k - f.off < f.width := by omega
    simp [this]
  · rw [if_neg h]

/-- A number that fits a mask is unchanged by it. -/
theorem and_mask_of_le (v : Word) (n : Nat) (h : v.toNat ≤ maskNat n) : v &&& mask n = v := by
  have hp : 0 < 2 ^ n := Nat.two_pow_pos n
  have hv : v.toNat < 2 ^ n := by simp only [maskNat] at h; omega
  apply BitVec.eq_of_getLsbD_eq
  intro k hk
  rw [BitVec.getLsbD_and, getLsbD_mask]
  by_cases hw : k < n
  · simp [hw, hk]
  · have : v.getLsbD k = false := by
      rw [BitVec.getLsbD]
      exact Nat.testBit_lt_two_pow (Nat.lt_of_lt_of_le hv (Nat.pow_le_pow_right (by omega) (by omega)))
    simp [this]

/-- Extract as a number (R100). -/
theorem toNat_extract (w : Word) (f : Field) (h : f.width ≤ 32) :
    (extract w f).toNat = w.toNat / 2 ^ f.off % 2 ^ f.width := by
  have hm : (mask f.width).toNat = 2 ^ f.width - 1 := by
    have h1 : 2 ^ f.width ≤ 2 ^ 32 := Nat.pow_le_pow_right (by omega) h
    have hp : 0 < 2 ^ f.width := Nat.two_pow_pos _
    simp only [mask, maskNat, BitVec.toNat_ofNat]
    exact Nat.mod_eq_of_lt (by omega)
  rw [extract, BitVec.toNat_and, BitVec.toNat_ushiftRight, hm, Nat.shiftRight_eq_div_pow, Nat.and_two_pow_sub_one_eq_mod]

/-- A one-bit field is its bit. -/
theorem extract_one_iff (w : Word) (f : Field) (h : f.width = 1) :
    extract w f = if w.getLsbD f.off then 1 else 0 := by
  apply BitVec.eq_of_getLsbD_eq
  intro k hk
  rw [getLsbD_extract, h]
  by_cases hk0 : k = 0
  · subst hk0
    cases w.getLsbD f.off <;> simp
  · have : ¬ k < 1 := by omega
    cases w.getLsbD f.off
    · simp [this]
    · simp [this, BitVec.getLsbD_one, hk0]

/-! ### Register accessors -/

theorem RegWords.get_set_same (W : RegWords) (i : Nat) (v : Word) : (W.set i v).get i = v := by
  by_cases h : i = 0 <;> simp [RegWords.get, RegWords.set, h]

theorem RegWords.get_set_other (W : RegWords) (i j : Nat) (v : Word) (hi : i < 2) (hj : j < 2) (h : j ≠ i) :
    (W.set i v).get j = W.get j := by
  have : i = 0 ∧ j = 1 ∨ i = 1 ∧ j = 0 := by omega
  rcases this with ⟨rfl, rfl⟩ | ⟨rfl, rfl⟩ <;> simp [RegWords.get, RegWords.set]

theorem RegWords.set_get_self (W : RegWords) (i : Nat) : W.set i (W.get i) = W := by
  by_cases h : i = 0 <;> simp [RegWords.get, RegWords.set, h]

theorem RegWords.ext_get (V W : RegWords) (h0 : V.get 0 = W.get 0) (h1 : V.get 1 = W.get 1) : V = W := by
  cases V; cases W; simp_all [RegWords.get]

/-! ### Layouts -/

theorem wf_inside {L : Layout} (h : L.WF) {f : Field} (hf : f ∈ L.fields) :
    f.word < L.nwords ∧ f.off + f.width ≤ 32 := h.2.1 f hf

theorem wf_nwords_le {L : Layout} (h : L.WF) : L.nwords ≤ 2 := by
  rcases h.1.1 with h | h <;> omega

theorem wf_word_lt {L : Layout} (h : L.WF) {f : Field} (hf : f ∈ L.fields) : f.word < 2 :=
  Nat.lt_of_lt_of_le (wf_inside h hf).1 (wf_nwords_le h)

theorem wf_bit_width {L : Layout} (h : L.WF) {f : Field} (hf : f ∈ L.bitFields) : f.width = 1 := h.1.2.2 f hf

theorem disjoint_symm {f g : Field} (h : f.Disjoint g) : g.Disjoint f := by
  unfold Field.Disjoint at *; omega

/-- Two different present fields of a well-formed layout share no bit (R99 (b)). -/
theorem wf_disjoint {L : Layout} (h : L.WF) {f g : Field} (hf : f ∈ L.fields) (hg : g ∈ L.fields) (hn : f ≠ g) :
    f.Disjoint g :=
  have : Std.Symm Field.Disjoint := ⟨fun _ _ => disjoint_symm⟩
  h.2.2.1.forall hf hg hn

theorem param_mem_fields {L : Layout} {f : Field} (h : f ∈ L.paramFields) : f ∈ L.fields :=
  List.mem_append_left _ h

theorem bit_mem_fields {L : Layout} {f : Field} (h : f ∈ L.bitFields) : f ∈ L.fields :=
  List.mem_append_right _ h

theorem divRef_mem (L : Layout) : L.divRef ∈ L.paramFields := by simp [Layout.paramFields]
theorem loopc_mem (L : Layout) : L.loopc ∈ L.paramFields := by simp [Layout.paramFields]
theorem divOut_mem (L : Layout) : L.divOut ∈ L.paramFields := by simp [Layout.paramFields]
theorem locked_mem (L : Layout) : L.locked ∈ L.bitFields := by simp [Layout.bitFields]
theorem bypass_mem (L : Layout) : L.bypass ∈ L.bitFields := by simp [Layout.bitFields]
theorem powerdown_mem (L : Layout) : L.powerdown ∈ L.bitFields := by simp [Layout.bitFields]
theorem selOut_mem {L : Layout} {f : Field} (h : L.selOut = some f) : f ∈ L.bitFields := by
  simp [Layout.bitFields, h]
theorem setParam_mem {L : Layout} {f : Field} (h : L.setParam = some f) : f ∈ L.bitFields := by
  simp [Layout.bitFields, h]

/-- The named fields of a well-formed layout are pairwise disjoint, position by position. -/
theorem wf_pairwise {L : Layout} (h : L.WF) :
    L.fields.Pairwise Field.Disjoint := h.2.2.1

/-- The reference configuration is admissible (R99, R71; 95_test_vectors 2.3). -/
theorem hw_wf : hw.WF := by decide

/-- Every variant of an admissible configuration is well-formed. -/
theorem wf_variant {cfg : Config} (h : cfg.WF) (v : BitVec 2) : (cfg.variant v).WF := by
  apply h.1
  unfold Config.variant Config.variants
  split
  · simp
  · split
    · simp
    · split <;> simp

theorem wf_layout {cfg : Config} (h : cfg.WF) (s : State) : (s.layout cfg).WF := (wf_variant h _).1

end Sys2Proof.Machine
end

