-- ==== Sys2Proof/Laws/State.lean ====
section
/-! SUPPORT. One lemma per field per update of State: what the field holds after the update. -/

namespace Sys2Proof.Machine

/-! ### respond -/

@[simp] theorem respond_handle (st : Status) (r0 r1 r2 r3 : Option Word) (s : State) :
    (respond st r0 r1 r2 r3 s).handle =
      s.handle := rfl
@[simp] theorem respond_cache (st : Status) (r0 r1 r2 r3 : Option Word) (s : State) :
    (respond st r0 r1 r2 r3 s).cache =
      s.cache := rfl
@[simp] theorem respond_cmd (st : Status) (r0 r1 r2 r3 : Option Word) (s : State) :
    (respond st r0 r1 r2 r3 s).cmd =
      s.cmd := rfl
@[simp] theorem respond_rsp (st : Status) (r0 r1 r2 r3 : Option Word) (s : State) :
    (respond st r0 r1 r2 r3 s).rsp =
      ⟨st, r0.getD s.rsp.res0, r1.getD s.rsp.res1, r2.getD s.rsp.res2, r3.getD s.rsp.res3, true⟩ := rfl
@[simp] theorem respond_seq (st : Status) (r0 r1 r2 r3 : Option Word) (s : State) :
    (respond st r0 r1 r2 r3 s).seq =
      { s.seq with fsm := .idle, sub := 0 } := rfl
@[simp] theorem respond_search (st : Status) (r0 r1 r2 r3 : Option Word) (s : State) :
    (respond st r0 r1 r2 r3 s).search =
      s.search := rfl
@[simp] theorem respond_pll (st : Status) (r0 r1 r2 r3 : Option Word) (s : State) :
    (respond st r0 r1 r2 r3 s).pll =
      s.pll := rfl
@[simp] theorem respond_settled (st : Status) (r0 r1 r2 r3 : Option Word) (s : State) :
    (respond st r0 r1 r2 r3 s).settled =
      s.settled := rfl
@[simp] theorem respond_trace (st : Status) (r0 r1 r2 r3 : Option Word) (s : State) :
    (respond st r0 r1 r2 r3 s).trace =
      s.trace := rfl
@[simp] theorem respond_env (st : Status) (r0 r1 r2 r3 : Option Word) (s : State) :
    (respond st r0 r1 r2 r3 s).env =
      s.env := rfl
@[simp] theorem respond_layout (cfg : Config) (st : Status) (r0 r1 r2 r3 : Option Word) (s : State) :
    (respond st r0 r1 r2 r3 s).layout cfg = s.layout cfg := rfl

/-! ### accept -/

@[simp] theorem accept_handle (w : CommandWord) (s : State) : (accept w s).handle = s.handle := rfl
@[simp] theorem accept_cache (w : CommandWord) (s : State) : (accept w s).cache = s.cache := rfl
@[simp] theorem accept_cmd (w : CommandWord) (s : State) :
    (accept w s).cmd =
      ⟨opField w, aField w, bField w, cField w⟩ := rfl
@[simp] theorem accept_rsp (w : CommandWord) (s : State) : (accept w s).rsp = s.rsp := rfl
@[simp] theorem accept_seq (w : CommandWord) (s : State) : (accept w s).seq = s.seq := rfl
@[simp] theorem accept_search (w : CommandWord) (s : State) : (accept w s).search = s.search := rfl
@[simp] theorem accept_pll (w : CommandWord) (s : State) : (accept w s).pll = s.pll := rfl
@[simp] theorem accept_settled (w : CommandWord) (s : State) : (accept w s).settled = s.settled := rfl
@[simp] theorem accept_trace (w : CommandWord) (s : State) : (accept w s).trace = s.trace := rfl
@[simp] theorem accept_env (w : CommandWord) (s : State) : (accept w s).env = s.env := rfl
@[simp] theorem accept_layout (cfg : Config) (w : CommandWord) (s : State) :
    (accept w s).layout cfg = s.layout cfg := rfl

/-! ### resetCore -/

@[simp] theorem resetCore_handle (s : State) : (resetCore s).handle = ⟨false, 0, 0, 0⟩ := rfl
@[simp] theorem resetCore_cache (s : State) : (resetCore s).cache = ⟨false, ClockParams.zero⟩ := rfl
@[simp] theorem resetCore_cmd (s : State) : (resetCore s).cmd = ⟨0, 0, 0, 0⟩ := rfl
@[simp] theorem resetCore_rsp (s : State) : (resetCore s).rsp = ⟨.ok, 0, 0, 0, 0, false⟩ := rfl
@[simp] theorem resetCore_seq (s : State) : (resetCore s).seq = Sequencer.zero := rfl
@[simp] theorem resetCore_search (s : State) : (resetCore s).search = SearchRegs.zero := rfl
@[simp] theorem resetCore_pll (s : State) : (resetCore s).pll = s.pll := rfl
@[simp] theorem resetCore_settled (s : State) : (resetCore s).settled = s.settled := rfl
@[simp] theorem resetCore_trace (s : State) : (resetCore s).trace = s.trace := rfl
@[simp] theorem resetCore_env (s : State) : (resetCore s).env = s.env := rfl

/-! ### moveTo -/

@[simp] theorem moveTo_handle (q : Fsm) (s : State) : (State.moveTo q s).handle = s.handle := rfl
@[simp] theorem moveTo_cache (q : Fsm) (s : State) : (State.moveTo q s).cache = s.cache := rfl
@[simp] theorem moveTo_cmd (q : Fsm) (s : State) : (State.moveTo q s).cmd = s.cmd := rfl
@[simp] theorem moveTo_rsp (q : Fsm) (s : State) : (State.moveTo q s).rsp = s.rsp := rfl
@[simp] theorem moveTo_seq (q : Fsm) (s : State) : (State.moveTo q s).seq = { s.seq with fsm := q, sub := 0 } := rfl
@[simp] theorem moveTo_search (q : Fsm) (s : State) : (State.moveTo q s).search = s.search := rfl
@[simp] theorem moveTo_pll (q : Fsm) (s : State) : (State.moveTo q s).pll = s.pll := rfl
@[simp] theorem moveTo_settled (q : Fsm) (s : State) : (State.moveTo q s).settled = s.settled := rfl
@[simp] theorem moveTo_trace (q : Fsm) (s : State) : (State.moveTo q s).trace = s.trace := rfl
@[simp] theorem moveTo_env (q : Fsm) (s : State) : (State.moveTo q s).env = s.env := rfl
@[simp] theorem moveTo_layout (cfg : Config) (q : Fsm) (s : State) :
    (State.moveTo q s).layout cfg = s.layout cfg := rfl

/-! ### nextSub -/

@[simp] theorem nextSub_handle (s : State) : (State.nextSub s).handle = s.handle := rfl
@[simp] theorem nextSub_cache (s : State) : (State.nextSub s).cache = s.cache := rfl
@[simp] theorem nextSub_cmd (s : State) : (State.nextSub s).cmd = s.cmd := rfl
@[simp] theorem nextSub_rsp (s : State) : (State.nextSub s).rsp = s.rsp := rfl
@[simp] theorem nextSub_seq (s : State) : (State.nextSub s).seq = { s.seq with sub := s.seq.sub + 1 } := rfl
@[simp] theorem nextSub_search (s : State) : (State.nextSub s).search = s.search := rfl
@[simp] theorem nextSub_pll (s : State) : (State.nextSub s).pll = s.pll := rfl
@[simp] theorem nextSub_settled (s : State) : (State.nextSub s).settled = s.settled := rfl
@[simp] theorem nextSub_trace (s : State) : (State.nextSub s).trace = s.trace := rfl
@[simp] theorem nextSub_env (s : State) : (State.nextSub s).env = s.env := rfl
@[simp] theorem nextSub_layout (cfg : Config) (s : State) :
    (State.nextSub s).layout cfg = s.layout cfg := rfl

/-! ### record -/

@[simp] theorem record_handle (e : PortEvent) (s : State) : (State.record e s).handle = s.handle := rfl
@[simp] theorem record_cache (e : PortEvent) (s : State) : (State.record e s).cache = s.cache := rfl
@[simp] theorem record_cmd (e : PortEvent) (s : State) : (State.record e s).cmd = s.cmd := rfl
@[simp] theorem record_rsp (e : PortEvent) (s : State) : (State.record e s).rsp = s.rsp := rfl
@[simp] theorem record_seq (e : PortEvent) (s : State) : (State.record e s).seq = s.seq := rfl
@[simp] theorem record_search (e : PortEvent) (s : State) : (State.record e s).search = s.search := rfl
@[simp] theorem record_pll (e : PortEvent) (s : State) : (State.record e s).pll = s.pll := rfl
@[simp] theorem record_settled (e : PortEvent) (s : State) : (State.record e s).settled = s.settled := rfl
@[simp] theorem record_trace (e : PortEvent) (s : State) : (State.record e s).trace = e :: s.trace := rfl
@[simp] theorem record_env (e : PortEvent) (s : State) : (State.record e s).env = s.env := rfl
@[simp] theorem record_layout (cfg : Config) (e : PortEvent) (s : State) :
    (State.record e s).layout cfg = s.layout cfg := rfl

/-! ### readEffect -/

@[simp] theorem readEffect_handle (cfg : Config) (i : Nat) (s : State) : (readEffect cfg i s).handle = s.handle := rfl
@[simp] theorem readEffect_cache (cfg : Config) (i : Nat) (s : State) : (readEffect cfg i s).cache = s.cache := rfl
@[simp] theorem readEffect_cmd (cfg : Config) (i : Nat) (s : State) : (readEffect cfg i s).cmd = s.cmd := rfl
@[simp] theorem readEffect_rsp (cfg : Config) (i : Nat) (s : State) : (readEffect cfg i s).rsp = s.rsp := rfl
@[simp] theorem readEffect_seq (cfg : Config) (i : Nat) (s : State) :
    (readEffect cfg i s).seq =
      { s.seq with read := s.seq.read.set i (s.readValue cfg i) } := rfl
@[simp] theorem readEffect_search (cfg : Config) (i : Nat) (s : State) : (readEffect cfg i s).search = s.search := rfl
@[simp] theorem readEffect_pll (cfg : Config) (i : Nat) (s : State) : (readEffect cfg i s).pll = s.pll := rfl
@[simp] theorem readEffect_settled (cfg : Config) (i : Nat) (s : State) :
    (readEffect cfg i s).settled =
      s.settled := rfl
@[simp] theorem readEffect_trace (cfg : Config) (i : Nat) (s : State) :
    (readEffect cfg i s).trace =
      .read i (s.busAddr i) (s.readValue cfg i) :: s.trace := rfl
@[simp] theorem readEffect_env (cfg : Config) (i : Nat) (s : State) :
    (readEffect cfg i s).env =
      { s.env with lockPos := if i = (s.layout cfg).locked.word then s.env.lockPos + 1 else s.env.lockPos } := rfl
@[simp] theorem readEffect_layout (cfg : Config) (i : Nat) (s : State) (cfg1 : Config) :
    (readEffect cfg i s).layout cfg1 = s.layout cfg1 := rfl

/-! ### writeEffect -/

@[simp] theorem writeEffect_handle (cfg : Config) (i : Nat) (v : Word) (s : State) :
    (writeEffect cfg i v s).handle =
      s.handle := rfl
@[simp] theorem writeEffect_cache (cfg : Config) (i : Nat) (v : Word) (s : State) :
    (writeEffect cfg i v s).cache =
      s.cache := rfl
@[simp] theorem writeEffect_cmd (cfg : Config) (i : Nat) (v : Word) (s : State) :
    (writeEffect cfg i v s).cmd =
      s.cmd := rfl
@[simp] theorem writeEffect_rsp (cfg : Config) (i : Nat) (v : Word) (s : State) :
    (writeEffect cfg i v s).rsp =
      s.rsp := rfl
@[simp] theorem writeEffect_seq (cfg : Config) (i : Nat) (v : Word) (s : State) :
    (writeEffect cfg i v s).seq =
      s.seq := rfl
@[simp] theorem writeEffect_search (cfg : Config) (i : Nat) (v : Word) (s : State) :
    (writeEffect cfg i v s).search =
      s.search := rfl
@[simp] theorem writeEffect_pll (cfg : Config) (i : Nat) (v : Word) (s : State) :
    (writeEffect cfg i v s).pll =
      s.pll.write (s.layout cfg) i v := rfl
@[simp] theorem writeEffect_settled (cfg : Config) (i : Nat) (v : Word) (s : State) :
    (writeEffect cfg i v s).settled =
      s.settled := rfl
@[simp] theorem writeEffect_trace (cfg : Config) (i : Nat) (v : Word) (s : State) :
    (writeEffect cfg i v s).trace =
      .write i (s.busAddr i) v :: s.trace := rfl
@[simp] theorem writeEffect_env (cfg : Config) (i : Nat) (v : Word) (s : State) :
    (writeEffect cfg i v s).env =
      s.env := rfl
@[simp] theorem writeEffect_layout (cfg : Config) (i : Nat) (v : Word) (s : State) (cfg1 : Config) :
    (writeEffect cfg i v s).layout cfg1 = s.layout cfg1 := rfl

/-! ### startWait -/

@[simp] theorem startWait_handle (s : State) : (startWait s).handle = s.handle := rfl
@[simp] theorem startWait_cache (s : State) : (startWait s).cache = s.cache := rfl
@[simp] theorem startWait_cmd (s : State) : (startWait s).cmd = s.cmd := rfl
@[simp] theorem startWait_rsp (s : State) : (startWait s).rsp = s.rsp := rfl
@[simp] theorem startWait_seq (s : State) :
    (startWait s).seq =
      { s.seq with lockIters := 0, fsm := .waitingLock, sub := 0 } := rfl
@[simp] theorem startWait_search (s : State) : (startWait s).search = s.search := rfl
@[simp] theorem startWait_pll (s : State) : (startWait s).pll = s.pll := rfl
@[simp] theorem startWait_settled (s : State) : (startWait s).settled = s.settled := rfl
@[simp] theorem startWait_trace (s : State) : (startWait s).trace = s.trace := rfl
@[simp] theorem startWait_env (s : State) : (startWait s).env = s.env := rfl
@[simp] theorem startWait_layout (cfg : Config) (s : State) :
    (startWait s).layout cfg = s.layout cfg := rfl

/-! ### unsettle -/

@[simp] theorem unsettle_handle (s : State) : (unsettle s).handle = s.handle := rfl
@[simp] theorem unsettle_cache (s : State) : (unsettle s).cache = s.cache := rfl
@[simp] theorem unsettle_cmd (s : State) : (unsettle s).cmd = s.cmd := rfl
@[simp] theorem unsettle_rsp (s : State) : (unsettle s).rsp = s.rsp := rfl
@[simp] theorem unsettle_seq (s : State) : (unsettle s).seq = s.seq := rfl
@[simp] theorem unsettle_search (s : State) : (unsettle s).search = s.search := rfl
@[simp] theorem unsettle_pll (s : State) : (unsettle s).pll = s.pll := rfl
@[simp] theorem unsettle_settled (s : State) : (unsettle s).settled = false := rfl
@[simp] theorem unsettle_trace (s : State) : (unsettle s).trace = s.trace := rfl
@[simp] theorem unsettle_env (s : State) : (unsettle s).env = s.env := rfl
@[simp] theorem unsettle_layout (cfg : Config) (s : State) :
    (unsettle s).layout cfg = s.layout cfg := rfl

/-! ### complete -/

@[simp] theorem complete_handle (p : ClockParams) (s : State) : (complete p s).handle = s.handle := rfl
@[simp] theorem complete_cache (p : ClockParams) (s : State) : (complete p s).cache = ⟨true, p⟩ := rfl
@[simp] theorem complete_cmd (p : ClockParams) (s : State) : (complete p s).cmd = s.cmd := rfl
@[simp] theorem complete_rsp (p : ClockParams) (s : State) :
    (complete p s).rsp =
      ⟨if s.seq.lockTimeout then .warnLockTimeout else .ok, s.rsp.res0, s.rsp.res1, s.rsp.res2, s.seq.lockIters.setWidth 32, true⟩ := rfl
@[simp] theorem complete_seq (p : ClockParams) (s : State) :
    (complete p s).seq =
      { s.seq with fsm := .idle, sub := 0 } := rfl
@[simp] theorem complete_search (p : ClockParams) (s : State) : (complete p s).search = s.search := rfl
@[simp] theorem complete_pll (p : ClockParams) (s : State) : (complete p s).pll = s.pll := rfl
@[simp] theorem complete_settled (p : ClockParams) (s : State) : (complete p s).settled = !s.seq.lockTimeout := rfl
@[simp] theorem complete_trace (p : ClockParams) (s : State) : (complete p s).trace = s.trace := rfl
@[simp] theorem complete_env (p : ClockParams) (s : State) : (complete p s).env = s.env := rfl
@[simp] theorem complete_layout (cfg : Config) (p : ClockParams) (s : State) :
    (complete p s).layout cfg = s.layout cfg := rfl

/-! ### requestMap -/

@[simp] theorem requestMap_handle (cfg : Config) (a b : Word) (s : State) :
    (requestMap cfg a b s).handle =
      s.handle := rfl
@[simp] theorem requestMap_cache (cfg : Config) (a b : Word) (s : State) : (requestMap cfg a b s).cache = s.cache := rfl
@[simp] theorem requestMap_cmd (cfg : Config) (a b : Word) (s : State) : (requestMap cfg a b s).cmd = s.cmd := rfl
@[simp] theorem requestMap_rsp (cfg : Config) (a b : Word) (s : State) : (requestMap cfg a b s).rsp = s.rsp := rfl
@[simp] theorem requestMap_seq (cfg : Config) (a b : Word) (s : State) : (requestMap cfg a b s).seq = s.seq := rfl
@[simp] theorem requestMap_search (cfg : Config) (a b : Word) (s : State) :
    (requestMap cfg a b s).search =
      s.search := rfl
@[simp] theorem requestMap_pll (cfg : Config) (a b : Word) (s : State) : (requestMap cfg a b s).pll = s.pll := rfl
@[simp] theorem requestMap_settled (cfg : Config) (a b : Word) (s : State) :
    (requestMap cfg a b s).settled =
      s.settled := rfl
@[simp] theorem requestMap_trace (cfg : Config) (a b : Word) (s : State) :
    (requestMap cfg a b s).trace =
      .mapReq a (4 * (cfg.variant (b.setWidth 2)).layout.nwords) :: s.trace := rfl
@[simp] theorem requestMap_env (cfg : Config) (a b : Word) (s : State) :
    (requestMap cfg a b s).env =
      { s.env with grantPos := s.env.grantPos + 1 } := rfl
@[simp] theorem requestMap_layout (cfg : Config) (a b : Word) (s : State) (cfg1 : Config) :
    (requestMap cfg a b s).layout cfg1 = s.layout cfg1 := rfl

/-! ### fillHandle -/

@[simp] theorem fillHandle_handle (a b c : Word) (s : State) :
    (fillHandle a b c s).handle =
      ⟨true, a, b.setWidth 2, c⟩ := rfl
@[simp] theorem fillHandle_cache (a b c : Word) (s : State) :
    (fillHandle a b c s).cache =
      { s.cache with valid := false } := rfl
@[simp] theorem fillHandle_cmd (a b c : Word) (s : State) : (fillHandle a b c s).cmd = s.cmd := rfl
@[simp] theorem fillHandle_rsp (a b c : Word) (s : State) : (fillHandle a b c s).rsp = s.rsp := rfl
@[simp] theorem fillHandle_seq (a b c : Word) (s : State) : (fillHandle a b c s).seq = s.seq := rfl
@[simp] theorem fillHandle_search (a b c : Word) (s : State) : (fillHandle a b c s).search = s.search := rfl
@[simp] theorem fillHandle_pll (a b c : Word) (s : State) : (fillHandle a b c s).pll = s.pll := rfl
@[simp] theorem fillHandle_settled (a b c : Word) (s : State) : (fillHandle a b c s).settled = s.settled := rfl
@[simp] theorem fillHandle_trace (a b c : Word) (s : State) : (fillHandle a b c s).trace = s.trace := rfl
@[simp] theorem fillHandle_env (a b c : Word) (s : State) : (fillHandle a b c s).env = s.env := rfl

/-! ### endPulse -/

@[simp] theorem endPulse_handle (s : State) : (endPulse s).handle = s.handle := rfl
@[simp] theorem endPulse_cache (s : State) : (endPulse s).cache = s.cache := rfl
@[simp] theorem endPulse_cmd (s : State) : (endPulse s).cmd = s.cmd := rfl
@[simp] theorem endPulse_rsp (s : State) : (endPulse s).rsp = { s.rsp with valid := false } := rfl
@[simp] theorem endPulse_seq (s : State) : (endPulse s).seq = s.seq := rfl
@[simp] theorem endPulse_search (s : State) : (endPulse s).search = s.search := rfl
@[simp] theorem endPulse_pll (s : State) : (endPulse s).pll = s.pll := rfl
@[simp] theorem endPulse_settled (s : State) : (endPulse s).settled = s.settled := rfl
@[simp] theorem endPulse_trace (s : State) : (endPulse s).trace = s.trace := rfl
@[simp] theorem endPulse_env (s : State) : (endPulse s).env = s.env := rfl
@[simp] theorem endPulse_layout (cfg : Config) (s : State) :
    (endPulse s).layout cfg = s.layout cfg := rfl

/-! ### withHost -/

@[simp] theorem withHost_handle (inputs : List HostInput) (s : State) : (withHost inputs s).handle = s.handle := rfl
@[simp] theorem withHost_cache (inputs : List HostInput) (s : State) : (withHost inputs s).cache = s.cache := rfl
@[simp] theorem withHost_cmd (inputs : List HostInput) (s : State) : (withHost inputs s).cmd = s.cmd := rfl
@[simp] theorem withHost_rsp (inputs : List HostInput) (s : State) : (withHost inputs s).rsp = s.rsp := rfl
@[simp] theorem withHost_seq (inputs : List HostInput) (s : State) : (withHost inputs s).seq = s.seq := rfl
@[simp] theorem withHost_search (inputs : List HostInput) (s : State) : (withHost inputs s).search = s.search := rfl
@[simp] theorem withHost_pll (inputs : List HostInput) (s : State) : (withHost inputs s).pll = s.pll := rfl
@[simp] theorem withHost_settled (inputs : List HostInput) (s : State) : (withHost inputs s).settled = s.settled := rfl
@[simp] theorem withHost_trace (inputs : List HostInput) (s : State) : (withHost inputs s).trace = s.trace := rfl
@[simp] theorem withHost_env (inputs : List HostInput) (s : State) :
    (withHost inputs s).env =
      { s.env with host := inputs } := rfl
@[simp] theorem withHost_layout (cfg : Config) (inputs : List HostInput) (s : State) :
    (withHost inputs s).layout cfg = s.layout cfg := rfl

/-! ### presentWord -/

@[simp] theorem presentWord_handle (w : CommandWord) (s : State) : (presentWord w s).handle = s.handle := rfl
@[simp] theorem presentWord_cache (w : CommandWord) (s : State) : (presentWord w s).cache = s.cache := rfl
@[simp] theorem presentWord_cmd (w : CommandWord) (s : State) : (presentWord w s).cmd = s.cmd := rfl
@[simp] theorem presentWord_rsp (w : CommandWord) (s : State) : (presentWord w s).rsp = s.rsp := rfl
@[simp] theorem presentWord_seq (w : CommandWord) (s : State) :
    (presentWord w s).seq =
      { s.seq with fsm := .idle, sub := 0 } := rfl
@[simp] theorem presentWord_search (w : CommandWord) (s : State) : (presentWord w s).search = s.search := rfl
@[simp] theorem presentWord_pll (w : CommandWord) (s : State) : (presentWord w s).pll = s.pll := rfl
@[simp] theorem presentWord_settled (w : CommandWord) (s : State) : (presentWord w s).settled = s.settled := rfl
@[simp] theorem presentWord_trace (w : CommandWord) (s : State) : (presentWord w s).trace = s.trace := rfl
@[simp] theorem presentWord_env (w : CommandWord) (s : State) :
    (presentWord w s).env =
      { s.env with host := .command w :: s.env.host, fine := false } := rfl
@[simp] theorem presentWord_layout (cfg : Config) (w : CommandWord) (s : State) :
    (presentWord w s).layout cfg = s.layout cfg := rfl

/-! ### respondSearch -/

@[simp] theorem respondSearch_handle (r : SearchRegs) (s : State) : (respondSearch r s).handle = s.handle := rfl
@[simp] theorem respondSearch_cache (r : SearchRegs) (s : State) : (respondSearch r s).cache = s.cache := rfl
@[simp] theorem respondSearch_cmd (r : SearchRegs) (s : State) : (respondSearch r s).cmd = s.cmd := rfl
@[simp] theorem respondSearch_rsp (r : SearchRegs) (s : State) :
    (respondSearch r s).rsp =
      ⟨r.verdict, r.best.divRef, r.best.loopc, r.best.divOut, r.bestDiff, true⟩ := rfl
@[simp] theorem respondSearch_seq (r : SearchRegs) (s : State) :
    (respondSearch r s).seq =
      { s.seq with fsm := .idle, sub := 0 } := rfl
@[simp] theorem respondSearch_search (r : SearchRegs) (s : State) : (respondSearch r s).search = r := rfl
@[simp] theorem respondSearch_pll (r : SearchRegs) (s : State) : (respondSearch r s).pll = s.pll := rfl
@[simp] theorem respondSearch_settled (r : SearchRegs) (s : State) : (respondSearch r s).settled = s.settled := rfl
@[simp] theorem respondSearch_trace (r : SearchRegs) (s : State) : (respondSearch r s).trace = s.trace := rfl
@[simp] theorem respondSearch_env (r : SearchRegs) (s : State) : (respondSearch r s).env = s.env := rfl
@[simp] theorem respondSearch_layout (cfg : Config) (r : SearchRegs) (s : State) :
    (respondSearch r s).layout cfg = s.layout cfg := rfl

end Sys2Proof.Machine
end

