-- ==== Sys2Proof/Laws/Ops.lean ====
section
/-! SUPPORT. One lemma per shared operation: what it can answer and everything it changes. -/

namespace Sys2Proof.Machine

/-! ### Outcomes -/

@[simp] theorem andThen_next (s : State) (f : State → Outcome) : andThen (.next s) f = f s := rfl

theorem andThen_eq_next {o : Outcome} {f : State → Outcome} {t : State} :
    andThen o f = .next t ↔ ∃ s, o = .next s ∧ f s = .next t := by
  cases o <;> simp [andThen]

theorem andThen_assoc (o : Outcome) (f g : State → Outcome) :
    andThen (andThen o f) g = andThen o fun s => andThen (f s) g := by
  cases o <;> rfl

theorem next_inj {s t : State} (h : (Host.Outcome.next s : Outcome) = .next t) : s = t := by
  cases h; rfl

theorem raise_eq (st : Status) (s : State) :
    raise st s =
      .next
        { s with
          rsp := { s.rsp with status := st, valid := true }
          seq := { s.seq with fsm := .idle, sub := 0 } } := rfl

/-! ### What bus traffic leaves alone -/

/-- Everything but the PLL target, the read latch, the trace and the two counters of the outside is as before, and the new
port events are bus transactions. -/
structure BusFrame (s t : State) : Prop where
  handle : t.handle = s.handle
  cache : t.cache = s.cache
  cmd : t.cmd = s.cmd
  rsp : t.rsp = s.rsp
  search : t.search = s.search
  settled : t.settled = s.settled
  seq : t.seq = { s.seq with read := t.seq.read }
  env : t.env = { s.env with lockPos := t.env.lockPos, busCount := t.env.busCount }
  trace : ∃ new, t.trace = new ++ s.trace ∧ ∀ e ∈ new, e.isBus = true

theorem BusFrame.refl (s : State) : BusFrame s s :=
  ⟨rfl, rfl, rfl, rfl, rfl, rfl, rfl, rfl, [], rfl, by simp⟩

theorem BusFrame.trans {s t u : State} (h : BusFrame s t) (k : BusFrame t u) : BusFrame s u := by
  obtain ⟨n1, e1, b1⟩ := h.trace
  obtain ⟨n2, e2, b2⟩ := k.trace
  refine ⟨k.handle.trans h.handle, k.cache.trans h.cache, k.cmd.trans h.cmd, k.rsp.trans h.rsp,
    k.search.trans h.search, k.settled.trans h.settled, ?_, ?_, n2 ++ n1, by rw [e2, e1, List.append_assoc], ?_⟩
  · rw [k.seq, h.seq]
  · rw [k.env, h.env]
  · intro e he
    rcases List.mem_append.1 he with he | he
    · exact b2 e he
    · exact b1 e he

theorem BusFrame.layout {s t : State} (h : BusFrame s t) (cfg : Config) : t.layout cfg = s.layout cfg := by
  unfold State.layout; rw [h.handle]

theorem BusFrame.live {s t : State} (h : BusFrame s t) (hl : s.Live) : t.Live := by
  unfold State.Live at *; rw [h.env]; exact hl

theorem BusFrame.inAddressSpace {s t : State} (h : BusFrame s t) (i : Nat) : t.inAddressSpace i = s.inAddressSpace i := by
  unfold State.inAddressSpace; rw [h.handle]

theorem BusFrame.lockAt {s t : State} (h : BusFrame s t) (n : Nat) : t.env.lockAt n = s.env.lockAt n := by
  rw [h.env]; rfl

/-! ### Bus transactions -/

/-- The state in which one more transaction has been acknowledged. -/
def State.counted (s : State) : State := { s with env := { s.env with busCount := s.env.busCount + 1 } }

@[simp] theorem counted_handle (s : State) : s.counted.handle = s.handle := rfl
@[simp] theorem counted_cache (s : State) : s.counted.cache = s.cache := rfl
@[simp] theorem counted_cmd (s : State) : s.counted.cmd = s.cmd := rfl
@[simp] theorem counted_rsp (s : State) : s.counted.rsp = s.rsp := rfl
@[simp] theorem counted_seq (s : State) : s.counted.seq = s.seq := rfl
@[simp] theorem counted_search (s : State) : s.counted.search = s.search := rfl
@[simp] theorem counted_pll (s : State) : s.counted.pll = s.pll := rfl
@[simp] theorem counted_settled (s : State) : s.counted.settled = s.settled := rfl
@[simp] theorem counted_trace (s : State) : s.counted.trace = s.trace := rfl
@[simp] theorem counted_layout (cfg : Config) (s : State) : s.counted.layout cfg = s.layout cfg := rfl
@[simp] theorem counted_readValue (cfg : Config) (i : Nat) (s : State) :
    s.counted.readValue cfg i = s.readValue cfg i := rfl

theorem busTransaction_eq_next {i : Nat} {act : State → State} {s t : State} (h : busTransaction i act s = .next t) :
    s.inAddressSpace i = true ∧ s.env.busDead = false ∧ t = act s.counted := by
  unfold busTransaction at h
  split at h
  · split at h
    · cases h
    · rename_i h1 h2
      exact ⟨h1, by simpa using h2, (next_inj h).symm⟩
  · cases h

theorem busTransaction_live {i : Nat} {act : State → State} {s : State} (hl : s.Live) (ha : s.inAddressSpace i = true) :
    busTransaction i act s = .next (act s.counted) := by
  have hd : s.env.busDead = false := by simp [Env.busDead, hl.1]
  simp [busTransaction, ha, hd, State.counted]

theorem busRead_eq_next {cfg : Config} {i : Nat} {s t : State} (h : busRead cfg i s = .next t) :
    t = readEffect cfg i s.counted := (busTransaction_eq_next h).2.2

theorem busWrite_eq_next {cfg : Config} {i : Nat} {v : Word} {s t : State} (h : busWrite cfg i v s = .next t) :
    t = writeEffect cfg i v s.counted := (busTransaction_eq_next h).2.2

theorem busRead_live {cfg : Config} {i : Nat} {s : State} (hl : s.Live) (ha : s.inAddressSpace i = true) :
    busRead cfg i s = .next (readEffect cfg i s.counted) := busTransaction_live hl ha

theorem busWrite_live {cfg : Config} {i : Nat} {v : Word} {s : State} (hl : s.Live) (ha : s.inAddressSpace i = true) :
    busWrite cfg i v s = .next (writeEffect cfg i v s.counted) := busTransaction_live hl ha

theorem readEffect_frame (cfg : Config) (i : Nat) (s : State) : BusFrame s (readEffect cfg i s.counted) :=
  ⟨rfl, rfl, rfl, rfl, rfl, rfl, rfl, rfl, [.read i (s.busAddr i) (s.readValue cfg i)], rfl,
    by intro e he; rw [List.mem_singleton.1 he]; rfl⟩

theorem writeEffect_frame (cfg : Config) (i : Nat) (v : Word) (s : State) : BusFrame s (writeEffect cfg i v s.counted) :=
  ⟨rfl, rfl, rfl, rfl, rfl, rfl, rfl, rfl, [.write i (s.busAddr i) v], rfl,
    by intro e he; rw [List.mem_singleton.1 he]; rfl⟩

theorem busRead_frame {cfg : Config} {i : Nat} {s t : State} (h : busRead cfg i s = .next t) : BusFrame s t := by
  rw [busRead_eq_next h]; exact readEffect_frame cfg i s

theorem busWrite_frame {cfg : Config} {i : Nat} {v : Word} {s t : State} (h : busWrite cfg i v s = .next t) :
    BusFrame s t := by
  rw [busWrite_eq_next h]; exact writeEffect_frame cfg i v s

/-- A window inside the address space has every word inside it (R76). -/
theorem inAddressSpace_of_window {cfg : Config} {s : State} (h : s.WindowInside cfg) {i : Nat}
    (hi : i < (s.layout cfg).nwords) : s.inAddressSpace i = true := by
  simp only [State.inAddressSpace, decide_eq_true_eq]
  unfold State.WindowInside at h
  omega

/-! ### The PLL target -/

/-- What a read returns, as a stored value (R65, R66): the word of the target, `locked` apart. -/
theorem storedValue_readValue (cfg : Config) (s : State) (i : Nat) :
    storedValue (s.layout cfg) i (s.readValue cfg i) = storedValue (s.layout cfg) i (s.pll.words.get i) := by
  unfold storedValue State.readValue PllTarget.value
  split
  · apply BitVec.eq_of_getLsbD_eq
    intro k hk
    simp only [getLsbD_insert _ _ _ _ hk]
    split <;> rfl
  · rfl

/-- A present field other than `locked` of a stored value is the field of the value. -/
theorem extract_storedValue {L : Layout} (hL : L.WF) {f : Field} (hf : f ∈ L.fields) (hn : f ≠ L.locked) (v : Word) :
    extract (storedValue L f.word v) f = extract v f := by
  unfold storedValue
  split
  · rename_i hw
    have hd := wf_disjoint hL hf (bit_mem_fields (locked_mem L)) hn
    apply extract_insert_other
    rcases hd with hd | hd | hd
    · exact absurd hw hd
    · exact Or.inr hd
    · exact Or.inl hd
  · rfl

/-- The bits outside `locked` are stored as written (R65). -/
theorem getLsbD_storedValue (L : Layout) (i : Nat) (v : Word) (k : Nat) (h : ¬ Field.Holds L.locked i k) :
    (storedValue L i v).getLsbD k = v.getLsbD k := by
  unfold storedValue
  split
  · rename_i hw
    apply getLsbD_insert_outside
    intro hb
    exact h ⟨hw.symm, hb.1, hb.2⟩
  · rfl

theorem write_words (L : Layout) (i : Nat) (v : Word) (t : PllTarget) :
    (t.write L i v).words = t.words.set i (storedValue L i v) := rfl

/-- Inside a well-formed layout the stored `locked` bit is 0 after a write (R64, R65). -/
theorem storedValue_locked {L : Layout} (hL : L.WF) (v : Word) :
    extract (storedValue L L.locked.word v) L.locked = 0 := by
  rw [storedValue, if_pos rfl, extract_insert_same _ _ _ (wf_inside hL (bit_mem_fields (locked_mem L))).2]
  simp

/-- A write of any word keeps the stored `locked` bit 0 (R64). -/
theorem write_keeps_locked {L : Layout} (hL : L.WF) {i : Nat} (hi : i < L.nwords) (v : Word) {t : PllTarget}
    (h : readField t.words L.locked = 0) : readField (t.write L i v).words L.locked = 0 := by
  have hw := wf_word_lt hL (bit_mem_fields (locked_mem L))
  rw [readField, write_words]
  by_cases e : L.locked.word = i
  · rw [← e, RegWords.get_set_same]; exact storedValue_locked hL v
  · rw [RegWords.get_set_other _ _ _ _ (Nat.lt_of_lt_of_le hi (wf_nwords_le hL)) hw e]; exact h

/-- At power-on the stored `locked` bit of the board's layout is 0 (R64). -/
theorem powerOn_locked {cfg : Config} (hc : cfg.WF) (pll : Nat) :
    readField (PllTarget.powerOn cfg pll).words (cfg.variant (Config.boardVariant pll)).layout.locked = 0 := by
  have hL := (wf_variant hc (Config.boardVariant pll)).1
  have hw := wf_word_lt hL (bit_mem_fields (locked_mem _))
  generalize hl : (cfg.variant (Config.boardVariant pll)).layout = L at *
  have h01 : L.locked.word = 0 ∨ L.locked.word = 1 := by omega
  have hs := storedValue_locked hL (Config.powerOnWord pll L.locked.word)
  simp only [readField, PllTarget.powerOn, hl]
  rcases h01 with e | e <;> rw [e] at hs ⊢ <;> exact hs

/-- Storing the stored form of a word back fires no event and changes nothing. -/
theorem commitEvent_self (L : Layout) (i : Nat) (w : Word) : commitEvent L i w w = false := by
  unfold commitEvent
  split
  · rename_i f _
    by_cases h : extract w f = 0#32 <;> simp [h]
  · by_cases h : extract w L.powerdown = 1#32 <;> simp [h]

/-! ### Read-modify-writes -/

theorem runRmw_frame {cfg : Config} {r : Rmw} {s t : State} (h : runRmw cfg r s = .next t) : BusFrame s t := by
  obtain ⟨u, hu, ht⟩ := andThen_eq_next.1 h
  exact (busRead_frame hu).trans (busWrite_frame ht)

theorem runRmws_frame {cfg : Config} {rs : List Rmw} {s t : State} (h : runRmws cfg rs s = .next t) : BusFrame s t := by
  induction rs generalizing s with
  | nil => cases h; exact BusFrame.refl _
  | cons r rs ih =>
    obtain ⟨u, hu, ht⟩ := andThen_eq_next.1 h
    exact (runRmw_frame hu).trans (ih ht)

/-- A completed read-modify-write (R174): the word read, edited, is written back. -/
theorem runRmw_eq_next {cfg : Config} {r : Rmw} {s t : State} (h : runRmw cfg r s = .next t) :
    t.pll = s.pll.write (s.layout cfg) r.word (r.edit (s.readValue cfg r.word)) ∧
      t.trace =
        .write r.word (s.busAddr r.word) (r.edit (s.readValue cfg r.word)) ::
          .read r.word (s.busAddr r.word) (s.readValue cfg r.word) :: s.trace ∧
      t.env.busCount = s.env.busCount + 2 ∧
      t.env.lockPos = (if r.word = (s.layout cfg).locked.word then s.env.lockPos + 1 else s.env.lockPos) := by
  obtain ⟨u, hu, ht⟩ := andThen_eq_next.1 h
  have h1 := busRead_eq_next hu
  have h2 := busWrite_eq_next ht
  have e : u.seq.read.get r.word = s.readValue cfg r.word := by
    rw [h1]; exact RegWords.get_set_same _ _ _
  have ha : u.busAddr r.word = s.busAddr r.word := by rw [h1]; rfl
  rw [e] at h2
  have hp : u.pll = s.pll ∧ u.layout cfg = s.layout cfg ∧
      u.trace = .read r.word (s.busAddr r.word) (s.readValue cfg r.word) :: s.trace ∧
      u.env.busCount = s.env.busCount + 1 ∧
      u.env.lockPos = (if r.word = (s.layout cfg).locked.word then s.env.lockPos + 1 else s.env.lockPos) := by
    rw [h1]; exact ⟨rfl, rfl, rfl, rfl, rfl⟩
  obtain ⟨p1, p2, p3, p4, p5⟩ := hp
  rw [h2]
  refine ⟨?_, ?_, ?_, ?_⟩
  · rw [writeEffect_pll, counted_pll, counted_layout, p1, p2]
  · show PortEvent.write r.word (u.busAddr r.word) _ :: u.trace = _
    rw [ha, p3]
  · show u.env.busCount + 1 = _
    rw [p4]
  · exact p5

theorem runRmw_live {cfg : Config} {r : Rmw} {s : State} (hl : s.Live) (ha : s.inAddressSpace r.word = true) :
    ∃ t, runRmw cfg r s = .next t := by
  unfold runRmw
  rw [busRead_live hl ha, andThen_next, rmwWrite]
  have hf := readEffect_frame cfg r.word s
  exact ⟨_, busWrite_live (hf.live hl) (by rw [hf.inAddressSpace]; exact ha)⟩

theorem runRmws_live {cfg : Config} {rs : List Rmw} {s : State} (hl : s.Live)
    (ha : ∀ r ∈ rs, s.inAddressSpace r.word = true) : ∃ t, runRmws cfg rs s = .next t := by
  induction rs generalizing s with
  | nil => exact ⟨s, rfl⟩
  | cons r rs ih =>
    obtain ⟨u, hu⟩ := runRmw_live (cfg := cfg) hl (ha r (by simp))
    have hf := runRmw_frame hu
    obtain ⟨t, ht⟩ := ih (hf.live hl) fun r hr => by rw [hf.inAddressSpace]; exact ha r (by simp [hr])
    exact ⟨t, by rw [runRmws, hu, andThen_next, ht]⟩

theorem runRmws_append (cfg : Config) (rs qs : List Rmw) (s : State) :
    runRmws cfg (rs ++ qs) s = andThen (runRmws cfg rs s) (runRmws cfg qs) := by
  induction rs generalizing s with
  | nil => rfl
  | cons r rs ih =>
    simp only [List.cons_append, runRmws, andThen_assoc]
    congr 1
    funext u
    exact ih u

/-! ### Readback -/

theorem readAll_frame {cfg : Config} {is : List Nat} {s t : State} (h : readAll cfg is s = .next t) :
    BusFrame s t ∧ t.pll = s.pll := by
  induction is generalizing s with
  | nil => cases h; exact ⟨BusFrame.refl _, rfl⟩
  | cons i is ih =>
    obtain ⟨u, hu, ht⟩ := andThen_eq_next.1 h
    obtain ⟨f, p⟩ := ih ht
    refine ⟨(busRead_frame hu).trans f, p.trans ?_⟩
    rw [busRead_eq_next hu]
    rfl

theorem readAll_live {cfg : Config} {is : List Nat} {s : State} (hl : s.Live)
    (ha : ∀ i ∈ is, s.inAddressSpace i = true) : ∃ t, readAll cfg is s = .next t := by
  induction is generalizing s with
  | nil => exact ⟨s, rfl⟩
  | cons i is ih =>
    have hf := readEffect_frame cfg i s
    obtain ⟨t, ht⟩ := ih (hf.live hl) fun j hj => by rw [hf.inAddressSpace]; exact ha j (by simp [hj])
    exact ⟨t, by rw [readAll, busRead_live hl (ha i (by simp)), andThen_next, ht]⟩

end Sys2Proof.Machine
end

