-- ==== Sys2Proof/Laws/Configured.lean ====
section
/-! SUPPORT. The reference machine is the instance of the configurable one (spec 00_scope R10), and the output clock does not
hang on CORE's registers (20_memory R69, 70_reset_and_hazards R261). -/

namespace Sys2Proof.Machine

theorem execIn_hw : execIn hw = exec := by
  funext i s; cases i <;> rfl

theorem stepIn_hw : stepIn hw = step := by
  funext s; unfold stepIn step; rw [execIn_hw]

theorem setfreqIn_hw : setfreqIn hw = setfreq := by
  funext khz s; unfold setfreqIn setfreq; rw [stepIn_hw]

theorem stepAtIn_hw : System.stepAtIn hw = System.stepAt := by
  funext k y; unfold System.stepAtIn System.stepAt; rw [stepIn_hw]

theorem resetOf_length (cfg : Config) : (System.resetOf cfg).cores.length = cfg.numPll := by
  simp [System.resetOf]

/-- Target and board decide the output; what else the state holds does not matter. -/
theorem outputClock_congr {cfg : Config} {s t : State} (hp : t.pll = s.pll) (hb : t.env.board = s.env.board) :
    outputClock cfg t = outputClock cfg s := by
  unfold outputClock State.boardLayout; rw [hp, hb]

theorem trusted_congr {cfg : Config} {s t : State} (hp : t.pll = s.pll) (hb : t.env.board = s.env.board)
    (hs : t.settled = s.settled) : trusted cfg t = trusted cfg s := by
  unfold trusted; rw [outputClock_congr hp hb, hs]

end Sys2Proof.Machine
end

