-- ==== Sys2Proof/Laws/PerInstr.lean ====
section
/-! SUPPORT. Statements made once per command: what the command's word holds in each of its four parts (spec 30_encoding
R90, R91). -/

namespace Sys2Proof

theorem opField_packCommand (op : BitVec 4) (a b c : Word) : opField (packCommand op a b c) = op := by
  apply BitVec.eq_of_getLsbD_eq
  intro k hk
  simp only [opField, packCommand, BitVec.getLsbD_extractLsb', BitVec.getLsbD_append]
  simp [hk, show ¬ 96 + k < 32 by omega, show ¬ 96 + k - 32 < 32 by omega, show ¬ 96 + k - 32 - 32 < 32 by omega,
    show 96 + k - 32 - 32 - 32 = k by omega]

theorem aField_packCommand (op : BitVec 4) (a b c : Word) : aField (packCommand op a b c) = a := by
  apply BitVec.eq_of_getLsbD_eq
  intro k hk
  simp only [aField, packCommand, BitVec.getLsbD_extractLsb', BitVec.getLsbD_append]
  simp [hk, show ¬ 64 + k < 32 by omega, show ¬ 64 + k - 32 < 32 by omega,
    show 64 + k - 32 - 32 = k by omega]

theorem bField_packCommand (op : BitVec 4) (a b c : Word) : bField (packCommand op a b c) = b := by
  apply BitVec.eq_of_getLsbD_eq
  intro k hk
  simp only [bField, packCommand, BitVec.getLsbD_extractLsb', BitVec.getLsbD_append]
  simp [hk, show ¬ 32 + k < 32 by omega]

theorem cField_packCommand (op : BitVec 4) (a b c : Word) : cField (packCommand op a b c) = c := by
  apply BitVec.eq_of_getLsbD_eq
  intro k hk
  simp only [cField, packCommand, BitVec.getLsbD_extractLsb', BitVec.getLsbD_append]
  simp [hk]

namespace Laws.WordParts

/-- The word of a command holds a legal opcode in bits 99:96 and A, B, C below it. -/
def Statement (i : Instr) : Prop :=
  1 ≤ (opField (encode i)).toNat ∧ (opField (encode i)).toNat ≤ 10 ∧
    aField (encode i) = i.a ∧ bField (encode i) = i.b ∧ cField (encode i) = i.c

/-- What every lemma of the family comes down to: the opcode is legal. -/
theorem of_opcode (i : Instr) (h : 1 ≤ i.opcode.toNat ∧ i.opcode.toNat ≤ 10) : Statement i := by
  unfold Statement encode
  rw [opField_packCommand, aField_packCommand, bField_packCommand, cField_packCommand]
  exact ⟨h.1, h.2, rfl, rfl, rfl⟩

theorem init (a b c : Word) : Statement (.init a b c) := of_opcode _ (by simp [Instr.opcode])
theorem lookup (a b c : Word) : Statement (.lookup a b c) := of_opcode _ (by simp [Instr.opcode])
theorem search (a b c : Word) : Statement (.search a b c) := of_opcode _ (by simp [Instr.opcode])
theorem compute (a b c : Word) : Statement (.compute a b c) := of_opcode _ (by simp [Instr.opcode])
theorem calcfreq (a b c : Word) : Statement (.calcfreq a b c) := of_opcode _ (by simp [Instr.opcode])
theorem encode (a b c : Word) : Statement (.encode a b c) := of_opcode _ (by simp [Instr.opcode])
theorem decode (a b c : Word) : Statement (.decode a b c) := of_opcode _ (by simp [Instr.opcode])
theorem apply (a b c : Word) : Statement (.apply a b c) := of_opcode _ (by simp [Instr.opcode])
theorem readfreq (a b c : Word) : Statement (.readfreq a b c) := of_opcode _ (by simp [Instr.opcode])
theorem teardown (a b c : Word) : Statement (.teardown a b c) := of_opcode _ (by simp [Instr.opcode])

end Laws.WordParts

end Sys2Proof
end

