-- ==== Sys2Proof/Laws/Search.lean ====
section
/-! SUPPORT. The search (spec 41_search R133 to R138): which passes the loops make, the range of the difference, and what
the S_* registers hold after the loops. -/

namespace Sys2Proof.Machine

/-! ### The passes -/

theorem mem_counted {lo hi n : Nat} : n ∈ counted lo hi ↔ lo ≤ n ∧ n < hi := by
  simp only [counted, List.mem_range'_1]; omega

/-- The passes are the triples of the three ranges (R133). -/
theorem mem_loopPasses {B : Bounds} {p : ClockParams} :
    p ∈ loopPasses B ↔
      ∃ o d l, (B.doutLo ≤ o ∧ o < B.doutHi) ∧ (B.drefLo ≤ d ∧ d < B.drefHi) ∧ (B.loopcLo ≤ l ∧ l < B.loopcHi) ∧
        p = ⟨BitVec.ofNat 32 d, BitVec.ofNat 32 l, BitVec.ofNat 32 o⟩ := by
  simp only [loopPasses, List.mem_flatMap, List.mem_map, mem_counted]
  constructor
  · rintro ⟨o, ho, d, hd, l, hl, rfl⟩
    exact ⟨o, d, l, ho, hd, hl, rfl⟩
  · rintro ⟨o, d, l, ho, hd, hl, rfl⟩
    exact ⟨o, ho, d, hd, l, hl, rfl⟩

theorem mem_candidates {B : Bounds} {p : ClockParams} : p ∈ candidates B ↔ p ∈ loopPasses B ∧ ratio p = true := by
  simp [candidates]

/-- A pass of bounds that fit 32 bits, as numbers. -/
theorem toNat_of_mem_loopPasses {B : Bounds} {p : ClockParams} (ho : B.doutHi ≤ 2 ^ 32) (hd : B.drefHi ≤ 2 ^ 32)
    (hl : B.loopcHi ≤ 2 ^ 32) (h : p ∈ loopPasses B) :
    (B.doutLo ≤ p.divOut.toNat ∧ p.divOut.toNat < B.doutHi) ∧ (B.drefLo ≤ p.divRef.toNat ∧ p.divRef.toNat < B.drefHi) ∧
      (B.loopcLo ≤ p.loopc.toNat ∧ p.loopc.toNat < B.loopcHi) := by
  obtain ⟨o, d, l, h1, h2, h3, rfl⟩ := mem_loopPasses.1 h
  simp only [BitVec.toNat_ofNat]
  rw [Nat.mod_eq_of_lt (by omega), Nat.mod_eq_of_lt (by omega), Nat.mod_eq_of_lt (by omega)]
  exact ⟨h1, h2, h3⟩

/-- The four reference bounds (R107). -/
theorem hw_bounds (s : State) : s.bounds hw = if s.handle.variant = 3 then bounds3 else genericBounds := by
  unfold State.bounds Config.variant
  by_cases h0 : s.handle.variant = 0
  · simp [h0, hw]
  · by_cases h1 : s.handle.variant = 1
    · simp [h1, hw]
    · by_cases h2 : s.handle.variant = 2
      · simp [h2, hw]
      · have h3 : s.handle.variant = 3 := by
          revert h0 h1 h2; generalize s.handle.variant = v; revert v; decide
        simp [h3, hw]

/-- A pass of the reference bounds, as numbers. -/
theorem hw_pass {s : State} {p : ClockParams} (h : p ∈ loopPasses (s.bounds hw)) :
    (6 ≤ p.divOut.toNat ∧ p.divOut.toNat < 64) ∧ (3 ≤ p.divRef.toNat ∧ p.divRef.toNat < 6) ∧
      (6 ≤ p.loopc.toNat ∧ p.loopc.toNat < 161) := by
  rw [hw_bounds] at h
  split at h
  · have := toNat_of_mem_loopPasses (by decide) (by decide) (by decide) h
    simp only [bounds3, genericBounds] at this; omega
  · have := toNat_of_mem_loopPasses (by decide) (by decide) (by decide) h
    simpa only [genericBounds] using this

/-! ### The difference -/

/-- No wrap-around in the formula (R130): a 22-bit reference times a 10-bit `loopc` fits 32 bits. -/
theorem freq_lt {ref : Nat} {p : ClockParams} (hr : ref ≤ refKhzMax) (hl : p.loopc.toNat < 2 ^ loopcWMax) :
    freq ref p < 2 ^ 32 := by
  have h1 : ref / p.divRef.toNat ≤ 4194303 := Nat.le_trans (Nat.div_le_self _ _) hr
  have h2 : p.loopc.toNat ≤ 1023 := by simp only [loopcWMax] at hl; omega
  have h3 : ref / p.divRef.toNat * p.loopc.toNat ≤ 4194303 * 1023 := Nat.mul_le_mul h1 h2
  have h4 : freq ref p ≤ ref / p.divRef.toNat * p.loopc.toNat := Nat.div_le_self _ _
  omega

theorem searchDiff_lt {ref : Nat} {req : Word} {p : ClockParams} (hf : freq ref p < 2 ^ 32) :
    searchDiff ref req p < 2 ^ 32 := by
  have := req.isLt
  unfold searchDiff absDiff; split <;> omega

/-- The difference of every pass fits S_BEST_DIFF (R134). -/
abbrev DiffsFit (ref : Nat) (req : Word) (ps : List ClockParams) : Prop := ∀ p ∈ ps, searchDiff ref req p < 2 ^ 32

theorem hw_diffsFit {s : State} (hr : s.handle.refKhz.toNat ≤ refKhzMax) (req : Word) :
    DiffsFit s.handle.refKhz.toNat req (loopPasses (s.bounds hw)) := by
  intro p hp
  apply searchDiff_lt
  apply freq_lt hr
  have := (hw_pass hp).2.2.2
  simp only [loopcWMax]; omega

/-! ### The registers along the loops -/

/-- What the S_* registers say of the passes made so far: nothing recorded and no candidate among them, or the first
candidate of least difference recorded with its difference (R136). -/
structure Records (ref : Nat) (req : Word) (seen : List ClockParams) (r : SearchRegs) : Prop where
  sameReq : r.req = req
  empty : r.found = false → seen.filter ratio = [] ∧ r.best = ClockParams.zero ∧ r.bestDiff = 0xFFFFFFFF
  first : r.found = true → ∃ before after, seen.filter ratio = before ++ r.best :: after ∧
    r.bestDiff.toNat = searchDiff ref req r.best ∧
    (∀ q ∈ before, searchDiff ref req r.best < searchDiff ref req q) ∧
    (∀ q ∈ after, searchDiff ref req r.best ≤ searchDiff ref req q)

theorem records_start (ref : Nat) (req : Word) (r : SearchRegs) : Records ref req [] (r.start req) :=
  ⟨rfl, fun _ => ⟨rfl, rfl, rfl⟩, fun h => nomatch h⟩

theorem records_visit {ref : Nat} {req : Word} {seen : List ClockParams} {r : SearchRegs} {p : ClockParams}
    (h : Records ref req seen r) (hp : searchDiff ref req p < 2 ^ 32) :
    Records ref req (seen ++ [p]) (r.visit ref p) := by
  obtain ⟨hq, he, hs⟩ := h
  unfold SearchRegs.visit
  rw [hq]
  by_cases hr : ratio p = true
  · have hfil : (seen ++ [p]).filter ratio = seen.filter ratio ++ [p] := by simp [hr]
    by_cases hf : r.found = true
    · obtain ⟨before, after, h1, h2, h3, h4⟩ := hs hf
      by_cases hd : searchDiff ref req p < r.bestDiff.toNat
      · rw [if_pos (by simp [hr, hd])]
        refine ⟨rfl, fun h => (nomatch h), fun _ => ⟨before ++ r.best :: after, [], by rw [hfil, h1], ?_, ?_, by simp⟩⟩
        · simpa using hp
        · intro q hmem
          rw [h2] at hd
          simp only [List.mem_append, List.mem_cons] at hmem
          rcases hmem with hmem | rfl | hmem
          · exact Nat.lt_trans hd (h3 q hmem)
          · exact hd
          · exact Nat.lt_of_lt_of_le hd (h4 q hmem)
      · rw [if_neg (by simp [hf, hd])]
        refine ⟨rfl, fun h => ?_, fun _ => ⟨before, after ++ [p], by rw [hfil, h1]; simp, h2, h3, ?_⟩⟩
        · change r.found = false at h; rw [hf] at h; cases h
        · intro q hmem
          simp only [List.mem_append, List.mem_singleton] at hmem
          rcases hmem with hmem | rfl
          · exact h4 q hmem
          · rw [h2] at hd; exact Nat.le_of_not_lt hd
    · have hf : r.found = false := by simpa using hf
      rw [if_pos (by simp [hr, hf])]
      refine ⟨rfl, fun h => (nomatch h), fun _ => ⟨[], [], by rw [hfil, (he hf).1], ?_, by simp, by simp⟩⟩
      simpa using hp
  · have hfil : (seen ++ [p]).filter ratio = seen.filter ratio := by simp [hr]
    rw [if_neg (by simp [hr])]
    exact ⟨rfl, fun h => by rw [hfil]; exact he h, fun h => by rw [hfil]; exact hs h⟩

/-- Further passes after an exact match change nothing of what is recorded (R137). -/
theorem records_exact {ref : Nat} {req : Word} {seen more : List ClockParams} {r : SearchRegs}
    (h : Records ref req seen r) (hx : r.exact = true) : Records ref req (seen ++ more) r := by
  obtain ⟨hq, he, hs⟩ := h
  simp only [SearchRegs.exact, Bool.and_eq_true, beq_iff_eq] at hx
  obtain ⟨before, after, h1, h2, h3, h4⟩ := hs hx.1
  refine ⟨hq, fun h => absurd (hx.1.symm.trans h) (by decide),
    fun _ => ⟨before, after ++ more.filter ratio, by rw [List.filter_append, h1]; simp, h2, h3, ?_⟩⟩
  intro q hmem
  rw [hx.2] at h2
  have : searchDiff ref req r.best = 0 := h2.symm
  omega

theorem records_walk {ref : Nat} {req : Word} {ps seen : List ClockParams} {r : SearchRegs}
    (h : Records ref req seen r) (hd : DiffsFit ref req ps) : Records ref req (seen ++ ps) (searchWalk ref ps r) := by
  induction ps generalizing seen r with
  | nil => rw [List.append_nil]; exact h
  | cons p ps ih =>
    have hv := records_visit h (hd p (by simp))
    have e : seen ++ p :: ps = seen ++ [p] ++ ps := by simp
    rw [searchWalk, e]
    split
    · rename_i hx
      exact records_exact hv hx
    · exact ih hv fun q hq => hd q (by simp [hq])

/-- What the S_* registers hold after a search on the reference configuration. -/
theorem hw_records {s : State} (hr : s.handle.refKhz.toNat ≤ refKhzMax) (req : Word) :
    Records s.handle.refKhz.toNat req (loopPasses (s.bounds hw)) (searchResult hw req s) :=
  records_walk (records_start s.handle.refKhz.toNat req s.search) (hw_diffsFit hr req)

theorem mem_of_records {ref : Nat} {req : Word} {ps : List ClockParams} {r : SearchRegs} (h : Records ref req ps r)
    (hf : r.found = true) : r.best ∈ ps ∧ ratio r.best = true := by
  obtain ⟨before, after, h1, -⟩ := h.first hf
  have : r.best ∈ ps.filter ratio := by rw [h1]; simp
  simpa using this

/-- A candidate bounds the recorded difference from above. -/
theorem le_of_records {ref : Nat} {req : Word} {ps : List ClockParams} {r : SearchRegs} (h : Records ref req ps r)
    {p : ClockParams} (hp : p ∈ ps) (hr : ratio p = true) :
    r.found = true ∧ r.bestDiff.toNat ≤ searchDiff ref req p := by
  have hm : p ∈ ps.filter ratio := by simp [hp, hr]
  by_cases hf : r.found = true
  · obtain ⟨before, after, h1, h2, h3, h4⟩ := h.first hf
    refine ⟨hf, ?_⟩
    rw [h1] at hm
    simp only [List.mem_append, List.mem_cons] at hm
    rw [h2]
    rcases hm with hm | rfl | hm
    · exact Nat.le_of_lt (h3 p hm)
    · exact Nat.le_refl _
    · exact h4 p hm
  · rw [(h.empty (by simpa using hf)).1] at hm
    cases hm

/-- Every reference variant has the candidate (3, 36, 63), so a search always records one (R139, R140). -/
theorem hw_candidate (s : State) : (⟨3, 36, 63⟩ : ClockParams) ∈ loopPasses (s.bounds hw) := by
  rw [hw_bounds, mem_loopPasses]
  refine ⟨63, 3, 36, ?_⟩
  split <;> decide

theorem hw_found {s : State} (hr : s.handle.refKhz.toNat ≤ refKhzMax) (req : Word) :
    (searchResult hw req s).found = true :=
  (le_of_records (hw_records hr req) (hw_candidate s) (by decide)).1

/-- SEARCH with a valid handle completes. -/
theorem exec_search_valid {s : State} (h : s.handle.valid = true) (a b c : Word) :
    exec (.search a b c) s = .next (respondSearch (searchResult hw a s) s) := by
  simp [exec, execSearch, searchCmd, searchBody, h]

end Sys2Proof.Machine
end

