-- ==== Sys2Proof/Laws/Sequence.lean ====
section
/-! SUPPORT. What each part of the APPLY sequence and of READFREQ can answer (spec 43_programmer R174 to R190, 44_readback
R210): the fields of the register after a SetBit, the sequencer's registers after a transition, after the wait and after
completion, and that everything else stays. -/

namespace Sys2Proof.Machine

/-! ### The register after one SetBit (R174) -/

/-- Writing back what was read, one field replaced: the stored word but for that field, `locked` apart. -/
theorem getLsbD_setBit_stored {L : Layout} {f : Field} (v : Word) {w u : Word}
    (hu : storedValue L f.word w = storedValue L f.word u) (k : Nat) (hk : k < 32)
    (hn : ¬ Field.Holds L.locked f.word k) :
    (storedValue L f.word (insert w f v)).getLsbD k =
      if f.off ≤ k ∧ k < f.off + f.width then v.getLsbD (k - f.off) else u.getLsbD k := by
  have hw : w.getLsbD k = u.getLsbD k := by
    rw [← getLsbD_storedValue L f.word w k hn, hu, getLsbD_storedValue L f.word u k hn]
  rw [getLsbD_storedValue L f.word _ k hn, getLsbD_insert _ _ _ _ hk, hw]

/-- A completed SetBit of a field other than `locked`: the field takes the value, every other stored bit stays. -/
theorem setBit_eq_next {cfg : Config} (hc : cfg.WF) {f : Field} {v : Word} {s t : State}
    (hf : f ∈ (s.layout cfg).fields) (hn : f ≠ (s.layout cfg).locked) (h : runRmw cfg (setBit f v) s = .next t) :
    readField t.pll.words f = v &&& mask f.width ∧
      (∀ g ∈ (s.layout cfg).fields, g ≠ f → g ≠ (s.layout cfg).locked →
        readField t.pll.words g = readField s.pll.words g) ∧
      (∀ i k, i < (s.layout cfg).nwords → ¬ Field.Holds f i k → ¬ Field.Holds (s.layout cfg).locked i k →
        (t.pll.words.get i).getLsbD k = (s.pll.words.get i).getLsbD k) := by
  have hL := wf_layout hc s
  obtain ⟨hp, -, -, -⟩ := runRmw_eq_next h
  have hword : (setBit f v).word = f.word := rfl
  have hedit : (setBit f v).edit (s.readValue cfg f.word) = insert (s.readValue cfg f.word) f v := rfl
  rw [hword, hedit] at hp
  have hW : t.pll.words =
      s.pll.words.set f.word (storedValue (s.layout cfg) f.word (insert (s.readValue cfg f.word) f v)) := by
    rw [hp, write_words]
  have hu := storedValue_readValue cfg s f.word
  have hbits : ∀ i k, i < (s.layout cfg).nwords → ¬ Field.Holds f i k → ¬ Field.Holds (s.layout cfg).locked i k →
      (t.pll.words.get i).getLsbD k = (s.pll.words.get i).getLsbD k := by
    intro i k hi h1 h2
    rw [hW]
    by_cases hk : k < 32
    · by_cases hiw : i = f.word
      · subst hiw
        rw [RegWords.get_set_same, getLsbD_setBit_stored v hu k hk h2,
          if_neg fun hb => h1 ⟨rfl, hb.1, hb.2⟩]
      · rw [RegWords.get_set_other _ _ _ _ (wf_word_lt hL hf) (Nat.lt_of_lt_of_le hi (wf_nwords_le hL)) hiw]
    · rw [BitVec.getLsbD_of_ge _ _ (by omega), BitVec.getLsbD_of_ge _ _ (by omega)]
  refine ⟨?_, ?_, hbits⟩
  · unfold readField
    rw [hW, RegWords.get_set_same, extract_storedValue hL hf hn, extract_insert_same _ _ _ (wf_inside hL hf).2]
  · intro g hg hgf hgl
    apply extract_congr
    intro k h1 h2
    apply hbits _ _ (wf_inside hL hg).1
    · rintro ⟨e, h3, h4⟩
      have := wf_disjoint hL hg hf hgf
      unfold Field.Disjoint at this; omega
    · rintro ⟨e, h3, h4⟩
      have := wf_disjoint hL hg (bit_mem_fields (locked_mem _)) hgl
      unfold Field.Disjoint at this; omega

/-! ### What an APPLY leaves alone -/

/-- Everything but the target, the sequencer, the trace and the two counters of the outside is as before. -/
structure ApplyFrame (s t : State) : Prop where
  handle : t.handle = s.handle
  cache : t.cache = s.cache
  cmd : t.cmd = s.cmd
  rsp : t.rsp = s.rsp
  search : t.search = s.search
  settled : t.settled = s.settled
  env : t.env = { s.env with lockPos := t.env.lockPos, busCount := t.env.busCount }
  trace : ∃ new, t.trace = new ++ s.trace ∧ ∀ e ∈ new, (e.isBus || e.isDelay) = true

theorem BusFrame.toApply {s t : State} (h : BusFrame s t) : ApplyFrame s t := by
  obtain ⟨new, e, b⟩ := h.trace
  exact ⟨h.handle, h.cache, h.cmd, h.rsp, h.search, h.settled, h.env, new, e, fun x hx => by rw [b x hx]; rfl⟩

theorem ApplyFrame.trans {s t u : State} (h : ApplyFrame s t) (k : ApplyFrame t u) : ApplyFrame s u := by
  obtain ⟨n1, e1, b1⟩ := h.trace
  obtain ⟨n2, e2, b2⟩ := k.trace
  refine ⟨k.handle.trans h.handle, k.cache.trans h.cache, k.cmd.trans h.cmd, k.rsp.trans h.rsp,
    k.search.trans h.search, k.settled.trans h.settled, by rw [k.env, h.env], n2 ++ n1, by rw [e2, e1, List.append_assoc], ?_⟩
  intro e he
  rcases List.mem_append.1 he with he | he
  · exact b2 e he
  · exact b1 e he

theorem ApplyFrame.layout {s t : State} (h : ApplyFrame s t) (cfg : Config) : t.layout cfg = s.layout cfg := by
  unfold State.layout; rw [h.handle]

theorem ApplyFrame.live {s t : State} (h : ApplyFrame s t) (hl : s.Live) : t.Live := by
  unfold State.Live at *; rw [h.env]; exact hl

theorem ApplyFrame.windowInside {cfg : Config} {s t : State} (h : ApplyFrame s t) (hw : s.WindowInside cfg) :
    t.WindowInside cfg := by
  unfold State.WindowInside at *; rw [h.layout, h.handle]; exact hw

theorem ApplyFrame.lockAt {s t : State} (h : ApplyFrame s t) (n : Nat) : t.env.lockAt n = s.env.lockAt n := by
  rw [h.env]; rfl

/-! ### Transitions -/

/-- A completed transition: the next state's name, SUB = 0, the lock registers as before. -/
theorem transition_eq_next {cfg : Config} {p : ClockParams} {q : Fsm} {s t : State}
    (h : transition cfg p q s = .next t) :
    ∃ u, runRmws cfg (transitionRmws (s.layout cfg) p q) s = .next u ∧ ApplyFrame s t ∧ t.pll = u.pll ∧
      t.env = u.env ∧ t.trace = u.trace ∧ t.seq = { s.seq with fsm := q.next, sub := 0, read := t.seq.read } := by
  obtain ⟨u, hu, ht⟩ := andThen_eq_next.1 h
  have hf := runRmws_frame hu
  have e := (next_inj ht).symm
  have hs : t.seq = { s.seq with fsm := q.next, sub := 0, read := t.seq.read } := by
    rw [e]; show { u.seq with fsm := q.next, sub := 0 } = _; rw [hf.seq]; rfl
  have ha := hf.toApply
  refine ⟨u, hu, ?_, ?_, ?_, ?_, hs⟩ <;> rw [e]
  · exact ⟨ha.handle, ha.cache, ha.cmd, ha.rsp, ha.search, ha.settled, ha.env, ha.trace⟩
  all_goals rfl

theorem transition_live {cfg : Config} {p : ClockParams} {q : Fsm} {s : State} (hl : s.Live)
    (ha : ∀ r ∈ transitionRmws (s.layout cfg) p q, s.inAddressSpace r.word = true) :
    ∃ t, transition cfg p q s = .next t := by
  obtain ⟨u, hu⟩ := runRmws_live hl ha
  exact ⟨_, by rw [transition, hu, andThen_next]⟩

/-- Every read-modify-write of a well-formed layout's protocol is on a word of its window. -/
theorem transitionRmws_word {L : Layout} (hL : L.WF) {p : ClockParams} {q : Fsm} {r : Rmw}
    (h : r ∈ transitionRmws L p q) : r.word < L.nwords := by
  have hb : ∀ {f : Field} {v : Word}, f ∈ L.bitFields → r = setBit f v → r.word < L.nwords := by
    intro f v hf e; rw [e]; exact (wf_inside hL (bit_mem_fields hf)).1
  have ho : ∀ {o : Option Field} {v : Word}, (∀ f, o = some f → f ∈ L.bitFields) → r ∈ setOptBit o v →
      r.word < L.nwords := by
    intro o v hf hm
    cases o with
    | none => cases hm
    | some f => exact hb (hf f rfl) (List.mem_singleton.1 hm)
  cases q <;> simp only [transitionRmws] at h
  · exact hb (bypass_mem L) (List.mem_singleton.1 h)
  · exact ho (fun f => selOut_mem) h
  · exact hb (powerdown_mem L) (List.mem_singleton.1 h)
  · simp only [stageRmws, List.mem_filterMap, List.mem_range] at h
    obtain ⟨i, hi, hr⟩ := h
    dsimp only [stageWord] at hr
    split at hr
    · cases hr
    · cases hr; exact hi
  · rcases List.mem_append.1 h with h | h
    · exact ho (fun f => setParam_mem) h
    · exact ho (fun f => setParam_mem) h
  · exact hb (powerdown_mem L) (List.mem_singleton.1 h)
  · cases h
  · exact ho (fun f => selOut_mem) h
  · exact hb (bypass_mem L) (List.mem_singleton.1 h)
  · cases h
  · cases h
  · cases h

theorem transitions_frame {cfg : Config} {p : ClockParams} {qs : List Fsm} {s t : State}
    (h : transitions cfg p qs s = .next t) (hq : qs ≠ []) :
    ApplyFrame s t ∧ t.seq.lockIters = s.seq.lockIters ∧ t.seq.lockTimeout = s.seq.lockTimeout ∧ t.seq.sub = 0 ∧
      t.seq.fsm = (qs.getLast hq).next := by
  induction qs generalizing s with
  | nil => exact absurd rfl hq
  | cons q qs ih =>
    obtain ⟨u, hu, ht⟩ := andThen_eq_next.1 h
    obtain ⟨-, -, hf, -, -, -, hs⟩ := transition_eq_next hu
    have e1 : u.seq.lockIters = s.seq.lockIters := by rw [hs]
    have e2 : u.seq.lockTimeout = s.seq.lockTimeout := by rw [hs]
    cases qs with
    | nil => cases ht; exact ⟨hf, e1, e2, by rw [hs], by rw [hs]; rfl⟩
    | cons q' qs =>
      obtain ⟨g, g1, g2, g3, g4⟩ := ih ht (by simp)
      exact ⟨hf.trans g, g1.trans e1, g2.trans e2, g3, by rw [g4]; rfl⟩

theorem transitions_live {cfg : Config} (hc : cfg.WF) {p : ClockParams} {qs : List Fsm} {s : State} (hl : s.Live)
    (hw : s.WindowInside cfg) : ∃ t, transitions cfg p qs s = .next t := by
  induction qs generalizing s with
  | nil => exact ⟨s, rfl⟩
  | cons q qs ih =>
    obtain ⟨u, hu⟩ := transition_live (p := p) (q := q) hl fun r hr =>
      inAddressSpace_of_window hw (transitionRmws_word (wf_layout hc s) hr)
    obtain ⟨-, -, hf, -⟩ := transition_eq_next hu
    obtain ⟨t, ht⟩ := ih (hf.live hl) (hf.windowInside hw)
    exact ⟨t, by rw [transitions, hu, andThen_next, ht]⟩

/-! ### The lock wait -/

/-- The wait begins with LOCK_ITERS = 0 in WAITING_LOCK (R181). -/
theorem settle_eq_next {cfg : Config} {s t : State} (h : settle cfg s = .next t) :
    ApplyFrame s t ∧ t.pll = s.pll ∧ t.env = s.env ∧
      t.seq = { s.seq with fsm := .waitingLock, sub := 0, lockIters := 0 } ∧
      t.trace = (if s.prepollDelayUs cfg = 0 then [] else [.delay (s.prepollDelayUs cfg)]) ++ s.trace := by
  unfold settle at h
  split at h
  · rename_i hd
    have e := (next_inj h).symm
    rw [e]
    exact ⟨⟨rfl, rfl, rfl, rfl, rfl, rfl, rfl, [], rfl, by simp⟩, rfl, rfl, rfl, by simp [hd, startWait, State.moveTo]⟩
  · rename_i hd
    split at h
    · have e := (next_inj h).symm
      rw [e]
      refine ⟨⟨rfl, rfl, rfl, rfl, rfl, rfl, rfl, [.delay (s.prepollDelayUs cfg)], rfl, ?_⟩, rfl, rfl, rfl, ?_⟩
      · intro e he; rw [List.mem_singleton.1 he]; rfl
      · simp [hd, startWait, State.moveTo, State.record]
    · cases h

theorem settle_live {cfg : Config} {s : State} (hl : s.Live) : ∃ t, settle cfg s = .next t := by
  unfold settle
  split
  · exact ⟨_, rfl⟩
  · rw [if_pos hl.2]; exact ⟨_, rfl⟩

/-- What a read of the word of `locked` shows in that bit is the draw (R66). -/
theorem extract_locked_readValue {cfg : Config} (hc : cfg.WF) (s : State) :
    extract (s.readValue cfg (s.layout cfg).locked.word) (s.layout cfg).locked =
      lockBit (s.env.lockAt s.env.lockPos) := by
  have hL := wf_layout hc s
  have hw := wf_bit_width hL (locked_mem (s.layout cfg))
  unfold State.readValue PllTarget.value
  rw [if_pos rfl, extract_insert_same _ _ _ (wf_inside hL (bit_mem_fields (locked_mem _))).2, hw]
  cases s.env.lockAt s.env.lockPos <;> decide

/-- One poll (R183). -/
theorem poll_eq_next {cfg : Config} (hc : cfg.WF) {s t : State} (h : poll cfg s = .next t) :
    ApplyFrame s t ∧ t.pll = s.pll ∧ t.env.lockPos = s.env.lockPos + 1 ∧ t.env.busCount = s.env.busCount + 1 ∧
      t.seq.fsm = s.seq.fsm ∧ t.seq.lockIters = s.seq.lockIters + 1 ∧
      (∃ v, t.trace = .read (s.layout cfg).locked.word (s.busAddr (s.layout cfg).locked.word) v :: s.trace) ∧
      (if s.env.lockAt s.env.lockPos then t.seq.lockTimeout = false ∧ t.seq.sub = 1
        else if (s.seq.lockIters + 1).toNat = lockPollMax then t.seq.lockTimeout = true ∧ t.seq.sub = 1
        else t.seq.lockTimeout = s.seq.lockTimeout ∧ t.seq.sub = s.seq.sub) := by
  obtain ⟨u, hu, ht⟩ := andThen_eq_next.1 h
  have hf := busRead_frame hu
  have e := busRead_eq_next hu
  have hlay : u.layout cfg = s.layout cfg := hf.layout cfg
  have hread : u.seq.read.get (s.layout cfg).locked.word = s.readValue cfg (s.layout cfg).locked.word := by
    rw [e]; exact RegWords.get_set_same _ _ _
  have hpos : u.env.lockPos = s.env.lockPos + 1 := by rw [e]; exact if_pos rfl
  have hcount : u.env.busCount = s.env.busCount + 1 := by rw [e]; rfl
  have hpll : u.pll = s.pll := by rw [e]; rfl
  have htr : u.trace = .read (s.layout cfg).locked.word (s.busAddr (s.layout cfg).locked.word)
      (s.readValue cfg (s.layout cfg).locked.word) :: s.trace := by rw [e]; rfl
  have hq : u.seq.fsm = s.seq.fsm ∧ u.seq.lockIters = s.seq.lockIters ∧ u.seq.lockTimeout = s.seq.lockTimeout ∧
      u.seq.sub = s.seq.sub := by rw [e]; exact ⟨rfl, rfl, rfl, rfl⟩
  have ha := hf.toApply
  have ht := (next_inj ht).symm
  rw [hlay, hread] at ht
  have hbit : (extract (s.readValue cfg (s.layout cfg).locked.word) (s.layout cfg).locked = 1) ↔
      s.env.lockAt s.env.lockPos = true := by
    rw [extract_locked_readValue hc]; cases s.env.lockAt s.env.lockPos <;> decide
  have hfr : ApplyFrame s t := by
    rw [ht]; exact ⟨ha.handle, ha.cache, ha.cmd, ha.rsp, ha.search, ha.settled, ha.env, ha.trace⟩
  refine ⟨hfr, by rw [ht]; exact hpll, by rw [ht]; exact hpos, by rw [ht]; exact hcount, ?_, ?_, ⟨_, by rw [ht]; exact htr⟩, ?_⟩
  · rw [ht]; unfold pollResult; split <;> [exact hq.1; (split <;> exact hq.1)]
  · rw [ht]; unfold pollResult
    have := hq.2.1
    split <;> [skip; split] <;> simp only [this]
  · rw [ht]; unfold pollResult
    simp only [hbit, hq.2.1]
    by_cases hl : s.env.lockAt s.env.lockPos = true
    · simp [hl]
    · by_cases hm : (s.seq.lockIters + 1).toNat = lockPollMax
      · simp only [hl, hm, if_true]
        exact ⟨rfl, rfl⟩
      · simp only [hl, hm, if_false]
        exact ⟨hq.2.2.1, hq.2.2.2⟩

theorem poll_live {cfg : Config} (hc : cfg.WF) {s : State} (hl : s.Live) (hw : s.WindowInside cfg) :
    ∃ t, poll cfg s = .next t := by
  have hi := inAddressSpace_of_window hw (wf_inside (wf_layout hc s) (bit_mem_fields (locked_mem _))).1
  exact ⟨_, by rw [poll, busRead_live hl hi, andThen_next]⟩

/-- The wait as a whole, from `k` polls made and none seen (R182, R183): it ends with SUB = 1; LOCK_TIMEOUT says whether the
last poll saw no lock, which only the poll of number LOCK_POLL_MAX may do. -/
theorem pollWait_eq_next {cfg : Config} (hc : cfg.WF) {n : Nat} {s t : State} (h : pollWait cfg n s = .next t)
    (hn : s.seq.lockIters.toNat + n = lockPollMax) (hpos : 0 < n) (hsub : s.seq.sub = 0) :
    ApplyFrame s t ∧ t.pll = s.pll ∧ t.seq.fsm = s.seq.fsm ∧ t.seq.sub = 1 ∧
      ∃ m, 0 < m ∧ m ≤ n ∧ t.seq.lockIters.toNat = s.seq.lockIters.toNat + m ∧
        t.env.lockPos = s.env.lockPos + m ∧ t.env.busCount = s.env.busCount + m ∧
        (∀ j, j + 1 < m → s.env.lockAt (s.env.lockPos + j) = false) ∧
        (if s.env.lockAt (s.env.lockPos + (m - 1)) then t.seq.lockTimeout = false
          else m = n ∧ t.seq.lockTimeout = true) ∧
        ∃ new, t.trace = new ++ s.trace ∧ new.length = m ∧
          ∀ e ∈ new, ∃ v, e = .read (s.layout cfg).locked.word (s.busAddr (s.layout cfg).locked.word) v := by
  induction n generalizing s with
  | zero => omega
  | succ n ih =>
    obtain ⟨u, hu, ht⟩ := andThen_eq_next.1 h
    obtain ⟨hf, hp, hlp, hbc, hfsm, hit, ⟨v, htr⟩, hres⟩ := poll_eq_next hc hu
    have hit' : u.seq.lockIters.toNat = s.seq.lockIters.toNat + 1 := by
      rw [hit, BitVec.toNat_add]; simp only [lockPollMax] at hn; simp; omega
    by_cases hd : s.env.lockAt s.env.lockPos = true
    · rw [if_pos hd] at hres
      rw [hres.2, if_neg (by decide)] at ht
      cases ht
      refine ⟨hf, hp, hfsm, hres.2, 1, by omega, by omega, hit', hlp, hbc, by omega, ?_,
        [_], by rw [htr]; rfl, rfl, ?_⟩
      · simp [hd, hres.1]
      · intro e he; exact ⟨v, List.mem_singleton.1 he⟩
    · rw [if_neg hd] at hres
      have hd' : s.env.lockAt s.env.lockPos = false := by simpa using hd
      by_cases hm : n = 0
      · subst hm
        rw [if_pos (by rw [← hit, hit']; omega)] at hres
        rw [hres.2, if_neg (by decide)] at ht
        cases ht
        refine ⟨hf, hp, hfsm, hres.2, 1, by omega, by omega, hit', hlp, hbc, by omega, ?_,
          [_], by rw [htr]; rfl, rfl, ?_⟩
        · simp [hd', hres.1]
        · intro e he; exact ⟨v, List.mem_singleton.1 he⟩
      · rw [if_neg (by rw [← hit, hit']; omega)] at hres
        have hsu : u.seq.sub = 0 := hres.2.trans hsub
        rw [if_pos hsu] at ht
        obtain ⟨g, gp, gf, gs, m, m1, m2, m3, m4, m5, m6, m7, new, n1, n2, n3⟩ :=
          ih ht (by omega) (by omega) hsu
        refine ⟨hf.trans g, gp.trans hp, gf.trans hfsm, gs, m + 1, by omega, by omega, by omega, by omega, by omega,
          ?_, ?_, new ++ [_], by rw [n1, htr, List.append_assoc]; rfl, by simp [n2], ?_⟩
        · intro j hj
          cases j with
          | zero => exact hd'
          | succ j =>
            have := m6 j (by omega)
            rw [hf.lockAt, hlp] at this
            rw [← this]; congr 1; omega
        · rw [hf.lockAt, hlp] at m7
          have e : s.env.lockPos + (m + 1 - 1) = s.env.lockPos + 1 + (m - 1) := by omega
          rw [e]
          split
          · rename_i hx; rw [if_pos hx] at m7; exact m7
          · rename_i hx; rw [if_neg hx] at m7; exact ⟨by omega, m7.2⟩
        · intro e he
          rcases List.mem_append.1 he with he | he
          · obtain ⟨v', hv'⟩ := n3 e he
            refine ⟨v', ?_⟩
            rw [hv', hf.layout]
            unfold State.busAddr; rw [hf.handle]
          · exact ⟨v, List.mem_singleton.1 he⟩

theorem pollWait_live {cfg : Config} (hc : cfg.WF) {n : Nat} {s : State} (hl : s.Live) (hw : s.WindowInside cfg) :
    ∃ t, pollWait cfg n s = .next t := by
  induction n generalizing s with
  | zero => exact ⟨s, rfl⟩
  | succ n ih =>
    obtain ⟨u, hu⟩ := poll_live hc hl hw
    have hf := (poll_eq_next hc hu).1
    rw [pollWait, hu, andThen_next]
    split
    · exact ih (hf.live hl) (hf.windowInside hw)
    · exact ⟨u, rfl⟩

/-! ### The whole sequence -/

/-- The five stages of an APPLY that passed its checks (R189). -/
theorem applySequence_eq_next {cfg : Config} {p : ClockParams} {s t : State} (h : applySequence cfg p s = .next t) :
    ∃ s1 s2 s3 s4, transitions cfg p firstSteps (unsettle s) = .next s1 ∧ settle cfg s1 = .next s2 ∧
      pollWait cfg lockPollMax s2 = .next s3 ∧ transitions cfg p lastSteps s3 = .next s4 ∧ t = complete p s4 := by
  obtain ⟨s1, h1, h⟩ := andThen_eq_next.1 h
  obtain ⟨s2, h2, h⟩ := andThen_eq_next.1 h
  obtain ⟨s3, h3, h⟩ := andThen_eq_next.1 h
  obtain ⟨s4, h4, h⟩ := andThen_eq_next.1 h
  exact ⟨s1, s2, s3, s4, h1, h2, h3, h4, (next_inj h).symm⟩

theorem applySequence_live {cfg : Config} (hc : cfg.WF) {p : ClockParams} {s : State} (hl : s.Live)
    (hw : s.WindowInside cfg) : ∃ t, applySequence cfg p s = .next t := by
  obtain ⟨s1, h1⟩ := transitions_live (p := p) (qs := firstSteps) (s := unsettle s) hc hl hw
  have f1 := (transitions_frame h1 (by decide)).1
  obtain ⟨s2, h2⟩ := settle_live (cfg := cfg) (f1.live hl)
  have f2 := f1.trans (settle_eq_next h2).1
  obtain ⟨s3, h3⟩ := pollWait_live (n := lockPollMax) hc (f2.live hl) (f2.windowInside hw)
  have e2 := (settle_eq_next h2).2.2.2.1
  have f3 := f2.trans (pollWait_eq_next hc h3 (by rw [e2]; rfl) (by decide) (by rw [e2])).1
  obtain ⟨s4, h4⟩ := transitions_live (p := p) (qs := lastSteps) hc (f3.live hl) (f3.windowInside hw)
  exact ⟨complete p s4, by
    rw [applySequence, h1, andThen_next, h2, andThen_next, h3, andThen_next, h4, andThen_next]⟩

/-- APPLY either ends in its checks, with nothing but the response, or runs the sequence (R171). -/
theorem applyCmd_cases (cfg : Config) (p : ClockParams) (s : State) :
    (∃ st, applyRefusal cfg p s = some st ∧ applyCmd cfg p s = raise st s) ∨
      (s.handle.valid = true ∧ fits (s.layout cfg) p = true ∧ zeroDivider p = false ∧
        applyCmd cfg p s = applySequence cfg p s) := by
  unfold applyCmd
  cases hr : applyRefusal cfg p s with
  | some st => exact Or.inl ⟨st, rfl, rfl⟩
  | none =>
    right
    unfold applyRefusal at hr
    split at hr
    · cases hr
    · rename_i h1
      split at hr
      · cases hr
      · rename_i h2
        split at hr
        · cases hr
        · rename_i h3
          exact ⟨by simpa using h1, by simpa using h2, by simpa using h3, rfl⟩

/-- A programmable triple passes the checks. -/
theorem applyRefusal_none {cfg : Config} {p : ClockParams} {s : State} (h1 : s.handle.valid = true)
    (h2 : fits (s.layout cfg) p = true) (h3 : zeroDivider p = false) : applyRefusal cfg p s = none := by
  simp [applyRefusal, h1, h2, h3]

/-! ### Readback -/

/-- READFREQ either has no handle, or reads its words and answers from them (R210). -/
theorem readfreqCmd_cases (cfg : Config) (s : State) :
    (s.handle.valid = false ∧ readfreqCmd cfg s = raise .errNotInit s) ∨
      (s.handle.valid = true ∧ readfreqCmd cfg s =
        andThen (readAll cfg (List.range (s.layout cfg).nwords) (s.moveTo .read)) fun t => .next (respondFreq cfg t)) := by
  unfold readfreqCmd
  cases h : s.handle.valid
  · exact Or.inl ⟨rfl, rfl⟩
  · exact Or.inr ⟨rfl, rfl⟩

end Sys2Proof.Machine
end

