-- ==== Sys2Proof/Tests/Slice0.lean ====
section
/-! SUPPORT. Tests of the model and witnesses for the statements. Expected results come from spec/95_test_vectors.md, from
the encodings of spec/30_encoding.md, or from hand calculation by the cited rule. -/

namespace Sys2Proof.Tests

open Sys2Proof Sys2Proof.Machine

/-! ### Helpers -/

/-- A state with a valid handle: base 0x1FE00490, reference 100000 kHz, the given variant, register and lock draws; the board is
as the handle says. -/
def ready (v : BitVec 2) (w0 w1 : Word) (locks : List Bool) : State :=
  { State.reset with
    handle := ⟨true, 0x1FE00490, v, 100000⟩
    pll := ⟨⟨w0, w1⟩, none⟩
    env := { Env.quiet 0 with lockScript := locks, board := ⟨v, 100000⟩ } }

/-- Enough draws of 1 for one APPLY. -/
def locked : List Bool := List.replicate 20 true

/-- The host's coming inputs. -/
def hosted (inputs : List HostInput) (s : State) : State := { s with env := { s.env with host := inputs } }

/-- The map answers to come. -/
def granting (answers : List GrantAnswer) (s : State) : State := { s with env := { s.env with grantScript := answers } }

/-- A state in the middle of an APPLY of (A, B, C), one bus transaction a step. -/
def flying (q : Fsm) (sub : BitVec 3) (a b c : Word) (s : State) : State :=
  { s with
    cmd := ⟨8, a, b, c⟩
    seq := { s.seq with fsm := q, sub := sub }
    env := { s.env with fine := true } }

/-- The outcome is a next state of which `f` holds. -/
def ended (o : Outcome) (f : State → Bool) : Bool :=
  match o with
  | .next t => f t
  | _ => false

theorem exists_next_of_ended {o : Outcome} {f : State → Bool} (h : ended o f = true) :
    ∃ t, o = .next t ∧ f t = true := by
  cases o with
  | next t => exact ⟨t, rfl, h⟩
  | fault r => cases h
  | refused r => cases h

/-- The reference configuration with other bounds on variants 0 and 1. -/
def boundedTo (B : Bounds) : Config := { hw with variant0 := ⟨layout0, B, 0⟩, variant1 := ⟨layout1, B, 1⟩ }

/-! ### WellFormed: each check refuses an ill-formed term -/

theorem test_wf_line_count : (⟨none, .APPLY, [3, 49]⟩ : CommandLine).wf = false := by decide
theorem test_wf_line_extra : (⟨none, .READFREQ, [0]⟩ : CommandLine).wf = false := by decide
theorem test_wf_line_wide : (⟨some 0, .LOOKUP, [2 ^ 32]⟩ : CommandLine).wf = false := by decide
theorem test_wf_line_ok : (⟨some 1, .DECODE, [2 ^ 32 - 1]⟩ : CommandLine).wf = true := by decide
theorem test_wf_nwords : ¬ ({ layout0 with nwords := 3 } : Layout).WidthsOk := by decide
theorem test_wf_param_width : ¬ ({ layout0 with loopc := ⟨0, 21, 0⟩ } : Layout).WidthsOk := by decide
theorem test_wf_bit_width : ¬ ({ layout0 with selOut := some ⟨1, 8, 2⟩ } : Layout).WidthsOk := by decide
theorem test_wf_word_inside : ¬ ({ layout2 with bypass := ⟨1, 29, 1⟩ } : Layout).FieldsInside := by decide
theorem test_wf_off_inside : ¬ ({ layout1 with divRef := ⟨0, 27, 6⟩ } : Layout).FieldsInside := by decide
theorem test_wf_disjoint : ¬ ({ layout3 with divRef := ⟨0, 2, 4⟩ } : Layout).FieldsDisjoint := by decide
theorem test_wf_loopc : ¬ ({ layout0 with loopc := ⟨0, 10, 11⟩ } : Layout).WF := by decide
theorem test_wf_bounds_fit : ¬ genericBounds.FitLayout layout3 := by decide
theorem test_wf_zero_divider : ¬ ({ genericBounds with drefLo := 0 } : Bounds).NoZeroDivider := by decide
theorem test_wf_entry_zero : ¬ (⟨148500, 0, 0, 0, 0, 49, 3⟩ : TableEntry).WF := by decide
theorem test_wf_entry_wide : ¬ (⟨148500, 0, 0, 0, 11, 1024, 40⟩ : TableEntry).WF := by decide
theorem test_wf_entry_ratio : ¬ (⟨148500, 0, 0, 0, 11, 35, 3⟩ : TableEntry).WF := by decide
theorem test_wf_duplicates :
    ¬ TableWF [⟨148500, 0, 0, 0, 11, 49, 3⟩, ⟨148500, 0, 0, 0, 11, 50, 3⟩] := by decide
theorem test_wf_config : ¬ ({ hw with variant3 := ⟨layout3, genericBounds, 1⟩ } : Config).WF := by decide

/-! ### Decode: a word of every command, written out as `{op, A, B, C}` (R90, R91; 95_test_vectors 3) -/

theorem test_decode_init : decode 0x11FE0049000000000000186A0 = .command (.init 0x1FE00490 0 100000) := by decide
theorem test_decode_lookup : decode 0x2000062570000000000000000 = .command (.lookup 25175 0 0) := by decide
theorem test_decode_search : decode 0x30001A5E0DEADBEEFCAFEF00D = .command (.search 108000 0xDEADBEEF 0xCAFEF00D) := by decide
theorem test_decode_compute : decode 0x4000244140000000000000000 = .command (.compute 148500 0 0) := by decide
theorem test_decode_calcfreq : decode 0x5000000050000006B00000055 = .command (.calcfreq 5 107 85) := by decide
theorem test_decode_encode : decode 0x6000000050000006B00000055 = .command (.encode 5 107 85) := by decide
theorem test_decode_decode : decode 0x70620000B0000018300000000 = .command (.decode 0x0620000B 0x183 0) := by decide
theorem test_decode_apply : decode 0x800000003000000310000000B = .command (.apply 3 49 11) := by decide
theorem test_decode_readfreq : decode 0x9000000000000000000000001 = .command (.readfreq 0 0 1) := by decide
theorem test_decode_teardown : decode 0xA800000000000000000000000 = .command (.teardown 0x80000000 0 0) := by decide
theorem test_decode_illegal : decode 0 = .illegalOpcode 0 ∧ decode 0xB000000000000000000000000 = .illegalOpcode 11 ∧
    decode 0xFFFFFFFFFFFFFFFFFFFFFFFFF = .illegalOpcode 15 := by decide
theorem test_table_word : decodeTableWord 104 0x800000003000000310000000B = some (.apply 3 49 11) := by decide

/-! ### One step of each command (95_test_vectors section 2) -/

theorem test_init_grant :
    ended (exec (.init 0x1FE00490 3 4194303) (granting [.grant] State.reset)) (fun t =>
      t.handle == ⟨true, 0x1FE00490, 3, 4194303⟩ && t.trace == [.mapGrant, .mapReq 0x1FE00490 4] && t.rsp.status == .ok) =
      true := by decide
theorem test_init_misaligned :
    ended (exec (.init 0x1FE00492 0 100000) State.reset) (fun t => t.rsp.status == .errBadArg && t.trace == []) = true := by
  decide
theorem test_lookup_hit :
    ended (exec (.lookup 25175 7 7) State.reset) (fun t => t.rsp == ⟨.ok, 5, 107, 85, 0, true⟩) = true := by decide
theorem test_lookup_miss :
    ended (exec (.lookup 148501 0 0) (respond .ok (some 1) (some 2) (some 3) (some 4) State.reset)) (fun t =>
      t.rsp == ⟨.noExactMatch, 1, 2, 3, 4, true⟩) = true := by decide
-- The tie of 533333 between (4, 128, 6) and (5, 160, 6), on bounds that hold both; the first stops the search.
theorem test_search_tie :
    ended (searchCmd (boundedTo ⟨6, 7, 4, 6, 127, 161⟩) 533333 (ready 0 0 0 [])) (fun t =>
      t.rsp == ⟨.ok, 4, 128, 6, 0, true⟩ && t.search.divRef == 4 && t.search.loopc == 128) = true := by decide
-- H_REF_KHZ = 1: every computed value is 0 and the first candidate is recorded.
theorem test_search_first :
    ended (searchCmd (boundedTo ⟨6, 8, 3, 4, 35, 38⟩) 4294967295
        { ready 0 0 0 [] with handle := ⟨true, 0, 0, 1⟩ }) (fun t =>
      t.rsp == ⟨.errToleranceExceeded, 3, 36, 6, 4294967295, true⟩) = true := by decide
theorem test_compute_table :
    ended (exec (.compute 25175 0 0) (ready 2 0 0 [])) (fun t => t.rsp == ⟨.ok, 5, 107, 85, 0, true⟩) = true := by decide
-- The hit does not fit variant 1, so the search answers, here on bounds around its answer.
theorem test_compute_misfit :
    ended (computeCmd (boundedTo ⟨57, 59, 5, 6, 72, 75⟩) 25175 (ready 1 0 0 [])) (fun t =>
      t.rsp == ⟨.ok, 5, 73, 58, 3, true⟩) = true := by decide
theorem test_calcfreq_truncates :
    ended (exec (.calcfreq 3 96 6) (ready 0 0 0 [])) (fun t => t.rsp.res0 == 533328) = true := by decide
theorem test_calcfreq_corner :
    ended (exec (.calcfreq 1 1023 1) { ready 1 0 0 [] with handle := ⟨true, 0, 1, 4194303⟩ }) (fun t =>
      t.rsp.res0 == 4290771969) = true := by decide
theorem test_encode_two_words :
    ended (exec (.encode 3 49 11) (ready 1 0 0 [])) (fun t => t.rsp.res0 == 0x0C000000 && t.rsp.res1 == 0x00002C31) = true := by
  decide
theorem test_encode_misfit :
    ended (exec (.encode 5 160 63) (ready 3 0 0 [])) (fun t => t.rsp.status == .errInvalidParams) = true := by decide
theorem test_decode_dirty :
    ended (exec (.decode 0xDEADBEEF 0xCAFEF00D 0) (ready 0 0 0 [])) (fun t => t.rsp == ⟨.ok, 13, 245, 111, 6, true⟩) = true := by
  decide
theorem test_decode_absent_bits :
    ended (exec (.decode 0xFFFFFFFF 0xFFFFFFFF 0) (ready 1 0 0 [])) (fun t => t.rsp == ⟨.ok, 63, 1023, 63, 15, true⟩) = true := by
  decide
-- A2: dirty register, lock seen on the third poll.
theorem test_apply_dirty :
    ended (exec (.apply 4 98 33) (ready 0 0xDEADBEEF 0xCAFEF00D (List.replicate 9 false ++ locked))) (fun t =>
      t.pll.words == ⟨0xCC4DBEA1, 0xCAFEC104⟩ && t.rsp.res3 == 3 && t.pll.active == some ⟨4, 98, 33⟩ &&
        t.env.busCount == 23) = true := by decide
-- A9: `set_param` already 1, so ACTIVE stays none.
theorem test_apply_no_commit :
    ended (exec (.apply 3 49 11) (ready 2 0x10000000 0 locked)) (fun t =>
      t.pll == ⟨⟨0x0001988B, 0⟩, none⟩ && t.trace.head? == some (.write 0 0x1FE00490 0x8001988B)) = true := by decide
-- P1's end: the output is the PLL's, trusted; a CORE reset forgets the handle and leaves the output (R69, R261).
theorem test_output_trusted :
    ended (exec (.apply 3 49 11) (ready 0 0 0 locked)) (fun t => outputClock hw t == .pll 148483 && trusted hw t &&
      trusted hw (resetCore t) && !(resetCore t).handle.valid) = true := by decide
-- A DECODE line with one operand, and NUM_PLL copies of a configuration.
theorem test_assemble : (⟨some 1, .DECODE, [0xFFFFFFFF]⟩ : CommandLine).assemble = some (.decode 0xFFFFFFFF 0 0) := by decide
theorem test_num_pll : (System.resetOf { hw with numPll := 5 }).cores.length = 5 := by decide
theorem test_readfreq_dirty :
    ended (exec (.readfreq 0 0 0) (ready 0 0xDEADBEEF 0xCAFEF00D locked)) (fun t =>
      t.rsp.res0 == 16977 && t.trace == [.read 1 0x1FE00494 0xCAFEF08D, .read 0 0x1FE00490 0xDEADBEEF]) = true := by decide
theorem test_readfreq_zero :
    ended (exec (.readfreq 0 0 0) (ready 0 0x0620000B 0 locked)) (fun t =>
      t.rsp.status == .errDivZero && t.rsp.res0 == 0) = true := by decide
theorem test_teardown :
    ended (exec (.teardown 0 0 0) (ready 0 0 0 [])) (fun t =>
      t.handle == ⟨false, 0x1FE00490, 0, 100000⟩ && t.trace == [.mapRelease] && t.rsp.status == .ok) = true := by decide
theorem test_teardown_twice :
    ended (exec (.teardown 0 0 0) State.reset) (fun t => t.rsp.status == .errNotInit && t.trace == []) = true := by decide
theorem test_illegal :
    ended (step (State.reset.withFetchWord 104 0xB000000010000000200000003)) (fun t =>
      t.cmd == ⟨11, 1, 2, 3⟩ && t.rsp.status == .errIllegalCmd && t.seq.fsm == .idle) = true := by decide

/-! ### Witnesses: for every statement with hypotheses, states and operands that meet them all, each clause at its edges -/

theorem witness_EveryCommandHasOneWord : decode 0xAFFFFFFFFFFFFFFFFFFFFFFFF = .command (.teardown (-1) (-1) (-1)) := by decide

theorem witness_StepRunsThePresentedCommand :
    let s := hosted [.command (encode (.apply 3 49 11)), .quiet] (ready 0 0 0 locked)
    s.seq.fsm = .idle ∧ s.env.host = .command (encode (.apply 3 49 11)) :: [.quiet] ∧ s.env.fine = false := by decide

theorem witness_IllegalCommandIsAnsweredAtOnce :
    let w0 : CommandWord := 0
    let w11 : CommandWord := 0xB000000000000000000000000
    let w15 : CommandWord := 0xFFFFFFFFFFFFFFFFFFFFFFFFF
    (opField w0 = 0 ∧ 11 ≤ opField w11 ∧ 11 ≤ opField w15) ∧ (hosted [.command w0] State.reset).seq.fsm = .idle := by decide

theorem witness_BusyPortHoldsTheCommand :
    let s := hosted [.command (encode (.apply 4 52 20))] (flying .waitingLock 0 3 49 11 (ready 2 0 0 [false]))
    s.seq.fsm ≠ .idle ∧ ended (step s) (fun _ => true) = true := by decide

theorem witness_ResetInAnyStateClearsCoreOnly :
    (hosted [.reset] (flying .paramStaged 1 3 49 11 (ready 0 0 0 locked))).env.host = .reset :: [] := by decide

theorem witness_IdleCoreStaysAsItIs : State.reset.seq.fsm = .idle ∧ State.reset.env.host = [] := by decide

theorem witness_FineStepsReachTheWholeCommandState :
    let s := hosted [.command (encode (.apply 3 49 11))] (ready 0 0 0 locked)
    (s.seq.fsm = .idle ∧ s.env.host = [.command (encode (.apply 3 49 11))] ∧ s.env.fine = false) ∧
      ended (step s) (fun _ => true) = true := by decide

/-- Word 1 of variant 0 holds `locked` (bit 7), word 0 does not; bits 6 and 8 of word 1 are outside it. -/
theorem witness_RegReadReturnsTheStoredWordAndTheDraw :
    hw.WF ∧ 0 < ((ready 0 0 0 locked).layout hw).nwords ∧ 1 < ((ready 0 0 0 locked).layout hw).nwords ∧
      ended (busRead hw 0 (ready 0 0 0 locked)) (fun _ => true) = true ∧
      ended (busRead hw 1 (ready 0 0 0 locked)) (fun _ => true) = true ∧
      ¬ Field.Holds layout0.locked 1 6 ∧ ¬ Field.Holds layout0.locked 1 8 ∧ layout0.locked.word = 1 :=
  ⟨hw_wf, by decide⟩

theorem witness_RegWriteStoresAllButLocked :
    hw.WF ∧ 1 < ((ready 0 0 0 locked).layout hw).nwords ∧
      ended (busWrite hw 1 0xFFFFFFFF (ready 0 0 0 locked)) (fun t => t.pll.words.w1 == 0xFFFFFF7F) = true ∧
      ¬ Field.Holds layout0.locked 1 6 ∧ layout0.locked.word = 1 ∧ (0 : Nat) ≠ 1 :=
  ⟨hw_wf, by decide⟩

/-- The edge of `set_param` on variant 2 and of `powerdown` on variant 3, no edge, and the word written over itself. -/
theorem witness_ActiveChangesOnlyAtTheCommitEvent :
    hw.WF ∧ 0 < ((ready 2 0 0 []).layout hw).nwords ∧
      ended (busWrite hw 0 0x10000000 (ready 2 0 0 [])) (fun t => t.pll.active.isSome) = true ∧
      ended (busWrite hw 0 0 (ready 3 1 0 [])) (fun t => t.pll.active.isSome) = true ∧
      ended (busWrite hw 0 1 (ready 3 0 0 [])) (fun t => t.pll.active.isNone) = true ∧
      ended (busWrite hw 0 0x10000000 (ready 2 0x10000000 0 [])) (fun t => t.pll.active.isNone) = true ∧
      ((0x10000000 : Word) = (ready 2 0x10000000 0 []).pll.words.get 0 ∧ layout2.locked.word = 0 ∧
        (0x10000000 : Word).getLsbD layout2.locked.off = false) :=
  ⟨hw_wf, by decide⟩

/-- The last word inside the address space and the first one past it; a bus that acknowledges one more, and none. -/
theorem witness_BusTransactionsCompleteOrStopByName :
    let s := { ready 0 0 0 locked with handle := ⟨true, 0xFFFFFFFC, 0, 100000⟩ }
    (2 ^ 32 ≤ s.handle.base.toNat + 4 * 1 ∧ s.handle.base.toNat + 4 * 0 < 2 ^ 32) ∧
      (∃ n, some 5 = some n ∧ n ≤ 5) ∧ (∀ n, some 5 = some n → 4 < n) :=
  ⟨by decide, ⟨5, rfl, by decide⟩, fun n h => by cases h; decide⟩

/-- Each case of R69: bypassed; deselected, powered down, never committed; the PLL's; an APPLY that sees the lock; another
command; a reset. An APPLY that does not see it is the last state of `witness_ApplyReportsTheLockWait`. -/
theorem witness_OutputAfterALockedApplyIsTrusted :
    readField (⟨0, 0x1000⟩ : RegWords) layout0.bypass = 1 ∧
      (readField (⟨0, 0⟩ : RegWords) layout0.bypass ≠ 1 ∧ layout0.selOut = some ⟨1, 8, 1⟩ ∧
        readField (⟨0, 0⟩ : RegWords) ⟨1, 8, 1⟩ = 0 ∧ readField (⟨0, 0x2100⟩ : RegWords) layout0.powerdown = 1 ∧
        (ready 0 0 0x100 []).pll.active = none) ∧
      (readField (⟨0, 0x100⟩ : RegWords) layout0.bypass ≠ 1 ∧ readField (⟨0, 0x100⟩ : RegWords) ⟨1, 8, 1⟩ = 1 ∧
        readField (⟨0, 0x100⟩ : RegWords) layout0.powerdown ≠ 1) ∧
      (let s := ready 0 0 0 locked;
        (decodeStatus (s.layout hw) s.pll.words).setParam = 0 ∧ Programmable s ⟨3, 49, 11⟩ ∧ s.BoardAsTold ∧
          s.handle.valid = true ∧ ended (exec (.apply 3 49 11) s) (fun t => t.rsp.status == .ok) = true) ∧
      (∀ a b c, Instr.readfreq 0 0 0 ≠ .apply a b c) ∧
      ended (exec (.readfreq 0 0 0) (ready 0 0x0620000B 0x103 locked)) (fun _ => true) = true ∧
      (hosted [.reset] (ready 0 0x0620000B 0x103 locked)).env.host = .reset :: [] :=
  ⟨by decide, by decide, by decide, ⟨by decide, by decide, by decide, by decide, by decide⟩,
    fun _ _ _ h => (nomatch h), by decide, rfl⟩

theorem witness_LookupAnswersTheFirstMatch :
    (∃ before after e, hw.table = before ++ e :: after ∧ e.clockKhz = 25175 ∧ ∀ x ∈ before, x.clockKhz ≠ 25175) ∧
      (∀ x ∈ hw.table, x.clockKhz ≠ 0) :=
  ⟨⟨referenceTable.take 1, [], ⟨25175, 640, 480, 60, 85, 107, 5⟩, by decide⟩, by decide⟩

theorem witness_LookupOfTheReferenceTable : (148501 : Word) ≠ 148500 ∧ (148501 : Word) ≠ 25175 := by decide

/-- Both ends of Fits on variant 0, a zero of either divider, and the largest reference. -/
theorem witness_CalcfreqAnswersTheFormula :
    let s := { ready 0 0 0 [] with handle := ⟨true, 0, 0, 4194303⟩ }
    (s.handle.valid = true ∧ s.handle.refKhz.toNat ≤ 4194303) ∧
      fits (s.layout hw) ⟨128, 49, 11⟩ = false ∧ fits (s.layout hw) ⟨3, 512, 11⟩ = false ∧
      (fits (s.layout hw) ⟨0, 49, 11⟩ = true ∧ (0 : Word) = 0) ∧ fits (s.layout hw) ⟨3, 49, 0⟩ = true ∧
      (fits (s.layout hw) ⟨127, 511, 127⟩ = true ∧ (127 : Word) ≠ 0) := by decide

theorem witness_FreqIsMonotone :
    let p : ClockParams := ⟨3, 98, 11⟩
    let q : ClockParams := ⟨3, 49, 11⟩
    (0 < p.divRef.toNat ∧ 0 < p.divOut.toNat ∧ p.divRef.toNat ≤ q.divRef.toNat ∧ q.loopc.toNat ≤ p.loopc.toNat ∧
      p.divOut.toNat ≤ q.divOut.toNat) ∧ p.divRef = q.divRef ∧ p.divOut = q.divOut ∧
      p.loopc.toNat = 2 * q.loopc.toNat := by decide

theorem witness_CandidatesAreOrderedAndComplete :
    genericBounds.doutHi ≤ 2 ^ 32 ∧ genericBounds.drefHi ≤ 2 ^ 32 ∧ genericBounds.loopcHi ≤ 2 ^ 32 := by decide

theorem witness_SearchAnswersTheFirstBestCandidate :
    (ready 3 0 0 []).handle.valid = true ∧ (ready 3 0 0 []).handle.refKhz.toNat ≤ 4194303 := by decide

theorem witness_SearchWithNoCandidateFails :
    (ready 0 0 0 []).handle.valid = true ∧
      candidates ((ready 0 0 0 []).bounds (boundedTo ⟨6, 64, 3, 3, 6, 161⟩)) = [] ∧
      candidates ((ready 0 0 0 []).bounds (boundedTo ⟨6, 7, 3, 4, 6, 36⟩)) = [] := by decide

theorem witness_SearchResultsAreUsable :
    (ready 3 0 0 []).handle.valid = true ∧ ∃ t, exec (.search 4294967295 0 0) (ready 3 0 0 []) = .next t :=
  ⟨rfl, _, exec_search_valid rfl _ _ _⟩

/-- A request that one candidate misses by at most the tolerance ends with OK. -/
theorem search_ok_of_candidate {s : State} (hv : s.handle.valid = true) (hr : s.handle.refKhz.toNat ≤ refKhzMax)
    {req : Word} {p : ClockParams} (hp : p ∈ loopPasses (s.bounds hw)) (ht : ratio p = true)
    (hd : searchDiff s.handle.refKhz.toNat req p ≤ toleranceKhz) :
    ∃ t, exec (.search req 0 0) s = .next t ∧ t.rsp.status = .ok := by
  obtain ⟨h1, h2⟩ := le_of_records (hw_records hr req) hp ht
  refine ⟨_, exec_search_valid hv req 0 0, ?_⟩
  show (searchResult hw req s).verdict = .ok
  simp [SearchRegs.verdict, h1, Nat.le_trans h2 hd]

/-- The requests next to the range, and that both ends of it succeed (95_test_vectors 2.4: SEARCH 18047, SEARCH 534333). -/
theorem witness_SearchReachesExactlyTheRange :
    let s := ready 0 0 0 []
    s.handle.valid = true ∧ s.handle.refKhz = 100000 ∧ s.handle.variant ≠ 3 ∧
      ((18046 : Word).toNat < 18047 ∧ 534333 < (534334 : Word).toNat) ∧
      (∃ t, exec (.search 18047 0 0) s = .next t ∧ t.rsp.status = .ok) ∧
      (∃ t, exec (.search 534333 0 0) s = .next t ∧ t.rsp.status = .ok) := by
  refine ⟨rfl, rfl, by decide, by decide, ?_, ?_⟩
  · exact search_ok_of_candidate rfl (by decide) (hw_candidate _) (by decide) (by decide)
  · exact search_ok_of_candidate rfl (by decide) (p := ⟨4, 128, 6⟩)
      (mem_loopPasses.2 ⟨6, 4, 128, by decide, by decide, by decide, rfl⟩) (by decide) (by decide)

theorem witness_ComputeAnswersAFittingTableHit :
    (ready 0 0 0 []).handle.valid = true ∧ (ready 0 0 0 []).handle.variant = 0 ∧ (ready 2 0 0 []).handle.variant = 2 := by decide

theorem witness_ComputeSearchesOnMissOrMisfit :
    (ready 1 0 0 []).handle.valid = true ∧ (148499 : Word) ≠ 148500 ∧ (148499 : Word) ≠ 25175 ∧
      (ready 1 0 0 []).handle.variant = 1 ∧ (ready 3 0 0 []).handle.variant = 3 := by decide

theorem witness_ComputeResultsFitTheVariant : (ready 3 0 0 []).handle.valid = true := by decide

theorem witness_ExtractAfterInsert :
    layout0.WF ∧ layout0.divRef ∈ layout0.fields ∧ layout0.locked ∈ layout0.fields ∧ layout0.divRef ≠ layout0.locked := by decide

theorem witness_DecodeAfterEncodeIsTheTriple :
    (layout1.WF ∧ fits layout1 ⟨63, 1023, 63⟩ = true) ∧ hw.variant3.WF ∧
      (63 : Word).toNat < hw.variant3.bounds.doutHi ∧ (5 : Word).toNat < hw.variant3.bounds.drefHi ∧
      (127 : Word).toNat < hw.variant3.bounds.loopcHi := by decide

/-- Bit 9 of word 1 of variant 0 is reserved. -/
theorem witness_StagingAndControlBitsDoNotInterfere :
    layout0.WF ∧ 1 < layout0.nwords ∧ layout0.Reserved 1 9 ∧ layout0.powerdown ∈ layout0.bitFields := by decide

theorem witness_EncodeAfterDecodeIsTheRegister : layout3.WF ∧ 0 < layout3.nwords := by decide

/-- The largest triple of variant 2, and one too large; bit 19 of its word is no parameter bit; it has one word. -/
theorem witness_EncodeAnswersTheImage :
    (ready 2 0 0 []).handle.valid = true ∧ fits ((ready 2 0 0 []).layout hw) ⟨15, 255, 127⟩ = true ∧
      fits ((ready 2 0 0 []).layout hw) ⟨15, 256, 127⟩ = false ∧
      ¬ ((ready 2 0 0 []).layout hw).ParamBit 0 19 ∧ ((ready 2 0 0 []).layout hw).nwords = 1 := by decide

theorem witness_DecodeAnswersTheFields :
    (ready 3 0 0 []).handle.valid = true ∧ ((ready 3 0 0 []).layout hw).nwords = 1 := by decide

/-- No handle; div_out one too large for variant 1; either divider 0; a triple that violates Ratio. -/
theorem witness_ApplyTestsOnlyHandleFitsAndZero :
    let s := ready 1 0 0 []
    State.reset.handle.valid = false ∧ s.handle.valid = true ∧ fits (s.layout hw) ⟨5, 107, 64⟩ = false ∧
      fits (s.layout hw) ⟨0, 49, 11⟩ = true ∧ fits (s.layout hw) ⟨3, 49, 0⟩ = true ∧
      (fits (s.layout hw) ⟨63, 0, 63⟩ = true ∧ (63 : Word) ≠ 0 ∧ ratio ⟨63, 0, 63⟩ = false ∧ s.Live ∧ s.WindowInside hw) := by decide

/-- A programmable triple that violates Ratio (R171), and a window that ends at the top of the address space. -/
theorem witness_ApplyLeavesTheRegisterProgrammed :
    let s := { ready 0 0xDEADBEEF 0xCAFEF00D [] with handle := ⟨true, 0xFFFFFFF8, 0, 100000⟩ }
    s.handle.valid = true ∧ Programmable s ⟨3, 200, 11⟩ ∧ s.Live ∧ s.WindowInside hw ∧ (s.layout hw).Reserved 1 31 := by decide

theorem witness_ApplyWithCommitBitSetDoesNotCommit :
    let s := ready 2 0x10000000 0 locked
    s.handle.valid = true ∧ Programmable s ⟨3, 49, 11⟩ ∧ (s.layout hw).setParam = some ⟨0, 28, 1⟩ ∧
      readField s.pll.words ⟨0, 28, 1⟩ = 1 ∧ ended (exec (.apply 3 49 11) s) (fun _ => true) = true := by decide

theorem lockAt_replicate {e : Env} {b : Bool} {n k : Nat} {rest : List Bool}
    (h : e.lockScript = List.replicate n b ++ rest) (hk : k < n) : e.lockAt k = b := by
  unfold Env.lockAt
  rw [h, List.getElem?_append_left (by rw [List.length_replicate]; exact hk), List.getElem?_replicate, if_pos hk]
  rfl

theorem lockAt_after {e : Env} {b c : Bool} {n : Nat} {rest : List Bool}
    (h : e.lockScript = List.replicate n b ++ c :: rest) : e.lockAt n = c := by
  unfold Env.lockAt
  rw [h, List.getElem?_append_right (by rw [List.length_replicate]), List.length_replicate, Nat.sub_self]
  rfl

/-- The lock seen on the first poll, on the last permitted one, and on none (variant 2: six reads before the polls). -/
theorem witness_ApplyReportsTheLockWait :
    let first := ready 2 0 0 locked
    let last := ready 2 0 0 (List.replicate 2005 false ++ [true])
    let never := ready 2 0 0 (List.replicate 2006 false ++ [])
    (first.handle.valid = true ∧ Programmable first ⟨3, 49, 11⟩ ∧ first.Live ∧ first.WindowInside hw) ∧
      lockReadsBeforePolls layout2 ⟨3, 49, 11⟩ = 6 ∧ first.env.lockAt (first.env.lockPos + 6 + 0) = true ∧
      ((∀ m, m < 1999 → last.env.lockAt (last.env.lockPos + 6 + m) = false) ∧
        last.env.lockAt (last.env.lockPos + 6 + 1999) = true) ∧
      (∀ m, m < 2000 → never.env.lockAt (never.env.lockPos + 6 + m) = false) := by
  refine ⟨by decide, by decide, by decide, ⟨fun m hm => ?_, ?_⟩, fun m hm => ?_⟩
  · exact lockAt_replicate rfl (show 0 + 6 + m < 2005 by omega)
  · exact lockAt_after (n := 2005) rfl
  · exact lockAt_replicate rfl (show 0 + 6 + m < 2006 by omega)

theorem witness_ApplyChangesNothingElse :
    ended (exec (.apply 3 49 11) (ready 3 0 0 locked)) (fun _ => true) = true ∧
      ((ready 3 0 0 locked).layout hw).nwords = 1 := by decide

theorem witness_ApplyTransactionCounts :
    ∀ v : BitVec 2, (ready v 0 0 locked).handle.valid = true ∧ Programmable (ready v 0 0 locked) ⟨3, 49, 11⟩ ∧
      ended (exec (.apply 3 49 11) (ready v 0 0 locked)) (fun _ => true) = true := by decide

theorem witness_ApplyWritesFollowReads :
    ended (exec (.apply 3 49 11) (ready 1 0 0 locked)) (fun t => t.trace.any PortEvent.isWrite) = true := by decide

/-- The seven SetBits made by two steps each, on variant 0, which has every bit, and the first one. -/
theorem witness_TwoStepsMakeOneSetBit :
    let s := fun (q : Fsm) (k : BitVec 3) => flying q k 3 49 11 (ready 0 0 0 locked)
    (∀ qk ∈ [(Fsm.bypassed, (0 : BitVec 3)), (.off, 0), (.paramStaged, 0), (.paramStaged, 2), (.paramCommitted, 0),
      (.waitingLock, 1), (.on, 0)], (s qk.1 qk.2).seq.fsm = qk.1 ∧ (s qk.1 qk.2).seq.sub = qk.2 ∧
      (s qk.1 qk.2).env.host = [] ∧ (s qk.1 qk.2).Live ∧ (s qk.1 qk.2).WindowInside hw) ∧
    (((s .bypassed 0).layout hw).selOut = some ⟨1, 8, 1⟩ ∧ ((s .paramStaged 0).layout hw).setParam = some ⟨1, 11, 1⟩) ∧
    (let u := hosted [.command (encode (.apply 3 49 11))] (s .idle 0);
      u.seq.fsm = .idle ∧ u.env.fine = true ∧ u.env.host = .command (encode (.apply 3 49 11)) :: [] ∧
        u.handle.valid = true ∧ Programmable u ⟨3, 49, 11⟩ ∧ u.Live ∧ u.WindowInside hw) := by decide

/-- The lock seen; not seen on the last permitted poll; not seen before that. -/
theorem witness_OneStepIsOnePoll :
    let s := fun (draw : Bool) (n : BitVec 11) =>
      let u := flying .waitingLock 0 3 49 11 (ready 2 0 0 [draw])
      { u with seq := { u.seq with lockIters := n } }
    (∀ d : Bool, ∀ n ∈ [(0 : BitVec 11), 1998, 1999], Polling (s d n) ∧ PollOk (s d n) ∧ (s d n).env.host = [] ∧
      (s d n).Live ∧ (s d n).WindowInside hw ∧ (s d n).env.lockAt (s d n).env.lockPos = d) := by decide

theorem witness_SecondApplyDecidesTheRegister :
    let s := hosted [.command (encode (.apply 3 49 11)), .command (encode (.apply 4 52 20))] (ready 2 0xFFFFFFFF 0 [])
    s.handle.valid = true ∧ Programmable s ⟨3, 49, 11⟩ ∧ Programmable s ⟨4, 52, 20⟩ ∧ s.Live ∧ s.WindowInside hw ∧
      s.seq.fsm = .idle ∧ s.env.fine = false ∧
      s.env.host = [.command (encode (.apply 3 49 11)), .command (encode (.apply 4 52 20))] := by decide

theorem witness_ReadfreqAnswersTheStoredTriple :
    let s := { ready 1 0xFFFFFFFF 0xFFFFFFFF [] with handle := ⟨true, 0xFFFFFFF8, 1, 4194303⟩ }
    s.handle.valid = true ∧ s.handle.refKhz.toNat ≤ 4194303 ∧ s.Live ∧ s.WindowInside hw ∧
      (decodeParams (s.layout hw) s.pll.words).divRef ≠ 0 ∧ (decodeParams (s.layout hw) s.pll.words).divOut ≠ 0 := by decide

theorem witness_ReadfreqReportsZeroDividers :
    let s := ready 0 0x0620000B 0 []
    s.handle.valid = true ∧ s.Live ∧ s.WindowInside hw ∧
      zeroDivider (decodeParams (s.layout hw) s.pll.words) = true := by decide

theorem witness_ReadfreqAfterApplyAnswersTheTriple :
    let s := ready 3 0 0 locked
    s.handle.valid = true ∧ s.handle.refKhz.toNat ≤ 4194303 ∧ Programmable s ⟨3, 49, 11⟩ ∧ s.Live ∧ s.WindowInside hw ∧
      ended (exec (.apply 3 49 11) s) (fun _ => true) = true := by decide

theorem witness_InitFillsTheHandle :
    let s := granting [.grant] State.reset
    s.handle.valid = false ∧ (3 : Word).toNat ≤ 3 ∧ (0xFFFFFFFC : Word).toNat % 4 = 0 ∧ 1 ≤ (1 : Word).toNat ∧
      (1 : Word).toNat ≤ 4194303 ∧ s.env.grantAt s.env.grantPos = .grant := by decide

theorem witness_InitErrorsChangeNoHandleRegister :
    ((ready 0 0 0 []).handle.valid = true ∧ State.reset.handle.valid = false) ∧ 3 < (4 : Word).toNat ∧
      (0x1FE00492 : Word).toNat % 4 ≠ 0 ∧ (0 : Word).toNat = 0 ∧ 4194303 < (4194304 : Word).toNat ∧
      ((3 : Word).toNat ≤ 3 ∧ (0 : Word).toNat % 4 = 0 ∧ 1 ≤ (4194303 : Word).toNat ∧ (4194303 : Word).toNat ≤ 4194303) ∧
      (granting [.deny] State.reset).env.grantAt 0 = .deny ∧ (granting [.silent] State.reset).env.grantAt 0 = .silent := by decide

theorem witness_TeardownReleasesOnce : (ready 0 0 0 []).handle.valid = true := by decide

/-- An INIT from reset and a TEARDOWN after a grant. -/
theorem witness_GrantsAndReleasesAlternate :
    let s := hosted [.command (encode (.init 0 0 1))] (granting [.grant] State.reset)
    let u := hosted [.command (encode (.teardown 0 0 0))] { ready 0 0 0 [] with trace := [.mapGrant, .mapReq 0 8] }
    (MapInv s ∧ s.env.host.head? ≠ some .reset ∧ ended (step s) (fun _ => true) = true) ∧
      (MapInv u ∧ u.env.host.head? ≠ some .reset ∧ ended (step u) (fun _ => true) = true) := by decide

theorem witness_CommandsNeedAHandle :
    (ready 0 0 0 []).handle.valid = true ∧ State.reset.handle.valid = false ∧
      (∀ a b c, Instr.teardown 0 0 0 ≠ .init a b c) ∧ (∀ a b c, Instr.teardown 0 0 0 ≠ .lookup a b c) :=
  ⟨by decide, by decide, fun _ _ _ h => (nomatch h), fun _ _ _ h => (nomatch h)⟩

theorem witness_EveryCommandResponds :
    let s := granting [.deny] State.reset
    s.Live ∧ s.WindowInside hw ∧ s.env.grantAt s.env.grantPos ≠ .silent := by decide

theorem witness_CheckErrorsArePrecise :
    ended (exec (.calcfreq 0 49 11) (ready 0 0 0 [])) (fun t => t.rsp.status.isCheckFailure) = true ∧
      ended (exec (.init 0 0 1) (granting [.deny] State.reset)) (fun t => t.rsp.status.isCheckFailure) = true := by decide

/-- INIT and TEARDOWN change the handle, APPLY the cache, the target and the lock registers, SEARCH the S_* registers. -/
theorem witness_OnlyTheNamedCommandsWrite :
    ended (exec (.init 0 0 1) (granting [.grant] State.reset)) (fun t => t.handle != State.reset.handle) = true ∧
      ended (exec (.teardown 0 0 0) (ready 0 0 0 [])) (fun t => t.handle != (ready 0 0 0 []).handle) = true ∧
      ended (exec (.apply 3 49 11) (ready 0 0 0 locked)) (fun t =>
        t.cache != (ready 0 0 0 []).cache && t.pll != (ready 0 0 0 []).pll && t.seq.lockIters != 0) = true ∧
      ∃ t, exec (.search 0 0 0) (ready 0 0 0 []) = .next t ∧ t.search ≠ (ready 0 0 0 []).search := by
  refine ⟨by decide, by decide, by decide, _, exec_search_valid rfl _ _ _, ?_⟩
  intro h
  have hf := hw_found (s := ready 0 0 0 []) (by decide) 0
  simp only [respondSearch, respond_search] at h
  rw [h] at hf
  exact absurd hf (by decide)

/-- A state in the middle of step 3: read made, write to come. -/
def midway : State :=
  let s := flying .off 1 3 49 11 (ready 2 0x20000000 0 locked)
  { s with seq := { s.seq with read := ⟨0x20000000, 0⟩ } }

theorem witness_StepKeepsTheRegisterInvariant : Inv midway ∧ ended (step midway) (fun _ => true) = true :=
  ⟨⟨by decide, by decide, by decide, by decide, by decide⟩, by decide⟩

theorem witness_StepKeepsTheProtocolInvariant : ProtocolInv midway ∧ ended (step midway) (fun _ => true) = true :=
  ⟨⟨witness_StepKeepsTheRegisterInvariant.1, by decide, by decide, by decide, by decide, by decide, by decide, by decide,
    by decide⟩, by decide⟩

theorem witness_CopiesDoNotDisturbEachOther :
    (0 : Nat) ≠ 1 ∧ (∃ z, System.reset.stepAt 0 = .next z) ∧ (∃ u, System.reset.stepAt 1 = .next u) :=
  ⟨by decide, ⟨_, rfl⟩, ⟨_, rfl⟩⟩

/-- With H_REF_KHZ = 1 every computed value is 0, so a COMPUTE out of the table and above the tolerance fails. -/
theorem compute_fails {s : State} (hv : s.handle.valid = true) (h1 : s.handle.refKhz.toNat = 1) {req : Word}
    (ht : tableFind hw.table req = none) (hreq : toleranceKhz < req.toNat) :
    ∃ t, exec (.compute req 0 0) s = .next t ∧ t.rsp.status = .errToleranceExceeded := by
  have hr : s.handle.refKhz.toNat ≤ refKhzMax := by rw [h1]; decide
  have hf := hw_found hr req
  have hrec := hw_records hr req
  obtain ⟨-, -, -, hd, -⟩ := hrec.first hf
  have h3 := (hw_pass (mem_of_records hrec hf).1).2.1.1
  have hz : freq s.handle.refKhz.toNat (searchResult hw req s).best = 0 := by
    rw [freq, h1, Nat.div_eq_of_lt (show 1 < _ by omega), Nat.zero_mul, Nat.zero_div]
  have hv' : (searchResult hw req s).verdict = .errToleranceExceeded := by
    rw [searchDiff, hz, absDiff, if_pos (Nat.zero_le _), Nat.sub_zero] at hd
    rw [SearchRegs.verdict, hd, if_neg (by simp [Nat.not_le_of_lt hreq])]
  refine ⟨respondSearch (searchResult hw req s) s, ?_, hv'⟩
  simp [exec, execCompute, computeCmd, searchBody, hv, ht]

/-- A state in which nothing but the lowest frequencies can be reached. -/
def slow : State := { ready 0 0 0 [] with handle := ⟨true, 0, 0, 1⟩ }

/-- The longest line, and GETFREQ, assemble. -/
theorem witness_AssemblerEncodesTheWrittenOperands :
    (⟨none, .APPLY, [3, 49, 2 ^ 32 - 1]⟩ : CommandLine).assemble = some (.apply 3 49 0xFFFFFFFF) ∧
      (⟨some 0, .GETFREQ, []⟩ : CommandLine).assemble = some (.readfreq 0 0 0) := by decide

/-- SETFREQ of a table entry applies it; SETFREQ out of reach (with H_REF_KHZ = 1) ends with the failed COMPUTE. -/
theorem witness_SetfreqAppliesOnlyASuccessfulCompute :
    ((ready 0 0 0 locked).handle.valid = true ∧ (ready 0 0 0 locked).Live ∧ (ready 0 0 0 locked).WindowInside hw ∧
      ended (issue (.compute 148500 0 0) (ready 0 0 0 locked)) (fun u => u.rsp.status == .ok) = true ∧
      ended (setfreq 148500 (ready 0 0 0 locked)) (fun t => t.rsp.status == .ok) = true) ∧
    slow.handle.valid = true ∧ ∃ t, setfreq 600000 slow = .next t ∧ t.rsp.status = .errToleranceExceeded := by
  refine ⟨by decide, rfl, ?_⟩
  have hd : decode (encode (.compute 600000 0 0)) = .command (.compute 600000 0 0) := by decide
  obtain ⟨t, ht, hs⟩ := compute_fails (req := 600000)
    (s := accept (encode (.compute 600000 0 0))
      (withHost [] (endPulse (presentWord (encode (.compute 600000 0 0)) slow)))) rfl rfl (by decide) (by decide)
  refine ⟨t, ?_, hs⟩
  have hr : ∀ u, runWord exec (encode (.compute 600000 0 0)) u = exec (.compute 600000 0 0) u := by
    intro u; rw [runWord, hd]
  have hi : issueBy step (.compute 600000 0 0) slow = .next t := by rw [← ht, ← hr]; rfl
  rw [setfreq, setfreqBy, hi, andThen_next, hs, if_neg (by decide)]

end Sys2Proof.Tests
end

section
/-! The command port (10_state R33, R43, R45, R47): which word decodes to which command, and what one step is for each of the
host's inputs. -/

namespace Sys2Proof

theorem decode_packCommand (op : BitVec 4) (a b c : Word) :
    decode (packCommand op a b c) = decodeFields op a b c := by
  rw [decode, opField_packCommand, aField_packCommand, bField_packCommand, cField_packCommand]

@[simp] theorem decode_encode (i : Instr) : decode (encode i) = .command i := by
  rw [encode, decode_packCommand]
  cases i <;> rfl

/-- A word that decodes to a command carries this command's operands (R90). -/
theorem operands_of_decode {w : CommandWord} {i : Instr} (h : decode w = .command i) :
    i.a = aField w ∧ i.b = bField w ∧ i.c = cField w := by
  unfold decode decodeFields at h
  split at h <;> cases h <;> exact ⟨rfl, rfl, rfl⟩

namespace Machine

/-- The operand registers after the acceptance of a command (R26, R33). -/
theorem accept_encode (i : Instr) (s : State) :
    accept (encode i) s = { s with cmd := ⟨i.opcode, i.a, i.b, i.c⟩ } := by
  rw [accept, encode, opField_packCommand, aField_packCommand, bField_packCommand, cField_packCommand]

theorem runWord_encode (run : Instr → State → Outcome) (i : Instr) (s : State) :
    runWord run (encode i) s = run i s := by
  rw [runWord, decode_encode]

/-! ### One step, by the host's next input -/

theorem step_reset {s : State} {rest : List HostInput} (h : s.env.host = .reset :: rest) :
    step s = .next (resetCore (withHost rest (endPulse s))) := by
  rw [step, stepInput, endPulse_env, h]

theorem step_accept {s : State} {w : CommandWord} {rest : List HostInput} (hq : s.seq.fsm = .idle)
    (h : s.env.host = .command w :: rest) :
    step s = acceptAndRun hw exec w (withHost rest (endPulse s)) := by
  rw [step, stepInput, endPulse_env, h]
  exact if_pos hq

theorem step_busy {s : State} {w : CommandWord} {rest : List HostInput} (hq : s.seq.fsm ≠ .idle)
    (h : s.env.host = .command w :: rest) : step s = advance hw exec (endPulse s) := by
  rw [step, stepInput, endPulse_env, h]
  exact if_neg hq

theorem step_noInput {s : State} (h : s.env.host = []) : step s = advance hw exec (endPulse s) := by
  rw [step, stepInput, endPulse_env, h]

theorem step_quiet {s : State} {rest : List HostInput} (h : s.env.host = .quiet :: rest) :
    step s = advance hw exec (withHost rest (endPulse s)) := by
  rw [step, stepInput, endPulse_env, h]

/-- A step that answers is a reset, the acceptance of a command in IDLE, or one more clock of what is in flight. -/
theorem step_cases {s t : State} (h : step s = .next t) :
    (∃ rest, t = resetCore (withHost rest (endPulse s))) ∨
      (s.seq.fsm = .idle ∧ ∃ w rest, acceptAndRun hw exec w (withHost rest (endPulse s)) = .next t) ∨
      ∃ rest, advance hw exec (withHost rest (endPulse s)) = .next t := by
  cases hh : s.env.host with
  | nil =>
    rw [step_noInput hh] at h
    exact Or.inr (Or.inr ⟨s.env.host, h⟩)
  | cons x rest =>
    cases x with
    | reset => rw [step_reset hh] at h; exact Or.inl ⟨rest, (next_inj h).symm⟩
    | quiet => rw [step_quiet hh] at h; exact Or.inr (Or.inr ⟨rest, h⟩)
    | command w =>
      by_cases hq : s.seq.fsm = .idle
      · rw [step_accept hq hh] at h; exact Or.inr (Or.inl ⟨hq, w, rest, h⟩)
      · rw [step_busy hq hh] at h; exact Or.inr (Or.inr ⟨s.env.host, h⟩)

/-- In IDLE one more clock changes nothing (R47). -/
theorem advance_idle {cfg : Config} {run : Instr → State → Outcome} {s : State} (hq : s.seq.fsm = .idle) :
    advance cfg run s = .next s := by
  rw [advance, hq]

theorem advance_exec {cfg : Config} {run : Instr → State → Outcome} {s : State} (hq : s.seq.fsm = .exec) :
    advance cfg run s = runWord run s.cmd.word s := by
  rw [advance, hq]

theorem advance_read {cfg : Config} {run : Instr → State → Outcome} {s : State} (hq : s.seq.fsm = .read) :
    advance cfg run s = readTick cfg s := by
  rw [advance, hq]

theorem advance_inApply {cfg : Config} {run : Instr → State → Outcome} {s : State} (hq : s.seq.fsm.inApply = true) :
    advance cfg run s = applyTick cfg s.cmd.params s := by
  unfold advance
  split <;> simp_all [Fsm.inApply]

end Machine
end Sys2Proof

open Sys2Proof Sys2Proof.Machine

/-- Settles O4: the acceptance latches what the encoder packed, and the decoder reads the command back. -/
theorem stepRunsThePresentedCommand : Obligations.StepRunsThePresentedCommand := by
  intro i rest s hq hhost hfine
  rw [step_accept hq hhost, acceptAndRun, if_neg (by simp [hfine]), runWord_encode, accept_encode]
  rfl

/-- Settles O7: the step with the host's reset is `resetCore`, whatever is in flight. -/
theorem resetInAnyStateClearsCoreOnly : Obligations.ResetInAnyStateClearsCoreOnly := by
  intro rest s h
  exact ⟨_, step_reset h, rfl, rfl, rfl, rfl, rfl, rfl, rfl, rfl, rfl, rfl, rfl, rfl⟩

/-- Settles O8: the reset state is written out field by field. -/
theorem resetStateHoldsTheListedValues : Obligations.ResetStateHoldsTheListedValues :=
  ⟨rfl, rfl, rfl, rfl, rfl, rfl, rfl, rfl, rfl, rfl, rfl, rfl, rfl⟩

/-- Settles O9: with no input the step is one clock of an idle sequencer. -/
theorem idleCoreStaysAsItIs : Obligations.IdleCoreStaysAsItIs := by
  intro s hq hhost
  exact (step_noInput hhost).trans (advance_idle hq)
end

section
/-! What a command can do to the state (10_state R21 to R36, R251): one relation for all ten, from which frames, invariants
and the end in IDLE follow. -/

namespace Sys2Proof.Machine

/-! ### A whole APPLY and a whole READFREQ -/

/-- A completed APPLY sequence: completion of a state that differs from the start only in target, sequencer and trace; the
lock registers say how the wait ended (R182, R183). -/
theorem applySequence_result {cfg : Config} (hc : cfg.WF) {p : ClockParams} {s t : State}
    (h : applySequence cfg p s = .next t) :
    ∃ u, ApplyFrame (unsettle s) u ∧ t = complete p u ∧ u.seq.lockIters.toNat ≤ lockPollMax ∧
      (u.seq.lockTimeout = true → u.seq.lockIters.toNat = lockPollMax) := by
  obtain ⟨s1, s2, s3, s4, h1, h2, h3, h4, rfl⟩ := applySequence_eq_next h
  obtain ⟨f1, -⟩ := transitions_frame h1 (by decide)
  obtain ⟨f2, -, -, hseq2, -⟩ := settle_eq_next h2
  have hit2 : s2.seq.lockIters.toNat = 0 := by rw [hseq2]; rfl
  obtain ⟨f3, -, -, -, m, -, hm, hit3, -, -, -, hend, -⟩ :=
    pollWait_eq_next hc h3 (by rw [hit2, Nat.zero_add]) (by decide) (by rw [hseq2])
  obtain ⟨f4, hit4, hto4, -⟩ := transitions_frame h4 (by decide)
  refine ⟨s4, ((f1.trans f2).trans f3).trans f4, rfl, by rw [hit4]; omega, fun hto => ?_⟩
  rw [hto4] at hto
  rw [hit4]
  split at hend
  · rw [hend] at hto; cases hto
  · omega

theorem respondFreq_eq_respond (cfg : Config) (s : State) :
    ∃ st r0, respondFreq cfg s = respond st r0 none none none s := by
  dsimp only [respondFreq]
  split
  · exact ⟨_, _, rfl⟩
  · exact ⟨_, _, rfl⟩

/-! ### The effects of a command -/

/-- What a command that answers has done (R94, R135, R170, R210, R221, R225): it answers from the state as it is, or it does
the one thing it is for and answers then. -/
inductive CommandEffect (s : State) : Instr → State → Prop
  | answer (i : Instr) (st : Status) (r0 r1 r2 r3 : Option Word) : CommandEffect s i (respond st r0 r1 r2 r3 s)
  | searched (i : Instr) (req : Word) (command : (∃ a b c, i = .search a b c) ∨ ∃ a b c, i = .compute a b c) :
      CommandEffect s i (respondSearch (searchResult hw req s) s)
  | granted (a b c : Word) (args : initArgsOk a b c = true) :
      CommandEffect s (.init a b c)
        (respond .ok none none none none (fillHandle a b c ((requestMap hw a b s).record .mapGrant)))
  | denied (a b c : Word) :
      CommandEffect s (.init a b c)
        (respond .errMapFailed none none none none ((requestMap hw a b s).record .mapDeny))
  | released (a b c : Word) :
      CommandEffect s (.teardown a b c)
        (respond .ok none none none none
          { s.record .mapRelease with
            handle := { s.handle with valid := false }, cache := { s.cache with valid := false } })
  | applied (a b c : Word) (u : State) (valid : s.handle.valid = true) (params : Programmable s ⟨a, b, c⟩)
      (frame : ApplyFrame (unsettle s) u) (iters : u.seq.lockIters.toNat ≤ lockPollMax)
      (timeout : u.seq.lockTimeout = true → u.seq.lockIters.toNat = lockPollMax) :
      CommandEffect s (.apply a b c) (complete ⟨a, b, c⟩ u)
  | readBack (i : Instr) (st : Status) (r0 : Option Word) (u : State) (frame : BusFrame (s.moveTo .read) u)
      (target : u.pll = s.pll) : CommandEffect s i (respond st r0 none none none u)

theorem CommandEffect.of_raise {i : Instr} {st : Status} {s t : State} (h : raise st s = .next t) :
    CommandEffect s i t := by
  cases h
  exact .answer ..

theorem initCmd_effect {a b c : Word} {s t : State} (h : initCmd hw a b c s = .next t) :
    CommandEffect s (.init a b c) t := by
  unfold initCmd at h
  split at h
  · exact .of_raise h
  · split at h
    · exact .of_raise h
    · rename_i hargs
      split at h
      · cases h
        exact .granted a b c (by simpa using hargs)
      · cases h
        exact .denied a b c
      · cases h

theorem lookupCmd_effect {i : Instr} {khz : Word} {s t : State} (h : lookupCmd hw khz s = .next t) :
    CommandEffect s i t := by
  unfold lookupCmd at h
  split at h
  · cases h
    exact .answer ..
  · exact .of_raise h

theorem searchCmd_effect {a b c : Word} {s t : State} (h : searchCmd hw a s = .next t) :
    CommandEffect s (.search a b c) t := by
  unfold searchCmd at h
  split at h
  · exact .of_raise h
  · cases h
    exact .searched _ a (Or.inl ⟨a, b, c, rfl⟩)

theorem computeCmd_effect {a b c : Word} {s t : State} (h : computeCmd hw a s = .next t) :
    CommandEffect s (.compute a b c) t := by
  have hsearch : searchBody hw a s = .next t → CommandEffect s (.compute a b c) t := by
    intro h
    cases h
    exact .searched _ a (Or.inr ⟨a, b, c, rfl⟩)
  unfold computeCmd at h
  split at h
  · exact .of_raise h
  · split at h
    · split at h
      · cases h
        exact .answer ..
      · exact hsearch h
    · exact hsearch h

theorem calcfreqCmd_effect {i : Instr} {p : ClockParams} {s t : State} (h : calcfreqCmd hw p s = .next t) :
    CommandEffect s i t := by
  unfold calcfreqCmd at h
  split at h
  · exact .of_raise h
  · split at h
    · exact .of_raise h
    · split at h
      · cases h
        exact .answer ..
      · cases h
        exact .answer ..

theorem encodeCmd_effect {i : Instr} {p : ClockParams} {s t : State} (h : encodeCmd hw p s = .next t) :
    CommandEffect s i t := by
  unfold encodeCmd at h
  split at h
  · exact .of_raise h
  · split at h
    · exact .of_raise h
    · cases h
      exact .answer ..

theorem decodeCmd_effect {i : Instr} {W : RegWords} {s t : State} (h : decodeCmd hw W s = .next t) :
    CommandEffect s i t := by
  unfold decodeCmd at h
  split at h
  · exact .of_raise h
  · cases h
    exact .answer ..

theorem applyCmd_effect {a b c : Word} {s t : State} (h : applyCmd hw ⟨a, b, c⟩ s = .next t) :
    CommandEffect s (.apply a b c) t := by
  rcases applyCmd_cases hw ⟨a, b, c⟩ s with ⟨st, -, he⟩ | ⟨hvalid, hfits, hzero, he⟩
  · rw [he] at h
    exact .of_raise h
  · rw [he] at h
    obtain ⟨u, hframe, rfl, hiters, hto⟩ := applySequence_result hw_wf h
    exact .applied a b c u hvalid ⟨hfits, hzero⟩ hframe hiters hto

theorem readfreqCmd_effect {i : Instr} {s t : State} (h : readfreqCmd hw s = .next t) : CommandEffect s i t := by
  rcases readfreqCmd_cases hw s with ⟨-, he⟩ | ⟨-, he⟩
  · rw [he] at h
    exact .of_raise h
  · rw [he] at h
    obtain ⟨u, hu, ht⟩ := andThen_eq_next.1 h
    obtain ⟨hframe, hpll⟩ := readAll_frame hu
    obtain ⟨st, r0, hr⟩ := respondFreq_eq_respond hw u
    rw [← next_inj ht, hr]
    exact .readBack i st r0 u hframe hpll

theorem teardownCmd_effect {a b c : Word} {s t : State} (h : teardownCmd s = .next t) :
    CommandEffect s (.teardown a b c) t := by
  unfold teardownCmd at h
  split at h
  · exact .of_raise h
  · cases h
    exact .released a b c

/-- Every command that answers has one of the effects. -/
theorem exec_effect {i : Instr} {s t : State} (h : exec i s = .next t) : CommandEffect s i t := by
  cases i with
  | init a b c => exact initCmd_effect h
  | lookup a b c => exact lookupCmd_effect h
  | search a b c => exact searchCmd_effect h
  | compute a b c => exact computeCmd_effect h
  | calcfreq a b c => exact calcfreqCmd_effect h
  | encode a b c => exact encodeCmd_effect h
  | decode a b c => exact decodeCmd_effect h
  | apply a b c => exact applyCmd_effect h
  | readfreq a b c => exact readfreqCmd_effect h
  | teardown a b c => exact teardownCmd_effect h

/-- A command word that is answered has the effect of some command; an illegal one only answers (R92). -/
theorem runWord_effect {w : CommandWord} {s t : State} (h : runWord exec w s = .next t) : ∃ i, CommandEffect s i t := by
  unfold runWord at h
  split at h
  · exact ⟨_, exec_effect h⟩
  · exact ⟨.lookup 0 0 0, .of_raise h⟩

/-! ### What every command has in common -/

/-- A command ends in IDLE with SUB = 0 and the response pulse (R34). -/
theorem CommandEffect.over {i : Instr} {s t : State} (h : CommandEffect s i t) :
    t.rsp.valid = true ∧ t.seq.fsm = .idle ∧ t.seq.sub = 0 := by
  cases h <;> exact ⟨rfl, rfl, rfl⟩

/-- A command leaves the operand registers and the host's coming inputs as they are (R26, R33). -/
theorem CommandEffect.keeps_port {i : Instr} {s t : State} (h : CommandEffect s i t) :
    t.cmd = s.cmd ∧ t.env.host = s.env.host := by
  cases h with
  | applied a b c u hvalid hparams hframe =>
    have henv : u.env.host = s.env.host := by rw [hframe.env]; rfl
    exact ⟨hframe.cmd, henv⟩
  | readBack _ st r0 u hframe =>
    have henv : u.env.host = s.env.host := by rw [hframe.env]; rfl
    exact ⟨hframe.cmd, henv⟩
  | _ => exact ⟨rfl, rfl⟩

end Sys2Proof.Machine

open Sys2Proof Sys2Proof.Machine

/-- Settles O54: by the effects; each register but the response and FSM changes under the effects of its own
commands only. -/
theorem onlyTheNamedCommandsWrite : Obligations.OnlyTheNamedCommandsWrite := by
  intro i s t h
  have heffect := exec_effect h
  refine ⟨heffect.keeps_port.1, ?_⟩
  cases heffect with
  | answer => simp
  | searched _ req hcommand => simpa using fun _ => hcommand
  | granted => simp
  | denied => simp
  | released => simp
  | applied a b c u hvalid hparams hframe =>
    have hhandle : u.handle = s.handle := hframe.handle
    have hsearch : u.search = s.search := hframe.search
    simp [hhandle, hsearch]
  | readBack _ st r0 u hframe hpll =>
    have hhandle : u.handle = s.handle := hframe.handle
    have hcache : u.cache = s.cache := hframe.cache
    have hsearch : u.search = s.search := hframe.search
    have hlock : u.seq.lockIters = s.seq.lockIters ∧ u.seq.lockTimeout = s.seq.lockTimeout := by
      rw [hframe.seq]; exact ⟨rfl, rfl⟩
    simp [hhandle, hcache, hsearch, hlock, hpll]

namespace Sys2Proof.Machine

theorem initCmd_answers {a b c : Word} {s : State} (hg : s.env.grantAt s.env.grantPos ≠ .silent) :
    ∃ t, initCmd hw a b c s = .next t := by
  unfold initCmd
  split
  · exact ⟨_, rfl⟩
  · split
    · exact ⟨_, rfl⟩
    · split
      · exact ⟨_, rfl⟩
      · exact ⟨_, rfl⟩
      · rename_i hsilent
        exact absurd hsilent hg

theorem applyCmd_answers {p : ClockParams} {s : State} (hl : s.Live) (hw' : s.WindowInside hw) :
    ∃ t, applyCmd hw p s = .next t := by
  rcases applyCmd_cases hw p s with ⟨st, -, he⟩ | ⟨-, -, -, he⟩
  · exact ⟨_, he⟩
  · obtain ⟨t, ht⟩ := applySequence_live (p := p) hw_wf hl hw'
    exact ⟨t, he.trans ht⟩

theorem readfreqCmd_answers {s : State} (hl : s.Live) (hw' : s.WindowInside hw) : ∃ t, readfreqCmd hw s = .next t := by
  rcases readfreqCmd_cases hw s with ⟨-, he⟩ | ⟨-, he⟩
  · exact ⟨_, he⟩
  · obtain ⟨u, hu⟩ := readAll_live (cfg := hw) (is := List.range (s.layout hw).nwords) (s := s.moveTo .read) hl
      fun i hi => inAddressSpace_of_window (cfg := hw) hw' (List.mem_range.1 hi)
    exact ⟨_, by rw [he, hu, andThen_next]⟩

/-- Under the provisos every command answers (R273): only INIT waits for the map, only APPLY and READFREQ use the bus. -/
theorem exec_answers {i : Instr} {s : State} (hl : s.Live) (hw' : s.WindowInside hw)
    (hg : s.env.grantAt s.env.grantPos ≠ .silent) : ∃ t, exec i s = .next t := by
  cases i with
  | init a b c => exact initCmd_answers hg
  | lookup a b c => simp only [exec, execLookup, lookupCmd, respondHit, raise]; split <;> exact ⟨_, rfl⟩
  | search a b c => simp only [exec, execSearch, searchCmd, searchBody, raise]; split <;> exact ⟨_, rfl⟩
  | compute a b c =>
    simp only [exec, execCompute, computeCmd, searchBody, respondHit, raise]
    split
    · exact ⟨_, rfl⟩
    · split
      · split <;> exact ⟨_, rfl⟩
      · exact ⟨_, rfl⟩
  | calcfreq a b c =>
    simp only [exec, execCalcfreq, calcfreqCmd, raise]
    split_ifs <;> exact ⟨_, rfl⟩
  | encode a b c => simp only [exec, execEncode, encodeCmd, raise]; split_ifs <;> exact ⟨_, rfl⟩
  | decode a b c => simp only [exec, execDecode, decodeCmd, raise]; split_ifs <;> exact ⟨_, rfl⟩
  | apply a b c => exact applyCmd_answers hl hw'
  | readfreq a b c => exact readfreqCmd_answers hl hw'
  | teardown a b c => simp only [exec, execTeardown, teardownCmd, raise]; split_ifs <;> exact ⟨_, rfl⟩

end Sys2Proof.Machine

/-- Settles O52: under the provisos every command answers, and every effect ends in IDLE with the response pulse. -/
theorem everyCommandResponds : Obligations.EveryCommandResponds := by
  intro i s hl hw' hg
  obtain ⟨t, ht⟩ := exec_answers (i := i) hl hw' hg
  exact ⟨t, ht, (exec_effect ht).over⟩

/-- Settles O21: SEARCH answers what the S_* registers hold after the loops, and `Records` says which candidate that is. -/
theorem searchAnswersTheFirstBestCandidate : Obligations.SearchAnswersTheFirstBestCandidate := by
  intro a b c s hvalid href diff
  have hfound := hw_found href a
  have hrecords := hw_records href a
  obtain ⟨before, after, hsplit, hdiff, hbefore, hafter⟩ := hrecords.first hfound
  have hverdict : (searchResult hw a s).verdict =
      if diff (searchResult hw a s).best ≤ 1000 then .ok else .errToleranceExceeded := by
    rw [SearchRegs.verdict, hfound, hdiff]
    simp only [Bool.true_and, decide_eq_true_eq]
    rfl
  exact ⟨respondSearch (searchResult hw a s) s, before, after, (searchResult hw a s).best,
    exec_search_valid hvalid a b c, hsplit, hbefore, hafter, rfl, rfl, rfl, hdiff, hverdict, hrecords.sameReq, hfound,
    rfl, rfl, rfl⟩
end

section
/-! The fine steps (10_state R31): what one clock of a command in flight can do, and the invariant of the registers over
every step. -/

namespace Sys2Proof.Machine

/-! ### What the small moves of the sequencer leave alone -/

theorem ApplyFrame.moveTo {s t : State} (h : ApplyFrame s t) (q : Fsm) : ApplyFrame s (t.moveTo q) :=
  ⟨h.handle, h.cache, h.cmd, h.rsp, h.search, h.settled, h.env, h.trace⟩

theorem ApplyFrame.nextSub {s t : State} (h : ApplyFrame s t) : ApplyFrame s t.nextSub :=
  ⟨h.handle, h.cache, h.cmd, h.rsp, h.search, h.settled, h.env, h.trace⟩

theorem ApplyFrame.host {s t : State} (h : ApplyFrame s t) : t.env.host = s.env.host := by rw [h.env]

/-! ### The chain of states and its transitions (R170, R172) -/

/-- SUB of the first read-modify-write of the transition out of a state: the poll that ends the wait is transaction 0
(log 13). -/
def Fsm.firstSub (q : Fsm) : Nat := if q = .waitingLock then 1 else 0

@[simp] theorem firstSub_poweredDown : Fsm.firstSub .poweredDown = 0 := rfl
@[simp] theorem firstSub_waitingLock : Fsm.firstSub .waitingLock = 1 := rfl

theorem firstSub_le (q : Fsm) : q.firstSub ≤ 1 := by
  unfold Fsm.firstSub; split <;> omega

/-- The states of an APPLY whose transition is made of read-modify-writes. -/
def Fsm.rewrites (q : Fsm) : Prop := q.inApply = true ∧ q ≠ .poweringUp ∧ q ≠ .unbypassed

theorem next_of_rewrites {q : Fsm} (h : q.rewrites) : q.next.inApply = true ∧ q.next ≠ .waitingLock := by
  obtain ⟨hin, hup, hun⟩ := h
  cases q <;> simp_all [Fsm.inApply, Fsm.next]

/-- A transition has at most two read-modify-writes, so SUB never runs over its three bits. -/
theorem transitionRmws_length {L : Layout} (hL : L.WF) (p : ClockParams) (q : Fsm) :
    q.firstSub + (transitionRmws L p q).length ≤ 2 := by
  have hstage : (stageRmws L p).length ≤ 2 := by
    have h : (stageRmws L p).length ≤ _ := List.length_filterMap_le _ _
    rw [List.length_range] at h
    exact h.trans (wf_nwords_le hL)
  cases q with
  | poweredDown => simpa [Fsm.firstSub, transitionRmws] using hstage
  | bypassed => cases h : L.selOut <;> simp [Fsm.firstSub, transitionRmws, setOptBit, h]
  | waitingLock => cases h : L.selOut <;> simp [Fsm.firstSub, transitionRmws, setOptBit, h]
  | paramStaged => cases h : L.setParam <;> simp [Fsm.firstSub, transitionRmws, setOptBit, h]
  | _ => simp [Fsm.firstSub, transitionRmws]

/-! ### One clock of an APPLY -/

theorem applyTick_poweringUp {cfg : Config} {p : ClockParams} {s : State} (hq : s.seq.fsm = .poweringUp) :
    applyTick cfg p s = settle cfg s := by
  rw [applyTick, hq]

theorem applyTick_unbypassed {cfg : Config} {p : ClockParams} {s : State} (hq : s.seq.fsm = .unbypassed) :
    applyTick cfg p s = .next (complete p s) := by
  rw [applyTick, hq]

theorem applyTick_polling {cfg : Config} {p : ClockParams} {s : State} (h : Polling s) :
    applyTick cfg p s = poll cfg s := by
  rw [applyTick, h.1]
  exact if_pos h.2

theorem applyTick_rewrites {cfg : Config} {p : ClockParams} {s : State} (hq : s.seq.fsm.rewrites) (hp : ¬ Polling s) :
    applyTick cfg p s =
      rmwTick cfg (transitionRmws (s.layout cfg) p s.seq.fsm) s.seq.fsm.firstSub s.seq.fsm s := by
  obtain ⟨hin, hup, hun⟩ := hq
  by_cases hw' : s.seq.fsm = .waitingLock
  · rw [applyTick, hw']
    exact if_neg fun h => hp ⟨hw', h⟩
  · cases hf : s.seq.fsm <;> simp_all [applyTick, Fsm.firstSub, Fsm.inApply]

/-- One clock of an APPLY is the delay, a poll, the completion, or a clock of a transition's read-modify-writes (R31). -/
theorem applyTick_cases {cfg : Config} {p : ClockParams} {s t : State} (hin : s.seq.fsm.inApply = true)
    (h : applyTick cfg p s = .next t) :
    (s.seq.fsm = .poweringUp ∧ settle cfg s = .next t) ∨ (Polling s ∧ poll cfg s = .next t) ∨
      (s.seq.fsm = .unbypassed ∧ t = complete p s) ∨
      (s.seq.fsm.rewrites ∧ ¬ Polling s ∧
        rmwTick cfg (transitionRmws (s.layout cfg) p s.seq.fsm) s.seq.fsm.firstSub s.seq.fsm s = .next t) := by
  by_cases hup : s.seq.fsm = .poweringUp
  · exact Or.inl ⟨hup, applyTick_poweringUp hup ▸ h⟩
  · by_cases hun : s.seq.fsm = .unbypassed
    · rw [applyTick_unbypassed hun] at h
      exact Or.inr (Or.inr (Or.inl ⟨hun, (next_inj h).symm⟩))
    · by_cases hp : Polling s
      · exact Or.inr (Or.inl ⟨hp, applyTick_polling hp ▸ h⟩)
      · have hq : s.seq.fsm.rewrites := ⟨hin, hup, hun⟩
        exact Or.inr (Or.inr (Or.inr ⟨hq, hp, applyTick_rewrites hq hp ▸ h⟩))

/-! ### One clock of a transition's read-modify-writes -/

section
variable {cfg : Config} {rs : List Rmw} {first : Nat} {q : Fsm} {s t : State} {r : Rmw}

theorem rmwTick_none (h : rs[(s.seq.sub.toNat - first) / 2]? = none) :
    rmwTick cfg rs first q s = .next (s.moveTo q.next) := by
  simp only [rmwTick, h]

theorem rmwTick_read (h : rs[(s.seq.sub.toNat - first) / 2]? = some r) (hk : (s.seq.sub.toNat - first) % 2 = 0) :
    rmwTick cfg rs first q s = andThen (busRead cfg r.word s) fun t => .next t.nextSub := by
  simp only [rmwTick, h]
  exact if_pos hk

theorem rmwTick_write (h : rs[(s.seq.sub.toNat - first) / 2]? = some r) (hk : (s.seq.sub.toNat - first) % 2 = 1) :
    rmwTick cfg rs first q s =
      andThen (rmwWrite cfg r s) fun t =>
        .next (if s.seq.sub.toNat - first + 1 = 2 * rs.length then t.moveTo q.next else t.nextSub) := by
  simp only [rmwTick, h]
  exact if_neg (by omega)

/-- A clock of a transition ends it because no read-modify-write is left, reads, or writes and ends it after the last
(R31). -/
theorem rmwTick_eq_next (h : rmwTick cfg rs first q s = .next t) :
    (rs[(s.seq.sub.toNat - first) / 2]? = none ∧ t = s.moveTo q.next) ∨
      ∃ r, rs[(s.seq.sub.toNat - first) / 2]? = some r ∧
        ((s.seq.sub.toNat - first) % 2 = 0 ∧ t = (readEffect cfg r.word s.counted).nextSub ∨
          (s.seq.sub.toNat - first) % 2 = 1 ∧
            t = if s.seq.sub.toNat - first + 1 = 2 * rs.length then
                State.moveTo q.next (writeEffect cfg r.word (r.edit (s.seq.read.get r.word)) s.counted)
              else State.nextSub (writeEffect cfg r.word (r.edit (s.seq.read.get r.word)) s.counted)) := by
  cases hr : rs[(s.seq.sub.toNat - first) / 2]? with
  | none =>
    rw [rmwTick_none hr] at h
    exact Or.inl ⟨rfl, (next_inj h).symm⟩
  | some r =>
    refine Or.inr ⟨r, rfl, ?_⟩
    by_cases hk : (s.seq.sub.toNat - first) % 2 = 0
    · rw [rmwTick_read hr hk] at h
      obtain ⟨u, hu, ht⟩ := andThen_eq_next.1 h
      rw [busRead_eq_next hu] at ht
      exact Or.inl ⟨hk, (next_inj ht).symm⟩
    · have hk : (s.seq.sub.toNat - first) % 2 = 1 := by omega
      rw [rmwTick_write hr hk] at h
      obtain ⟨u, hu, ht⟩ := andThen_eq_next.1 h
      rw [busWrite_eq_next hu] at ht
      exact Or.inr ⟨hk, (next_inj ht).symm⟩

/-- What such a clock leaves alone, and where it leaves FSM and SUB. -/
theorem rmwTick_frame (h : rmwTick cfg rs first q s = .next t) :
    ApplyFrame s t ∧ t.seq.lockIters = s.seq.lockIters ∧ t.seq.lockTimeout = s.seq.lockTimeout ∧
      ((t.seq.fsm = q.next ∧ t.seq.sub = 0) ∨
        (t.seq.fsm = s.seq.fsm ∧ t.seq.sub = s.seq.sub + 1 ∧ (s.seq.sub.toNat - first) / 2 < rs.length)) := by
  rcases rmwTick_eq_next h with ⟨-, rfl⟩ | ⟨r, hr, ⟨-, rfl⟩ | ⟨-, rfl⟩⟩
  · exact ⟨(BusFrame.refl s).toApply.moveTo _, rfl, rfl, Or.inl ⟨rfl, rfl⟩⟩
  · exact ⟨(readEffect_frame cfg r.word s).toApply.nextSub, rfl, rfl,
      Or.inr ⟨rfl, rfl, (List.getElem?_eq_some_iff.1 hr).1⟩⟩
  · have hframe := (writeEffect_frame cfg r.word (r.edit (s.seq.read.get r.word)) s).toApply
    split
    · exact ⟨hframe.moveTo _, rfl, rfl, Or.inl ⟨rfl, rfl⟩⟩
    · exact ⟨hframe.nextSub, rfl, rfl, Or.inr ⟨rfl, rfl, (List.getElem?_eq_some_iff.1 hr).1⟩⟩

end

/-- After the wait SUB is not 0 again, so the sequencer does not fall back into polling. -/
theorem rmwTick_not_polling {p : ClockParams} {s t : State} (hq : s.seq.fsm.rewrites) (hp : ¬ Polling s)
    (h : rmwTick hw (transitionRmws (s.layout hw) p s.seq.fsm) s.seq.fsm.firstSub s.seq.fsm s = .next t) :
    ¬ Polling t := by
  obtain ⟨-, -, -, ⟨hfsm, -⟩ | ⟨hfsm, hsub, hlt⟩⟩ := rmwTick_frame h
  · intro ht
    exact (next_of_rewrites hq).2 (hfsm.symm.trans ht.1)
  · rintro ⟨hwait, hzero⟩
    rw [hfsm] at hwait
    have hlen := transitionRmws_length (wf_layout hw_wf s) p s.seq.fsm
    have hfirst : s.seq.fsm.firstSub = 1 := by rw [hwait]; rfl
    have hsub0 : s.seq.sub ≠ 0 := fun h => hp ⟨hwait, h⟩
    rw [hsub] at hzero
    bv_omega

/-- One clock of an APPLY leaves A, B, C, OPCODE and the host's coming inputs as they are. -/
theorem applyTick_keeps_port {p : ClockParams} {s t : State} (hin : s.seq.fsm.inApply = true)
    (h : applyTick hw p s = .next t) : t.cmd = s.cmd ∧ t.env.host = s.env.host := by
  rcases applyTick_cases hin h with ⟨-, hs⟩ | ⟨-, hp⟩ | ⟨-, rfl⟩ | ⟨-, -, hr⟩
  · have hframe := (settle_eq_next hs).1
    exact ⟨hframe.cmd, hframe.host⟩
  · have hframe := (poll_eq_next hw_wf hp).1
    exact ⟨hframe.cmd, hframe.host⟩
  · exact ⟨rfl, rfl⟩
  · have hframe := (rmwTick_frame hr).1
    exact ⟨hframe.cmd, hframe.host⟩

/-! ### One clock of a READFREQ -/

/-- A clock of a READFREQ reads its next word or, after the last, answers (R211). -/
theorem readTick_cases {cfg : Config} {s t : State} (h : readTick cfg s = .next t) :
    (s.seq.sub.toNat < (s.layout cfg).nwords ∧ t = (readEffect cfg s.seq.sub.toNat s.counted).nextSub) ∨
      ∃ st r0, t = respond st r0 none none none s := by
  unfold readTick at h
  split at h
  · rename_i hlt
    obtain ⟨u, hu, ht⟩ := andThen_eq_next.1 h
    rw [busRead_eq_next hu] at ht
    exact Or.inl ⟨hlt, (next_inj ht).symm⟩
  · obtain ⟨st, r0, hr⟩ := respondFreq_eq_respond cfg s
    exact Or.inr ⟨st, r0, (next_inj h).symm.trans hr⟩

/-! ### One clock of whatever is in flight -/

theorem fsm_cases (q : Fsm) : q = .idle ∨ q = .exec ∨ q = .read ∨ q.inApply = true := by
  cases q <;> simp [Fsm.inApply]

theorem advance_keeps_port {s t : State} (h : advance hw exec s = .next t) :
    t.cmd = s.cmd ∧ t.env.host = s.env.host := by
  rcases fsm_cases s.seq.fsm with hq | hq | hq | hq
  · rw [advance_idle hq] at h
    cases h
    exact ⟨rfl, rfl⟩
  · rw [advance_exec hq] at h
    obtain ⟨i, heffect⟩ := runWord_effect h
    exact heffect.keeps_port
  · rw [advance_read hq] at h
    rcases readTick_cases h with ⟨-, rfl⟩ | ⟨st, r0, rfl⟩
    · exact ⟨rfl, rfl⟩
    · exact ⟨rfl, rfl⟩
  · rw [advance_inApply hq] at h
    exact applyTick_keeps_port hq h

/-! ### The invariant of the registers -/

theorem Inv.inFlightOk {s : State} (h : Inv s) : InFlightOk s := h.2.2.1
theorem Inv.pollOk {s : State} (h : Inv s) : PollOk s := h.2.2.2.1

/-- An APPLY in flight has a valid handle and a programmable triple in A, B, C. -/
theorem Inv.applying {s : State} (h : Inv s) (hin : s.seq.fsm.inApply = true) :
    s.handle.valid = true ∧ Programmable s s.cmd.params := h.inFlightOk.1 hin

theorem Inv.reading {s : State} (h : Inv s) (hq : s.seq.fsm = .read) : s.handle.valid = true := h.inFlightOk.2.1 hq

theorem Inv.idleSub {s : State} (h : Inv s) (hq : s.seq.fsm = .idle) : s.seq.sub = 0 := h.inFlightOk.2.2 hq

/-- FSM and the lock registers apart, the invariant hangs on handle, cache, operands and the recorded best only. -/
theorem Inv.of_same {s t : State} (hi : Inv s) (hhandle : t.handle = s.handle) (hcache : t.cache = s.cache)
    (hsearch : t.search = s.search) (hin : InFlightOk t) (hpoll : PollOk t) : Inv t := by
  obtain ⟨hHandle, hCache, -, -, hSearch⟩ := hi
  have hlayout : t.layout hw = s.layout hw := by rw [State.layout, State.layout, hhandle]
  refine ⟨?_, ?_, hin, hpoll, ?_⟩
  · rw [HandleOk, hhandle]; exact hHandle
  · rw [CacheOk, Programmable, hcache, hhandle, hlayout]; exact hCache
  · rw [SearchOk, hsearch]; exact hSearch

theorem inFlightOk_of_idle {s : State} (hq : s.seq.fsm = .idle) (hsub : s.seq.sub = 0) : InFlightOk s := by
  simp [InFlightOk, hq, hsub, Fsm.inApply]

/-- Outside the polling the lock registers are in order wherever they were so before. -/
theorem PollOk.of_not_polling {s t : State} (h : PollOk s) (hs : ¬ Polling s) (ht : ¬ Polling t)
    (hiters : t.seq.lockIters = s.seq.lockIters) (hto : t.seq.lockTimeout = s.seq.lockTimeout) : PollOk t := by
  obtain ⟨hle, -, htimeout⟩ := h
  rw [PollOk, hiters, hto]
  exact ⟨hle, fun hp => absurd hp ht, fun _ => htimeout hs⟩

theorem not_polling_of_fsm {s : State} (h : s.seq.fsm ≠ .waitingLock) : ¬ Polling s := fun hp => h hp.1

theorem not_polling_of_sub_one {s : State} (h : s.seq.sub = 1) : ¬ Polling s :=
  fun hp => absurd (h.symm.trans hp.2) (by decide)

/-- An answer keeps the invariant. -/
theorem Inv.respond {s : State} (hi : Inv s) (hp : ¬ Polling s) (st : Status) (r0 r1 r2 r3 : Option Word) :
    Inv (respond st r0 r1 r2 r3 s) :=
  hi.of_same rfl rfl rfl (inFlightOk_of_idle rfl rfl)
    (hi.pollOk.of_not_polling hp (not_polling_of_fsm (by simp)) rfl rfl)

/-- What a search on a possible reference records satisfies Ratio (R140). -/
theorem searchOk_searchResult {s : State} (hr : s.handle.refKhz.toNat ≤ refKhzMax) (req : Word) :
    (searchResult hw req s).found = true → ratio (searchResult hw req s).best = true :=
  fun hfound => (mem_of_records (hw_records hr req) hfound).2

/-- The handle that INIT fills passed INIT's checks (R222). -/
theorem handleOk_of_initArgsOk {a b c : Word} (h : initArgsOk a b c = true) :
    a.toNat % 4 = 0 ∧ c.toNat ≤ refKhzMax ∧ 1 ≤ c.toNat := by
  simp only [initArgsOk, Bool.and_eq_true, decide_eq_true_eq] at h
  omega

/-- Every effect of a command keeps the invariant of the registers. -/
theorem CommandEffect.keeps_inv {i : Instr} {s t : State} (h : CommandEffect s i t) (hi : Inv s) (hp : ¬ Polling s) :
    Inv t := by
  have hpoll := hi.pollOk
  cases h with
  | answer => exact hi.respond hp ..
  | denied => exact Inv.respond (s := State.record _ (requestMap ..)) hi hp ..
  | searched =>
    obtain ⟨hHandle, hCache, -, -, -⟩ := hi
    exact ⟨hHandle, hCache, inFlightOk_of_idle rfl rfl,
      hpoll.of_not_polling hp (not_polling_of_fsm (by simp)) rfl rfl, searchOk_searchResult hHandle.2.1 _⟩
  | granted a b c hargs =>
    obtain ⟨-, -, -, -, hSearch⟩ := hi
    obtain ⟨hbase, hmax, hone⟩ := handleOk_of_initArgsOk hargs
    exact ⟨⟨hbase, hmax, fun _ => hone⟩, fun h => (nomatch h), inFlightOk_of_idle rfl rfl,
      hpoll.of_not_polling hp (not_polling_of_fsm (by simp)) rfl rfl, hSearch⟩
  | released =>
    obtain ⟨⟨hbase, hmax, -⟩, -, -, -, hSearch⟩ := hi
    exact ⟨⟨hbase, hmax, fun h => (nomatch h)⟩, fun h => (nomatch h), inFlightOk_of_idle rfl rfl,
      hpoll.of_not_polling hp (not_polling_of_fsm (by simp)) rfl rfl, hSearch⟩
  | applied a b c u hvalid hparams hframe hiters hto =>
    obtain ⟨hHandle, -, -, -, hSearch⟩ := hi
    have hhandle : u.handle = s.handle := hframe.handle
    have hsearch : u.search = s.search := hframe.search
    have hlayout : u.layout hw = s.layout hw := hframe.layout hw
    refine ⟨?_, ?_, inFlightOk_of_idle rfl rfl, ⟨hiters, fun h => (nomatch h.1), fun _ => hto⟩, ?_⟩
    · simpa [HandleOk, hhandle] using hHandle
    · simpa [CacheOk, Programmable, hhandle, hlayout, hvalid] using hparams
    · simpa [SearchOk, hsearch] using hSearch
  | readBack _ st r0 u hframe htarget =>
    have hseq : u.seq.fsm = .read ∧ u.seq.lockIters = s.seq.lockIters ∧ u.seq.lockTimeout = s.seq.lockTimeout := by
      rw [hframe.seq]; exact ⟨rfl, rfl, rfl⟩
    obtain ⟨-, hiters, hto⟩ := hseq
    exact hi.of_same hframe.handle hframe.cache hframe.search (inFlightOk_of_idle rfl rfl)
      (hpoll.of_not_polling hp (not_polling_of_fsm (by simp)) hiters hto)

/-- A clock of an APPLY that stays inside it keeps the invariant, whatever it does to the lock registers in order. -/
theorem Inv.of_applyFrame {s t : State} (hi : Inv s) (hframe : ApplyFrame s t) (hin : s.seq.fsm.inApply = true)
    (ht : t.seq.fsm.inApply = true) (hpoll : PollOk t) : Inv t := by
  have hflight := hi.applying hin
  refine hi.of_same hframe.handle hframe.cache hframe.search ⟨fun _ => ?_, fun h => ?_, fun h => ?_⟩ hpoll
  · rw [Programmable, hframe.handle, hframe.layout, hframe.cmd]; exact hflight
  · rw [h] at ht; cases ht
  · rw [h] at ht; cases ht

/-- One poll keeps the lock registers in order (R32, R183). -/
theorem pollOk_poll {s t : State} (hp : Polling s) (h : PollOk s) (ht : poll hw s = .next t) :
    PollOk t ∧ t.seq.lockIters.toNat = s.seq.lockIters.toNat + 1 := by
  obtain ⟨-, -, -, -, hfsm, hiters, -, hend⟩ := poll_eq_next hw_wf ht
  have hlt := h.2.1 hp
  have hcount : t.seq.lockIters.toNat = s.seq.lockIters.toNat + 1 := by
    rw [hiters]; simp only [lockPollMax] at hlt; bv_omega
  refine ⟨?_, hcount⟩
  rw [← hiters] at hend
  split at hend
  · obtain ⟨hto, hsub⟩ := hend
    exact ⟨by omega, fun hpoll => absurd hpoll (not_polling_of_sub_one hsub), fun _ h => by simp [hto] at h⟩
  · split at hend
    · rename_i hmax
      obtain ⟨-, hsub⟩ := hend
      exact ⟨by omega, fun hpoll => absurd hpoll (not_polling_of_sub_one hsub), fun _ _ => hmax⟩
    · rename_i hmax
      obtain ⟨-, hsub⟩ := hend
      exact ⟨by omega, fun _ => by omega, fun hpoll => absurd ⟨hfsm.trans hp.1, hsub.trans hp.2⟩ hpoll⟩

/-- A completion keeps the invariant: the triple in A, B, C was programmable (R190). -/
theorem Inv.complete {s : State} (hi : Inv s) (hq : s.seq.fsm = .unbypassed) : Inv (complete s.cmd.params s) := by
  obtain ⟨hHandle, -, hflight, hpoll, hSearch⟩ := hi
  obtain ⟨hvalid, hparams⟩ := hflight.1 (by rw [hq]; rfl)
  exact ⟨hHandle, fun _ => ⟨hvalid, hparams⟩, inFlightOk_of_idle rfl rfl,
    hpoll.of_not_polling (not_polling_of_fsm (by simp [hq])) (not_polling_of_fsm (by simp)) rfl rfl, hSearch⟩

theorem Inv.applyTick {s t : State} (hi : Inv s) (hin : s.seq.fsm.inApply = true)
    (h : applyTick hw s.cmd.params s = .next t) : Inv t := by
  have hpoll := hi.pollOk
  rcases applyTick_cases hin h with ⟨hup, hs⟩ | ⟨hp, ht⟩ | ⟨hun, rfl⟩ | ⟨hq, hp, hr⟩
  · obtain ⟨hframe, -, -, hseq, -⟩ := settle_eq_next hs
    refine hi.of_applyFrame hframe hin (by rw [hseq]; rfl) ?_
    rw [PollOk, Polling, hseq]
    exact ⟨Nat.zero_le _, fun _ => Nat.zero_lt_succ _, fun h => absurd ⟨rfl, rfl⟩ h⟩
  · obtain ⟨hframe, -, -, -, hfsm, -⟩ := poll_eq_next hw_wf ht
    exact hi.of_applyFrame hframe hin (by rw [hfsm]; exact hin) (pollOk_poll hp hpoll ht).1
  · exact hi.complete hun
  · obtain ⟨hframe, hiters, hto, hmove⟩ := rmwTick_frame hr
    have ht : t.seq.fsm.inApply = true := by
      rcases hmove with ⟨hfsm, -⟩ | ⟨hfsm, -⟩ <;> rw [hfsm]
      · exact (next_of_rewrites hq).1
      · exact hin
    exact hi.of_applyFrame hframe hin ht (hpoll.of_not_polling hp (rmwTick_not_polling hq hp hr) hiters hto)

theorem Inv.advance {s t : State} (hi : Inv s) (h : advance hw exec s = .next t) : Inv t := by
  rcases fsm_cases s.seq.fsm with hq | hq | hq | hq
  · rw [advance_idle hq] at h
    cases h
    exact hi
  · rw [advance_exec hq] at h
    obtain ⟨i, heffect⟩ := runWord_effect h
    exact heffect.keeps_inv hi (not_polling_of_fsm (by simp [hq]))
  · rw [advance_read hq] at h
    have hp : ¬ Polling s := not_polling_of_fsm (by simp [hq])
    rcases readTick_cases h with ⟨-, rfl⟩ | ⟨st, r0, rfl⟩
    · have hvalid := hi.reading hq
      refine hi.of_same rfl rfl rfl ⟨fun h => ?_, fun _ => hvalid, fun h => ?_⟩
        (hi.pollOk.of_not_polling hp (not_polling_of_fsm (by simp [hq])) rfl rfl)
      · simp [hq, Fsm.inApply] at h
      · simp [hq] at h
    · exact hi.respond hp ..
  · rw [advance_inApply hq] at h
    exact hi.applyTick hq h

/-- Operands latched in IDLE belong to no command in flight yet. -/
theorem Inv.accept {s : State} (hi : Inv s) (hq : s.seq.fsm = .idle) (w : CommandWord) : Inv (Machine.accept w s) :=
  hi.of_same rfl rfl rfl (inFlightOk_of_idle hq (hi.idleSub hq)) hi.pollOk

/-- The first clock of a command (R33, R92): an answer, EXEC, the reads of READFREQ, or step 1 of an APPLY. -/
theorem begin_cases {w : CommandWord} {s t : State} (h : begin hw w (accept w s) = .next t) :
    (∃ st, t = respond st none none none none (accept w s)) ∨ t = (accept w s).moveTo .exec ∨
      (s.handle.valid = true ∧ t = (accept w s).moveTo .read) ∨
      (s.handle.valid = true ∧ Programmable s (accept w s).cmd.params ∧
        transition hw (accept w s).cmd.params .idle (unsettle (accept w s)) = .next t) := by
  unfold begin at h
  split at h
  · rename_i a b c hdec
    obtain ⟨ha, hb, hc⟩ := operands_of_decode hdec
    have hparams : (⟨a, b, c⟩ : ClockParams) = (accept w s).cmd.params := by
      rw [accept_cmd, CommandRegs.params, ← ha, ← hb, ← hc]; rfl
    rw [hparams, applyBegin] at h
    rcases applyCmd_cases hw (accept w s).cmd.params (accept w s) with ⟨st, he, -⟩ | ⟨hvalid, hfits, hzero, -⟩
    · rw [he] at h
      exact Or.inl ⟨st, (next_inj h).symm⟩
    · rw [applyRefusal_none hvalid hfits hzero] at h
      exact Or.inr (Or.inr (Or.inr ⟨hvalid, ⟨hfits, hzero⟩, h⟩))
  · unfold readBegin at h
    split at h
    · exact Or.inl ⟨_, (next_inj h).symm⟩
    · rename_i hvalid
      exact Or.inr (Or.inr (Or.inl ⟨by simpa using hvalid, (next_inj h).symm⟩))
  · exact Or.inr (Or.inl (next_inj h).symm)
  · exact Or.inl ⟨_, (next_inj h).symm⟩

theorem Inv.begin {w : CommandWord} {s t : State} (hi : Inv s) (hq : s.seq.fsm = .idle)
    (h : Machine.begin hw w (Machine.accept w s) = .next t) : Inv t := by
  have ha := hi.accept hq w
  have hp : ¬ Polling (Machine.accept w s) := not_polling_of_fsm (by simp [hq])
  have hpoll := ha.pollOk
  rcases begin_cases h with ⟨st, rfl⟩ | rfl | ⟨hvalid, rfl⟩ | ⟨hvalid, hparams, ht⟩
  · exact ha.respond hp ..
  · exact ha.of_same rfl rfl rfl ⟨fun h => (nomatch h), fun h => (nomatch h), fun h => (nomatch h)⟩
      (hpoll.of_not_polling hp (not_polling_of_fsm (by simp)) rfl rfl)
  · exact ha.of_same rfl rfl rfl ⟨fun h => (nomatch h), fun _ => hvalid, fun h => (nomatch h)⟩
      (hpoll.of_not_polling hp (not_polling_of_fsm (by simp)) rfl rfl)
  · obtain ⟨u, -, hframe, -, -, -, hseq⟩ := transition_eq_next ht
    have hhandle : t.handle = s.handle := hframe.handle
    have hcmd : t.cmd = (Machine.accept w s).cmd := hframe.cmd
    have hlayout : t.layout hw = s.layout hw := hframe.layout hw
    have hfsm : t.seq.fsm = .bypassed := by rw [hseq]; rfl
    refine ha.of_same hframe.handle hframe.cache hframe.search
      ⟨fun _ => ?_, fun h => ?_, fun h => ?_⟩
      (hpoll.of_not_polling hp (not_polling_of_fsm (by simp [hfsm])) (by rw [hseq]; rfl) (by rw [hseq]; rfl))
    · rw [Programmable, hhandle, hlayout, hcmd]; exact ⟨hvalid, hparams⟩
    · rw [hfsm] at h; cases h
    · rw [hfsm] at h; cases h

/-- The command on the port in IDLE, at either granularity. -/
theorem Inv.acceptAndRun {w : CommandWord} {s t : State} (hi : Inv s) (hq : s.seq.fsm = .idle)
    (h : acceptAndRun hw exec w s = .next t) : Inv t := by
  unfold Machine.acceptAndRun at h
  split at h
  · exact hi.begin hq h
  · obtain ⟨i, heffect⟩ := runWord_effect h
    exact heffect.keeps_inv (hi.accept hq w) (not_polling_of_fsm (by simp [hq]))

/-- The state after a reset has the invariant, whatever target and outside are (R45). -/
theorem inv_resetCoreWith (pll : PllTarget) (settled : Bool) (trace : List PortEvent) (env : Env) :
    Inv (State.resetCoreWith pll settled trace env) :=
  ⟨⟨rfl, Nat.zero_le _, fun h => (nomatch h)⟩, fun h => (nomatch h), inFlightOk_of_idle rfl rfl,
    ⟨Nat.zero_le _, fun h => (nomatch h.1), fun _ h => (nomatch h)⟩, fun h => (nomatch h)⟩

end Sys2Proof.Machine

open Sys2Proof Sys2Proof.Machine

/-- Settles O55: each of the three things a step can be keeps the invariant. -/
theorem stepKeepsTheRegisterInvariant : Obligations.StepKeepsTheRegisterInvariant := by
  intro s t hi h
  have hi' : ∀ rest, Inv (withHost rest (endPulse s)) := fun _ => hi
  rcases step_cases h with ⟨rest, rfl⟩ | ⟨hq, w, rest, ht⟩ | ⟨rest, ht⟩
  · exact inv_resetCoreWith ..
  · exact (hi' rest).acceptAndRun hq ht
  · exact (hi' rest).advance ht

/-- Settles O6: a busy port only lets the command in flight go on, and no clock of that touches the port. -/
theorem busyPortHoldsTheCommand : Obligations.BusyPortHoldsTheCommand := by
  intro w rest s t hq hhost h
  rw [step_busy hq hhost] at h
  obtain ⟨hcmd, hkept⟩ := advance_keeps_port h
  exact ⟨hkept.trans hhost, hcmd⟩

/-- Settles O42: in the wait the clock is `poll`, which completes under the provisos. -/
theorem oneStepIsOnePoll : Obligations.OneStepIsOnePoll := by
  intro s hp hok hhost hl hw'
  have hin : s.seq.fsm.inApply = true := by rw [hp.1]; rfl
  obtain ⟨t, ht⟩ := poll_live (s := endPulse s) hw_wf hl hw'
  have hstep : step s = .next t := by
    rw [step_noInput hhost, advance_inApply (s := endPulse s) hin, applyTick_polling (s := endPulse s) hp, ht]
  obtain ⟨-, hpll, -, hcount, hfsm, hiters, -, hend⟩ := poll_eq_next hw_wf ht
  obtain ⟨-, hiters'⟩ := pollOk_poll (s := endPulse s) hp hok ht
  rw [← hiters, endPulse_env] at hend
  refine ⟨t, hstep, hpll, hfsm.trans hp.1, hiters', hcount, fun hlock => ?_, fun hlock hmax => ?_, fun hlock hlt => ?_⟩
  · rw [if_pos hlock] at hend
    exact ⟨hend.1, not_polling_of_sub_one hend.2⟩
  · rw [if_neg (by simp [hlock]), if_pos (show _ = lockPollMax from hmax)] at hend
    exact ⟨hend.1, not_polling_of_sub_one hend.2⟩
  · rw [if_neg (by simp [hlock]), if_neg (by simp only [lockPollMax]; omega)] at hend
    exact ⟨hend.1, hfsm.trans hp.1, hend.2.trans hp.2⟩
end

section
/-! The protocol over every step (43_programmer R269, R192, R178, R179): what one read-modify-write does to the fields of the
register, what the register must hold at each point of an APPLY as one list of fields with values, and that every clock leads
from one such list to the next. -/

namespace Sys2Proof.Machine

/-! ### The fields of a well-formed layout are different fields -/

theorem wf_nodup {L : Layout} (hL : L.WF) : L.fields.Nodup := by
  refine (wf_pairwise hL).imp_of_mem fun {f g} hf _ hd e => ?_
  have hwidth : 1 ≤ f.width := by
    rcases List.mem_append.1 hf with h | h
    · exact hL.1.2.1 f h
    · exact (wf_bit_width hL h).ge
  subst e
  rcases hd with hd | hd | hd <;> omega

theorem wf_params_ne {L : Layout} (hL : L.WF) :
    L.divRef ≠ L.loopc ∧ L.divRef ≠ L.divOut ∧ L.loopc ≠ L.divOut := by
  have hparams := (List.nodup_append.1 (wf_nodup hL)).1
  simp only [Layout.paramFields, List.nodup_cons, List.mem_cons, not_or] at hparams
  obtain ⟨⟨hloopc, hdivOut, -⟩, ⟨hdivOut', -⟩, -⟩ := hparams
  exact ⟨hloopc, hdivOut, hdivOut'⟩

theorem param_ne_bit {L : Layout} (hL : L.WF) {f g : Field} (hf : f ∈ L.paramFields) (hg : g ∈ L.bitFields) : f ≠ g :=
  (List.nodup_append.1 (wf_nodup hL)).2.2 f hf g hg

/-- The control and status fields that are present are different fields. -/
structure BitsDistinct (L : Layout) : Prop where
  bypass_locked : L.bypass ≠ L.locked
  powerdown_locked : L.powerdown ≠ L.locked
  bypass_powerdown : L.bypass ≠ L.powerdown
  selOut : ∀ f, L.selOut = some f → f ≠ L.locked ∧ f ≠ L.bypass ∧ f ≠ L.powerdown
  setParam : ∀ f, L.setParam = some f → f ≠ L.locked ∧ f ≠ L.bypass ∧ f ≠ L.powerdown
  selOut_setParam : ∀ f g, L.selOut = some f → L.setParam = some g → f ≠ g

theorem wf_bitsDistinct {L : Layout} (hL : L.WF) : BitsDistinct L := by
  have h := (List.nodup_append.1 (wf_nodup hL)).2.1
  unfold Layout.bitFields at h
  constructor <;> cases hs : L.selOut <;> cases hp : L.setParam <;> simp [hs, hp] at h ⊢ <;> grind

theorem param_ne_locked {L : Layout} (hL : L.WF) {f : Field} (hf : f ∈ L.paramFields) : f ≠ L.locked :=
  param_ne_bit hL hf (locked_mem L)

/-! ### The register after the write of a read-modify-write (R174, R178) -/

/-- A read-modify-write as the protocol makes them: of different fields of one word, none of them `locked`, to values that
fit. -/
structure Rmw.Proper (L : Layout) (r : Rmw) : Prop where
  word : r.word < L.nwords
  field : ∀ e ∈ r.edits, e.1 ∈ L.fields ∧ e.1 ≠ L.locked ∧ e.1.word = r.word
  fit : ∀ e ∈ r.edits, e.2 &&& mask e.1.width = e.2
  distinct : r.edits.Pairwise fun e f => e.1 ≠ f.1

/-- The fields a read-modify-write replaces. -/
def Rmw.fields (r : Rmw) : List Field := r.edits.map Prod.fst

theorem extract_foldl_insert_other {g : Field} {es : List (Field × Word)} (w : Word)
    (h : ∀ e ∈ es, e.1.off + e.1.width ≤ g.off ∨ g.off + g.width ≤ e.1.off) :
    extract (es.foldl (fun w e => insert w e.1 e.2) w) g = extract w g := by
  induction es generalizing w with
  | nil => rfl
  | cons e es ih =>
    rw [List.foldl_cons, ih _ fun x hx => h x (List.mem_cons_of_mem _ hx)]
    exact extract_insert_other w e.1 g e.2 (h e List.mem_cons_self)

/-- Two different fields of one word lie apart in it. -/
theorem apart_of_same_word {L : Layout} (hL : L.WF) {f g : Field} (hf : f ∈ L.fields) (hg : g ∈ L.fields)
    (hn : f ≠ g) (hw' : f.word = g.word) : f.off + f.width ≤ g.off ∨ g.off + g.width ≤ f.off :=
  (wf_disjoint hL hf hg hn).resolve_left fun h => h hw'

/-- The edit leaves the fields it does not name. -/
theorem extract_edit_other {L : Layout} (hL : L.WF) {r : Rmw} (hr : r.Proper L) {g : Field} (hg : g ∈ L.fields)
    (hword : g.word = r.word) (hn : g ∉ r.fields) (w : Word) : extract (r.edit w) g = extract w g := by
  refine extract_foldl_insert_other w fun e he => ?_
  obtain ⟨hf, -, hew⟩ := hr.field e he
  exact apart_of_same_word hL hf hg (fun h => hn (h ▸ List.mem_map_of_mem he)) (hew.trans hword.symm)

/-- The edit gives each field it names its value. -/
theorem extract_edit_same {L : Layout} (hL : L.WF) {r : Rmw} (hr : r.Proper L) {e : Field × Word} (he : e ∈ r.edits)
    (w : Word) : extract (r.edit w) e.1 = e.2 := by
  obtain ⟨before, after, hsplit⟩ := List.append_of_mem he
  obtain ⟨hf, -, hew⟩ := hr.field e he
  have hdistinct := hr.distinct
  rw [hsplit, List.pairwise_append, List.pairwise_cons] at hdistinct
  rw [Rmw.edit, hsplit, List.foldl_append, List.foldl_cons, extract_foldl_insert_other,
    extract_insert_same _ _ _ (wf_inside hL hf).2, hr.fit e he]
  intro x hx
  have hxr : x ∈ r.edits := by rw [hsplit]; simp [hx]
  obtain ⟨hxf, -, hxw⟩ := hr.field x hxr
  exact apart_of_same_word hL hxf hf (hdistinct.2.1.1 x hx).symm (hxw.trans hew.symm)

/-- The words after the write of a read-modify-write that read the current word: the fields named take their values. -/
theorem readField_rmw_same {L : Layout} (hL : L.WF) {r : Rmw} (hr : r.Proper L) {e : Field × Word} (he : e ∈ r.edits)
    (W : RegWords) (w : Word) : readField (W.set r.word (storedValue L r.word (r.edit w))) e.1 = e.2 := by
  obtain ⟨hf, hn, hew⟩ := hr.field e he
  rw [readField, hew, RegWords.get_set_same, ← hew, extract_storedValue hL hf hn]
  exact extract_edit_same hL hr he w

/-- Every other field but `locked` stays. -/
theorem readField_rmw_other {L : Layout} (hL : L.WF) {r : Rmw} (hr : r.Proper L) {g : Field} (hg : g ∈ L.fields)
    (hlocked : g ≠ L.locked) (hn : g ∉ r.fields) {W : RegWords} {w : Word}
    (hw' : storedValue L r.word w = storedValue L r.word (W.get r.word)) :
    readField (W.set r.word (storedValue L r.word (r.edit w))) g = readField W g := by
  rw [readField, readField]
  by_cases hword : g.word = r.word
  · rw [hword, RegWords.get_set_same, ← hword, extract_storedValue hL hg hlocked, extract_edit_other hL hr hg hword hn,
      ← extract_storedValue hL hg hlocked w, hword, hw', ← hword, extract_storedValue hL hg hlocked]
  · rw [RegWords.get_set_other _ _ _ _ (Nat.lt_of_lt_of_le hr.word (wf_nwords_le hL)) (wf_word_lt hL hg) hword]

/-! ### The read-modify-writes of the protocol are proper -/

theorem proper_setBit {L : Layout} (hL : L.WF) {f : Field} (hf : f ∈ L.bitFields) (hn : f ≠ L.locked) {v : Word}
    (hv : v = 0 ∨ v = 1) : (setBit f v).Proper L := by
  have hfit : v &&& mask f.width = v := by
    rw [wf_bit_width hL hf]; rcases hv with rfl | rfl <;> decide
  refine ⟨(wf_inside hL (bit_mem_fields hf)).1, fun e he => ?_, fun e he => ?_, List.pairwise_singleton _ _⟩
  · rw [List.mem_singleton.1 he]; exact ⟨bit_mem_fields hf, hn, rfl⟩
  · rw [List.mem_singleton.1 he]; exact hfit

theorem proper_setOptBit {L : Layout} (hL : L.WF) {o : Option Field}
    (ho : ∀ f, o = some f → f ∈ L.bitFields ∧ f ≠ L.locked) {v : Word} (hv : v = 0 ∨ v = 1) {r : Rmw} (hr : r ∈ setOptBit o v) : r.Proper L := by
  cases o with
  | none => cases hr
  | some f =>
    rw [List.mem_singleton.1 hr]
    exact proper_setBit hL (ho f rfl).1 (ho f rfl).2 hv

/-- What a staging read-modify-write holds: the parameters of one word (R178). -/
theorem mem_stageRmws {L : Layout} {p : ClockParams} {r : Rmw} (h : r ∈ stageRmws L p) :
    r.word < L.nwords ∧ r.edits = (paramEdits L p).filter fun e => e.1.word == r.word := by
  simp only [stageRmws, List.mem_filterMap, List.mem_range] at h
  obtain ⟨i, hi, hs⟩ := h
  dsimp only [stageWord] at hs
  split at hs
  · cases hs
  · cases hs
    exact ⟨hi, rfl⟩

theorem field_mem_of_paramEdits {L : Layout} {p : ClockParams} {e : Field × Word} (he : e ∈ paramEdits L p) :
    e.1 ∈ L.paramFields := by
  simp only [paramEdits, List.mem_cons, List.not_mem_nil, or_false] at he
  rcases he with rfl | rfl | rfl <;> simp [Layout.paramFields]

/-- Every parameter is staged by some read-modify-write. -/
theorem exists_stageRmws {L : Layout} (hL : L.WF) {p : ClockParams} {e : Field × Word} (he : e ∈ paramEdits L p) :
    ∃ r ∈ stageRmws L p, e ∈ r.edits := by
  have hf := field_mem_of_paramEdits he
  have hmem : e ∈ (paramEdits L p).filter fun x => x.1.word == e.1.word := by simp [he]
  refine ⟨⟨e.1.word, (paramEdits L p).filter fun x => x.1.word == e.1.word⟩, ?_, hmem⟩
  simp only [stageRmws, List.mem_filterMap, List.mem_range]
  refine ⟨e.1.word, (wf_inside hL (param_mem_fields hf)).1, ?_⟩
  dsimp only [stageWord]
  exact if_neg (by simpa using ⟨e.1, ⟨e.2, he⟩, rfl⟩)

/-- No word is staged twice. -/
theorem stageRmws_words (L : Layout) (p : ClockParams) :
    (stageRmws L p).Pairwise fun r r' => r.word ≠ r'.word := by
  have hword : ∀ {i : Nat} {r : Rmw}, stageWord L p i = some r → r.word = i := by
    intro i r h
    dsimp only [stageWord] at h
    split at h
    · cases h
    · cases h; rfl
  refine List.Pairwise.filterMap _ ?_ (List.nodup_range (n := L.nwords))
  intro i j hij r hr r' hr'
  rw [hword hr, hword hr']
  exact hij

theorem paramEdits_fit {L : Layout} {p : ClockParams} (hp : fits L p = true) {e : Field × Word}
    (he : e ∈ paramEdits L p) : e.2 &&& mask e.1.width = e.2 := by
  simp only [fits, Bool.and_eq_true, decide_eq_true_eq] at hp
  obtain ⟨⟨href, hloop⟩, hout⟩ := hp
  simp only [paramEdits, List.mem_cons, List.not_mem_nil, or_false] at he
  rcases he with rfl | rfl | rfl
  · exact and_mask_of_le _ _ href
  · exact and_mask_of_le _ _ hloop
  · exact and_mask_of_le _ _ hout

theorem proper_stageRmws {L : Layout} (hL : L.WF) {p : ClockParams} (hp : fits L p = true) {r : Rmw}
    (hr : r ∈ stageRmws L p) : r.Proper L := by
  obtain ⟨hword, hedits⟩ := mem_stageRmws hr
  have hmem : ∀ e ∈ r.edits, e ∈ paramEdits L p ∧ e.1.word = r.word := by
    intro e he
    rw [hedits] at he
    simpa using he
  obtain ⟨h1, h2, h3⟩ := wf_params_ne hL
  refine ⟨hword, fun e he => ?_, fun e he => paramEdits_fit hp (hmem e he).1, ?_⟩
  · have hf := field_mem_of_paramEdits (hmem e he).1
    exact ⟨param_mem_fields hf, param_ne_locked hL hf, (hmem e he).2⟩
  · rw [hedits]
    exact List.Pairwise.filter _ (by simp [paramEdits, h1, h2, h3])

theorem selOut_bit {L : Layout} (hL : L.WF) (f : Field) (h : L.selOut = some f) : f ∈ L.bitFields ∧ f ≠ L.locked :=
  ⟨selOut_mem h, ((wf_bitsDistinct hL).selOut f h).1⟩

theorem setParam_bit {L : Layout} (hL : L.WF) (f : Field) (h : L.setParam = some f) : f ∈ L.bitFields ∧ f ≠ L.locked :=
  ⟨setParam_mem h, ((wf_bitsDistinct hL).setParam f h).1⟩

theorem proper_transitionRmws {L : Layout} (hL : L.WF) {p : ClockParams} (hp : fits L p = true) {q : Fsm} {r : Rmw}
    (hr : r ∈ transitionRmws L p q) : r.Proper L := by
  have hd := wf_bitsDistinct hL
  cases q <;> simp only [transitionRmws, List.mem_singleton, List.not_mem_nil, List.mem_append] at hr
  case idle => rw [hr]; exact proper_setBit hL (bypass_mem L) hd.bypass_locked (Or.inr rfl)
  case bypassed => exact proper_setOptBit hL (selOut_bit hL) (Or.inl rfl) hr
  case off => rw [hr]; exact proper_setBit hL (powerdown_mem L) hd.powerdown_locked (Or.inr rfl)
  case poweredDown => exact proper_stageRmws hL hp hr
  case paramStaged =>
    rcases hr with hr | hr
    · exact proper_setOptBit hL (setParam_bit hL) (Or.inr rfl) hr
    · exact proper_setOptBit hL (setParam_bit hL) (Or.inl rfl) hr
  case paramCommitted => rw [hr]; exact proper_setBit hL (powerdown_mem L) hd.powerdown_locked (Or.inl rfl)
  case waitingLock => exact proper_setOptBit hL (selOut_bit hL) (Or.inr rfl) hr
  case on => rw [hr]; exact proper_setBit hL (bypass_mem L) hd.bypass_locked (Or.inl rfl)

/-! ### What the register must hold, as fields with values -/

/-- The one field of a bit that may be absent, with a value. -/
def optEdits (o : Option Field) (v : Word) : List (Field × Word) := o.toList.map fun f => (f, v)

/-- The fields that must have a value while an APPLY of `p` is in a state: bypass and deselection, power-down while staging
and committing, then the parameters and the cleared commit bit (R269, R192, R179). -/
def held (L : Layout) (p : ClockParams) : Fsm → List (Field × Word)
  | .bypassed => [(L.bypass, 1)]
  | .off => (L.bypass, 1) :: optEdits L.selOut 0
  | .poweredDown => (L.bypass, 1) :: (L.powerdown, 1) :: optEdits L.selOut 0
  | .paramStaged => (L.bypass, 1) :: (L.powerdown, 1) :: (optEdits L.selOut 0 ++ paramEdits L p)
  | .paramCommitted =>
    (L.bypass, 1) :: (L.powerdown, 1) :: (optEdits L.selOut 0 ++ paramEdits L p ++ optEdits L.setParam 0)
  | .poweringUp | .waitingLock => (L.bypass, 1) :: (optEdits L.selOut 0 ++ paramEdits L p ++ optEdits L.setParam 0)
  | .on => (L.bypass, 1) :: (paramEdits L p ++ optEdits L.setParam 0)
  | .unbypassed => paramEdits L p ++ optEdits L.setParam 0
  | .idle | .exec | .read => []

/-- The same after `j` read-modify-writes of the transition out of the state: staging has then written `j` words (R178). -/
def heldAfter (L : Layout) (p : ClockParams) (q : Fsm) (j : Nat) : List (Field × Word) :=
  held L p q ++ if q = .poweredDown then ((stageRmws L p).take j).flatMap Rmw.edits else []

/-- The register has these values in these fields. -/
def Holds (W : RegWords) (es : List (Field × Word)) : Prop := ∀ e ∈ es, readField W e.1 = e.2

@[simp] theorem holds_nil (W : RegWords) : Holds W [] := fun _ h => (nomatch h)

@[simp] theorem holds_cons (W : RegWords) (e : Field × Word) (es : List (Field × Word)) :
    Holds W (e :: es) ↔ readField W e.1 = e.2 ∧ Holds W es := by simp [Holds]

@[simp] theorem holds_append (W : RegWords) (es fs : List (Field × Word)) :
    Holds W (es ++ fs) ↔ Holds W es ∧ Holds W fs := by
  simp only [Holds, List.mem_append]
  exact ⟨fun h => ⟨fun e he => h e (Or.inl he), fun e he => h e (Or.inr he)⟩,
    fun h e he => he.elim (h.1 e) (h.2 e)⟩

theorem holds_flatMap (W : RegWords) (rs : List Rmw) :
    Holds W (rs.flatMap Rmw.edits) ↔ ∀ r ∈ rs, ∀ e ∈ r.edits, readField W e.1 = e.2 := by
  simp only [Holds, List.mem_flatMap]
  exact ⟨fun h r hr e he => h e ⟨r, hr, he⟩, fun h e ⟨r, hr, he⟩ => h r hr e he⟩

@[simp] theorem holds_optEdits_zero (W : RegWords) (o : Option Field) :
    Holds W (optEdits o 0#32) ↔ readOptField W o = 0#32 := by
  cases o <;> simp [optEdits, readOptField]

@[simp] theorem holds_paramEdits (L : Layout) (W : RegWords) (p : ClockParams) :
    Holds W (paramEdits L p) ↔ decodeParams L W = p := by
  cases p
  simp [paramEdits, decodeParams]

/-- What the invariant says of the register, in one list. -/
theorem holds_heldAfter_iff (s : State) :
    Holds s.pll.words (heldAfter (s.layout hw) s.cmd.params s.seq.fsm (s.seq.sub.toNat / 2)) ↔
      PartlyStaged s ∧ BypassHeld s ∧ PoweredDownHeld s ∧ DeselectedHeld s ∧ StagedHeld s ∧ CommitCleared s := by
  simp only [PartlyStaged, BypassHeld, PoweredDownHeld, DeselectedHeld, StagedHeld, CommitCleared, State.bits,
    decodeStatus, heldAfter, holds_append, ← holds_flatMap]
  cases s.seq.fsm <;> simp [held, Fsm.inApply]
  case poweredDown => tauto

/-! ### One read-modify-write leads from one list to the next -/

/-- After `r` on a register with the values of `es` it has those of `fs`: each is written by `r`, or held before and not
replaced. -/
def Rmw.Leads (r : Rmw) (es fs : List (Field × Word)) : Prop :=
  ∀ e ∈ fs, e ∈ r.edits ∨ (e ∈ es ∧ e.1 ∉ r.fields)

theorem holds_of_leads {L : Layout} (hL : L.WF) {r : Rmw} (hr : r.Proper L) {es fs : List (Field × Word)}
    (hes : ∀ {e}, e ∈ es → e.1 ∈ L.fields ∧ e.1 ≠ L.locked) (hleads : r.Leads es fs) {W : RegWords} {w : Word}
    (hw' : storedValue L r.word w = storedValue L r.word (W.get r.word)) (h : Holds W es) :
    Holds (W.set r.word (storedValue L r.word (r.edit w))) fs := by
  intro e he
  rcases hleads e he with hmem | ⟨hold, hn⟩
  · exact readField_rmw_same hL hr hmem W w
  · rw [readField_rmw_other hL hr (hes hold).1 (hes hold).2 hn hw']
    exact h e hold

theorem leads_setBit {f : Field} {v : Word} {es fs : List (Field × Word)}
    (h : ∀ e ∈ fs, e = (f, v) ∨ (e ∈ es ∧ e.1 ≠ f)) : (setBit f v).Leads es fs := by
  intro e he
  simpa [setBit, Rmw.fields] using h e he

theorem mem_optEdits {o : Option Field} {v : Word} {e : Field × Word} :
    e ∈ optEdits o v ↔ o = some e.1 ∧ e.2 = v := by
  cases o with
  | none => simp [optEdits]
  | some f => obtain ⟨g, w⟩ := e; simp [optEdits, eq_comm]

/-- What kinds of values are held. -/
theorem mem_held {L : Layout} {p : ClockParams} {q : Fsm} {e : Field × Word} (he : e ∈ held L p q) :
    e.1 = L.bypass ∨ e.1 = L.powerdown ∨ L.selOut = some e.1 ∨ L.setParam = some e.1 ∨ e ∈ paramEdits L p := by
  cases q <;> simp [held, mem_optEdits] at he <;> grind

/-- The fields of the list are present fields other than `locked`. -/
theorem heldAfter_fields {L : Layout} (hL : L.WF) {p : ClockParams} {q : Fsm} {j : Nat} {e : Field × Word}
    (he : e ∈ heldAfter L p q j) : e.1 ∈ L.fields ∧ e.1 ≠ L.locked := by
  have hd := wf_bitsDistinct hL
  have hparam : e ∈ paramEdits L p → e.1 ∈ L.fields ∧ e.1 ≠ L.locked := fun h =>
    ⟨param_mem_fields (field_mem_of_paramEdits h), param_ne_locked hL (field_mem_of_paramEdits h)⟩
  rcases List.mem_append.1 he with he | he
  · rcases mem_held he with h | h | h | h | h
    · rw [h]; exact ⟨bit_mem_fields (bypass_mem L), hd.bypass_locked⟩
    · rw [h]; exact ⟨bit_mem_fields (powerdown_mem L), hd.powerdown_locked⟩
    · exact ⟨bit_mem_fields (selOut_bit hL _ h).1, (selOut_bit hL _ h).2⟩
    · exact ⟨bit_mem_fields (setParam_bit hL _ h).1, (setParam_bit hL _ h).2⟩
    · exact hparam h
  · split at he
    · obtain ⟨r, hr, her⟩ := List.mem_flatMap.1 he
      rw [(mem_stageRmws (List.mem_of_mem_take hr)).2] at her
      exact hparam (List.mem_of_mem_filter her)
    · cases he

/-- A staged parameter is no control bit. -/
theorem paramEdits_ne_bit {L : Layout} (hL : L.WF) {p : ClockParams} {f : Field} (hf : f ∈ L.bitFields) :
    ∀ e ∈ paramEdits L p, e.1 ≠ f := fun _ he =>
  param_ne_bit hL (field_mem_of_paramEdits he) hf

theorem stageRmws_ne_bit {L : Layout} (hL : L.WF) {p : ClockParams} {r : Rmw} (hr : r ∈ stageRmws L p) {f : Field}
    (hf : f ∈ L.bitFields) : f ∉ r.fields := by
  intro h
  obtain ⟨e, he, hef⟩ := List.mem_map.1 h
  rw [(mem_stageRmws hr).2] at he
  exact paramEdits_ne_bit hL hf e (List.mem_of_mem_filter he) hef

/-- Staging one more word keeps the words staged so far (R178). -/
theorem leads_stage {L : Layout} {p : ClockParams} {j : Nat} {r : Rmw} (hr : (stageRmws L p)[j]? = some r) :
    r.Leads (((stageRmws L p).take j).flatMap Rmw.edits) (((stageRmws L p).take (j + 1)).flatMap Rmw.edits) := by
  intro e he
  obtain ⟨hj, rfl⟩ := List.getElem?_eq_some_iff.1 hr
  rw [List.take_succ_eq_append_getElem hj, List.flatMap_append, List.mem_append] at he
  rcases he with he | he
  · refine Or.inr ⟨he, fun h => ?_⟩
    obtain ⟨r', hr', her'⟩ := List.mem_flatMap.1 he
    obtain ⟨i, hi, rfl⟩ := List.mem_take_iff_getElem.1 hr'
    obtain ⟨e', he', hee'⟩ := List.mem_map.1 h
    have hword := List.pairwise_iff_getElem.1 (stageRmws_words L p) i j (by omega) hj (by omega)
    rw [(mem_stageRmws (List.getElem_mem _)).2, List.mem_filter, beq_iff_eq] at her' he'
    exact hword (her'.2.symm.trans (by rw [← hee', he'.2]))
  · exact Or.inl (by simpa using he)

/-- Staging one more word keeps the control bits too. -/
theorem leads_stage_held {L : Layout} (hL : L.WF) {p : ClockParams} {j : Nat} {r : Rmw}
    (hr : (stageRmws L p)[j]? = some r) :
    r.Leads (heldAfter L p .poweredDown j) (heldAfter L p .poweredDown (j + 1)) := by
  intro e he
  rcases List.mem_append.1 he with he | he
  · have hbit : e.1 ∈ L.bitFields := by
      simp only [held, List.mem_cons, mem_optEdits] at he
      rcases he with rfl | rfl | ⟨hs, -⟩
      · exact bypass_mem L
      · exact powerdown_mem L
      · exact selOut_mem hs
    exact Or.inr ⟨List.mem_append_left _ he, stageRmws_ne_bit hL (List.mem_of_getElem? hr) hbit⟩
  · rcases leads_stage hr e he with h | ⟨h, hn⟩
    · exact Or.inl h
    · exact Or.inr ⟨List.mem_append_right _ h, hn⟩

/-- With the last word the whole triple is staged. -/
theorem held_paramStaged {L : Layout} (hL : L.WF) {p : ClockParams} {e : Field × Word}
    (he : e ∈ heldAfter L p .paramStaged 0) : e ∈ heldAfter L p .poweredDown (stageRmws L p).length := by
  have hstaged : e ∈ paramEdits L p → e ∈ ((stageRmws L p).take (stageRmws L p).length).flatMap Rmw.edits := by
    intro h
    rw [List.take_length]
    exact List.mem_flatMap.2 (exists_stageRmws hL h)
  simp only [heldAfter, held, List.mem_append, List.mem_cons, reduceCtorEq, if_false, if_true] at he ⊢
  tauto

/-- The last read-modify-write of a transition leads to what must hold in the next state (R175 to R180, R184, R185). -/
theorem leads_next {L : Layout} (hL : L.WF) {p : ClockParams} {q : Fsm} (hq : q.rewrites) {j : Nat} {r : Rmw}
    (hr : (transitionRmws L p q)[j]? = some r) (hlast : j + 1 = (transitionRmws L p q).length) :
    r.Leads (heldAfter L p q j) (heldAfter L p q.next 0) := by
  obtain ⟨-, -, hbp, hsel, hset, hss⟩ := wf_bitsDistinct hL
  have hmem := List.mem_of_getElem? hr
  cases q with
  | bypassed =>
    cases hs : L.selOut with
    | none => simp [transitionRmws, hs, setOptBit] at hmem
    | some f =>
      have hr : r = setBit f 0 := by simpa [transitionRmws, hs, setOptBit] using hmem
      rw [hr]
      apply leads_setBit
      simp [heldAfter, held, Fsm.next, hs, optEdits, (hsel f hs).2.1.symm]
  | off =>
    have hr : r = setBit L.powerdown 1 := by simpa [transitionRmws] using hmem
    rw [hr]
    apply leads_setBit
    intro e he
    simp only [heldAfter, held, Fsm.next, List.mem_append, List.mem_cons, mem_optEdits] at he ⊢
    grind
  | paramCommitted =>
    have hr : r = setBit L.powerdown 0 := by simpa [transitionRmws] using hmem
    rw [hr]
    have hapart := paramEdits_ne_bit (p := p) hL (powerdown_mem L)
    apply leads_setBit
    intro e he
    simp only [heldAfter, held, Fsm.next, List.mem_append, List.mem_cons, mem_optEdits] at he ⊢
    grind
  | waitingLock =>
    cases hs : L.selOut with
    | none => simp [transitionRmws, hs, setOptBit] at hmem
    | some f =>
      have hr : r = setBit f 1 := by simpa [transitionRmws, hs, setOptBit] using hmem
      rw [hr]
      have hapart := paramEdits_ne_bit (p := p) hL (selOut_mem hs)
      apply leads_setBit
      intro e he
      simp only [heldAfter, held, Fsm.next, List.mem_append, List.mem_cons, mem_optEdits] at he ⊢
      grind
  | on =>
    have hr : r = setBit L.bypass 0 := by simpa [transitionRmws] using hmem
    rw [hr]
    have hapart := paramEdits_ne_bit (p := p) hL (bypass_mem L)
    apply leads_setBit
    intro e he
    simp only [heldAfter, held, Fsm.next, List.mem_append, List.mem_cons, mem_optEdits] at he ⊢
    grind
  | paramStaged =>
    cases hs : L.setParam with
    | none => simp [transitionRmws, hs, setOptBit] at hmem
    | some f =>
      have hj : j = 1 := by simpa [transitionRmws, hs, setOptBit] using hlast
      have hr : r = setBit f 0 := by simpa [transitionRmws, hs, setOptBit, hj, eq_comm] using hr
      rw [hr]
      have hapart := paramEdits_ne_bit (p := p) hL (setParam_mem hs)
      apply leads_setBit
      intro e he
      simp only [heldAfter, held, Fsm.next, List.mem_append, List.mem_cons, mem_optEdits] at he ⊢
      grind
  | poweredDown =>
    intro e he
    refine leads_stage_held hL hr e ?_
    rw [hlast]
    exact held_paramStaged hL he
  | poweringUp => exact absurd rfl hq.2.1
  | unbypassed => exact absurd rfl hq.2.2
  | _ => exact absurd hq.1 (by decide)

/-- A read-modify-write before the last of its transition keeps what must hold in the state (R178, R179). -/
theorem leads_same {L : Layout} (hL : L.WF) {p : ClockParams} {q : Fsm} (hq : q.rewrites) {j : Nat} {r : Rmw}
    (hr : (transitionRmws L p q)[j]? = some r) (hmore : j + 1 ≠ (transitionRmws L p q).length) :
    r.Leads (heldAfter L p q j) (heldAfter L p q (j + 1)) := by
  obtain ⟨-, -, hbp, hsel, hset, hss⟩ := wf_bitsDistinct hL
  have hj := (List.getElem?_eq_some_iff.1 hr).1
  cases q with
  | poweredDown => exact leads_stage_held hL hr
  | paramStaged =>
    cases hs : L.setParam with
    | none => simp [transitionRmws, hs, setOptBit] at hj
    | some f =>
      have hj : j = 0 := by
        simp [transitionRmws, hs, setOptBit] at hj hmore
        omega
      have hr : r = setBit f 1 := by simpa [transitionRmws, hs, setOptBit, hj, eq_comm] using hr
      rw [hr]
      have hapart := paramEdits_ne_bit (p := p) hL (setParam_mem hs)
      apply leads_setBit
      intro e he
      simp only [heldAfter, held, List.mem_append, List.mem_cons, mem_optEdits] at he ⊢
      grind
  | bypassed | waitingLock =>
    cases hs : L.selOut <;> simp [transitionRmws, hs, setOptBit] at hj hmore
    exact absurd hj hmore
  | off | paramCommitted | on =>
    simp [transitionRmws] at hj hmore
    exact absurd hj hmore
  | poweringUp => exact absurd rfl hq.2.1
  | unbypassed => exact absurd rfl hq.2.2
  | _ => exact absurd hq.1 (by decide)

/-- A transition that the layout has no bit for asks nothing new (R172). -/
theorem held_next_of_none {L : Layout} (hL : L.WF) {p : ClockParams} {q : Fsm} (hq : q.rewrites)
    (hrs : transitionRmws L p q = []) (j : Nat) {e : Field × Word} (he : e ∈ heldAfter L p q.next 0) :
    e ∈ heldAfter L p q j := by
  cases q with
  | poweredDown =>
    obtain ⟨r, hr, -⟩ := exists_stageRmws hL (p := p) (e := (L.divRef, p.divRef)) (by simp [paramEdits])
    rw [show stageRmws L p = [] from hrs] at hr
    cases hr
  | bypassed | waitingLock =>
    cases hs : L.selOut with
    | none => simp_all [heldAfter, held, Fsm.next, optEdits]
    | some f => simp [transitionRmws, hs, setOptBit] at hrs
  | paramStaged =>
    cases hs : L.setParam with
    | none => simp_all [heldAfter, held, Fsm.next, optEdits]
    | some f => simp [transitionRmws, hs, setOptBit] at hrs
  | off | paramCommitted | on => simp [transitionRmws] at hrs
  | poweringUp => exact absurd rfl hq.2.1
  | unbypassed => exact absurd rfl hq.2.2
  | _ => exact absurd hq.1 (by decide)

end Sys2Proof.Machine
end

section
/-! The invariant of the protocol over every step (43_programmer R269), from the lists of what the register holds. -/

namespace Sys2Proof.Machine

/-- The register holds what the point of the APPLY asks. -/
abbrev RegisterHolds (s : State) : Prop :=
  Holds s.pll.words (heldAfter (s.layout hw) s.cmd.params s.seq.fsm (s.seq.sub.toNat / 2))

theorem protocolInv_iff (s : State) :
    ProtocolInv s ↔ Inv s ∧ SubInRange s ∧ LatchFresh s ∧ RegisterHolds s := by
  rw [RegisterHolds, holds_heldAfter_iff]

/-- Only staging makes the list hang on how many words are written. -/
theorem heldAfter_congr (L : Layout) (p : ClockParams) {q : Fsm} {i j : Nat} (h : q = .poweredDown → i = j) :
    heldAfter L p q i = heldAfter L p q j := by
  unfold heldAfter
  split
  · rename_i hq
    rw [h hq]
  · rfl

theorem pendingWrite_eq (cfg : Config) (s : State) :
    pendingWrite cfg s =
      if (s.seq.sub.toNat - s.seq.fsm.firstSub) % 2 = 1 then
        (transitionRmws (s.layout cfg) s.cmd.params s.seq.fsm)[(s.seq.sub.toNat - s.seq.fsm.firstSub) / 2]?
      else none := by
  unfold pendingWrite Fsm.firstSub
  split <;> rfl

/-- Between two read-modify-writes nothing is latched for a write. -/
theorem latchFresh_of_even {s : State} (h : (s.seq.sub.toNat - s.seq.fsm.firstSub) % 2 = 0) : LatchFresh s := by
  intro r hr
  rw [pendingWrite_eq, if_neg (by omega)] at hr
  cases hr

/-- Where no APPLY is in flight the protocol asks nothing of the register. -/
theorem protocolInv_of_not_inApply {s : State} (hi : Inv s) (hq : s.seq.fsm.inApply = false)
    (hread : s.seq.fsm = .read → s.seq.sub.toNat ≤ (s.layout hw).nwords) : ProtocolInv s := by
  have hheld : heldAfter (s.layout hw) s.cmd.params s.seq.fsm (s.seq.sub.toNat / 2) = [] := by
    cases hf : s.seq.fsm <;> simp_all [Fsm.inApply, heldAfter, held]
  have hlatch : LatchFresh s := by
    rcases fsm_cases s.seq.fsm with hf | hf | hf | hf
    · exact latchFresh_of_even (by simp [hi.idleSub hf])
    · intro r hr; simp [pendingWrite, hf, transitionRmws] at hr
    · intro r hr; simp [pendingWrite, hf, transitionRmws] at hr
    · rw [hf] at hq; cases hq
  refine (protocolInv_iff s).2 ⟨hi, ⟨fun h => ?_, hread⟩, hlatch, ?_⟩
  · rw [h] at hq; cases hq
  · rw [RegisterHolds, hheld]; exact holds_nil _

theorem protocolInv_of_idle {s : State} (hi : Inv s) (hq : s.seq.fsm = .idle) : ProtocolInv s :=
  protocolInv_of_not_inApply hi (by rw [hq]; rfl) (by simp [hq])

/-- At the end of a transition: SUB is 0 and the register holds what the next state asks. -/
theorem protocolInv_moveTo {u : State} {q : Fsm} (hi : Inv (u.moveTo q)) (hq : q.inApply = true)
    (hholds : Holds u.pll.words (heldAfter (u.layout hw) u.cmd.params q 0)) : ProtocolInv (u.moveTo q) := by
  refine (protocolInv_iff _).2 ⟨hi, ⟨fun _ => Nat.zero_le _, fun h => ?_⟩, latchFresh_of_even (by simp), ?_⟩
  · rw [show q = .read from h] at hq; cases hq
  · simpa [RegisterHolds] using hholds

section
variable {s t : State}

/-- The register after the write of the read-modify-write in flight, by the latch that holds what the register held. -/
theorem holds_after_write (h : ProtocolInv s) (hin : s.seq.fsm.inApply = true) {r : Rmw}
    (hr : (transitionRmws (s.layout hw) s.cmd.params s.seq.fsm)[(s.seq.sub.toNat - s.seq.fsm.firstSub) / 2]? = some r)
    (hk : (s.seq.sub.toNat - s.seq.fsm.firstSub) % 2 = 1) {es : List (Field × Word)}
    (hleads : r.Leads
      (heldAfter (s.layout hw) s.cmd.params s.seq.fsm ((s.seq.sub.toNat - s.seq.fsm.firstSub) / 2)) es) :
    Holds (writeEffect hw r.word (r.edit (s.seq.read.get r.word)) s.counted).pll.words es := by
  obtain ⟨hi, -, hlatch, hholds⟩ := (protocolInv_iff s).1 h
  have hL := wf_layout hw_wf s
  have hproper := proper_transitionRmws hL (hi.applying hin).2.1 (List.mem_of_getElem? hr)
  have hfresh := hlatch r (by rw [pendingWrite_eq, if_pos hk, hr]; rfl)
  refine holds_of_leads hL hproper (fun he => heldAfter_fields hL he) hleads hfresh ?_
  rwa [heldAfter_congr _ _ (j := s.seq.sub.toNat / 2) fun hq => by rw [hq]; rfl]

/-- SUB of the next transaction of a transition, as a number: its three bits do not run over. -/
theorem nextSub_toNat {u : State}
    (h : u.seq.sub.toNat + 1 ≤
      u.seq.fsm.firstSub + (2 * (transitionRmws (u.layout hw) u.cmd.params u.seq.fsm).length - 1)) :
    u.nextSub.seq.sub.toNat = u.seq.sub.toNat + 1 := by
  have hlen := transitionRmws_length (wf_layout hw_wf u) u.cmd.params u.seq.fsm
  rw [nextSub_seq]
  bv_omega

/-- The next transaction of the same transition (R31). -/
theorem protocolInv_nextSub {u : State} (hi : Inv u.nextSub) (hin : u.seq.fsm.inApply = true)
    (hrange : u.seq.sub.toNat + 1 ≤
      u.seq.fsm.firstSub + (2 * (transitionRmws (u.layout hw) u.cmd.params u.seq.fsm).length - 1))
    (hlatch : LatchFresh u.nextSub)
    (hholds : Holds u.pll.words (heldAfter (u.layout hw) u.cmd.params u.seq.fsm ((u.seq.sub.toNat + 1) / 2))) :
    ProtocolInv u.nextSub := by
  have hsub := nextSub_toNat hrange
  refine (protocolInv_iff _).2 ⟨hi, ⟨fun _ => ?_, fun h => ?_⟩, hlatch, ?_⟩
  · rw [hsub]; exact hrange
  · rw [show u.seq.fsm = .read from h] at hin; cases hin
  · rw [RegisterHolds, hsub]; exact hholds

/-- Once the wait is over SUB is past the polls. -/
theorem firstSub_le_sub (hp : ¬ Polling s) : s.seq.fsm.firstSub ≤ s.seq.sub.toNat := by
  unfold Fsm.firstSub
  split
  · rename_i hq
    have hne : s.seq.sub ≠ 0 := fun h => hp ⟨hq, h⟩
    bv_omega
  · omega

/-- A read latches the word that the register holds, `locked` apart (R66). -/
theorem latchFresh_after_read (hp : ¬ Polling s) {r : Rmw}
    (hr : (transitionRmws (s.layout hw) s.cmd.params s.seq.fsm)[(s.seq.sub.toNat - s.seq.fsm.firstSub) / 2]? = some r)
    (hk : (s.seq.sub.toNat - s.seq.fsm.firstSub) % 2 = 0)
    (hsub : (readEffect hw r.word s.counted).nextSub.seq.sub.toNat = s.seq.sub.toNat + 1) :
    LatchFresh (readEffect hw r.word s.counted).nextSub := by
  have hfirst := firstSub_le_sub hp
  have hpending : pendingWrite hw (readEffect hw r.word s.counted).nextSub = some r := by
    rw [pendingWrite_eq, hsub]
    refine (if_pos ?_).trans ?_
    · show (s.seq.sub.toNat + 1 - s.seq.fsm.firstSub) % 2 = 1
      omega
    · show (transitionRmws (s.layout hw) s.cmd.params s.seq.fsm)[(s.seq.sub.toNat + 1 - s.seq.fsm.firstSub) / 2]? = some r
      rw [← hr]
      congr 1
      omega
  intro r' hr'
  rw [hpending] at hr'
  cases hr'
  simp only [nextSub_seq, readEffect_seq, RegWords.get_set_same]
  exact storedValue_readValue hw s r.word

/-- A clock of a transition keeps the protocol's invariant. -/
theorem ProtocolInv.rmwTick (h : ProtocolInv s) (hq : s.seq.fsm.rewrites) (hp : ¬ Polling s) (hi : Inv t)
    (ht : rmwTick hw (transitionRmws (s.layout hw) s.cmd.params s.seq.fsm) s.seq.fsm.firstSub s.seq.fsm s = .next t) :
    ProtocolInv t := by
  have hin := hq.1
  have hL := wf_layout hw_wf s
  have hfirst := firstSub_le_sub hp
  obtain ⟨-, ⟨hrange, -⟩, -, hholds⟩ := (protocolInv_iff s).1 h
  have hrange : s.seq.sub.toNat ≤
      s.seq.fsm.firstSub + (2 * (transitionRmws (s.layout hw) s.cmd.params s.seq.fsm).length - 1) := hrange hin
  rcases rmwTick_eq_next ht with ⟨hnone, rfl⟩ | ⟨r, hr, ⟨hk, rfl⟩ | ⟨hk, rfl⟩⟩
  · have hlen := List.getElem?_eq_none_iff.1 hnone
    have hnil : transitionRmws (s.layout hw) s.cmd.params s.seq.fsm = [] := List.eq_nil_of_length_eq_zero (by omega)
    exact protocolInv_moveTo hi (next_of_rewrites hq).1 fun e he => hholds e (held_next_of_none hL hq hnil _ he)
  · obtain ⟨hlt, -⟩ := List.getElem?_eq_some_iff.1 hr
    have hnext : s.seq.sub.toNat + 1 ≤
        s.seq.fsm.firstSub + (2 * (transitionRmws (s.layout hw) s.cmd.params s.seq.fsm).length - 1) := by omega
    refine protocolInv_nextSub (u := readEffect hw r.word s.counted) hi hin hnext
      (latchFresh_after_read hp hr hk (nextSub_toNat (u := readEffect hw r.word s.counted) hnext)) ?_
    intro e he
    refine hholds e ?_
    rwa [heldAfter_congr _ _ (j := (s.seq.sub.toNat + 1) / 2)]
    intro hdown
    rw [hdown, firstSub_poweredDown] at hk
    omega
  · obtain ⟨hlt, -⟩ := List.getElem?_eq_some_iff.1 hr
    by_cases hlast : s.seq.sub.toNat - s.seq.fsm.firstSub + 1 =
        2 * (transitionRmws (s.layout hw) s.cmd.params s.seq.fsm).length
    · rw [if_pos hlast] at hi ⊢
      exact protocolInv_moveTo hi (next_of_rewrites hq).1
        (holds_after_write h hin hr hk (leads_next hL hq hr (by omega)))
    · rw [if_neg hlast] at hi ⊢
      have hnext : s.seq.sub.toNat + 1 ≤
          s.seq.fsm.firstSub + (2 * (transitionRmws (s.layout hw) s.cmd.params s.seq.fsm).length - 1) := by omega
      have hsub := nextSub_toNat (u := writeEffect hw r.word (r.edit (s.seq.read.get r.word)) s.counted) hnext
      refine protocolInv_nextSub hi hin hnext (latchFresh_of_even ?_) ?_
      · rw [hsub]
        simp only [nextSub_seq, writeEffect_seq, counted_seq]
        omega
      · have hafter := holds_after_write h hin hr hk (leads_same hL hq hr (by omega))
        intro e he
        refine hafter e ?_
        rwa [heldAfter_congr _ _ (j := (s.seq.sub.toNat + 1) / 2)]
        intro hdown
        rw [hdown, firstSub_poweredDown] at hk ⊢
        omega

/-- A poll keeps the protocol's invariant: it changes neither the register nor FSM. -/
theorem ProtocolInv.poll (h : ProtocolInv s) (hp : Polling s) (hi : Inv t) (ht : poll hw s = .next t) : ProtocolInv t := by
  obtain ⟨hframe, hpll, -, -, hfsm, -, -, hend⟩ := poll_eq_next hw_wf ht
  obtain ⟨-, -, -, hholds⟩ := (protocolInv_iff s).1 h
  have hwait : t.seq.fsm = .waitingLock := hfsm.trans hp.1
  have hsub : t.seq.sub.toNat ≤ 1 := by
    split at hend
    · rw [hend.2]; decide
    · split at hend
      · rw [hend.2]; decide
      · rw [hend.2, hp.2]; decide
  refine (protocolInv_iff t).2 ⟨hi, ⟨fun _ => ?_, fun hread => ?_⟩, latchFresh_of_even ?_, ?_⟩
  · rw [if_pos hwait]; omega
  · rw [hwait] at hread; cases hread
  · rw [hwait, firstSub_waitingLock]; omega
  · rw [RegisterHolds, hpll, hframe.layout, hframe.cmd, hfsm,
      heldAfter_congr _ _ (j := s.seq.sub.toNat / 2) fun hdown => by rw [hp.1] at hdown; cases hdown]
    exact hholds

/-- The wait begins with the register as step 6 left it. -/
theorem ProtocolInv.settle (h : ProtocolInv s) (hq : s.seq.fsm = .poweringUp) (hi : Inv t)
    (ht : settle hw s = .next t) : ProtocolInv t := by
  obtain ⟨hframe, hpll, -, hseq, -⟩ := settle_eq_next ht
  obtain ⟨-, -, -, hholds⟩ := (protocolInv_iff s).1 h
  refine (protocolInv_iff t).2 ⟨hi, ⟨fun _ => ?_, fun hread => ?_⟩, latchFresh_of_even ?_, ?_⟩
  · rw [hseq]; exact Nat.zero_le _
  · rw [hseq] at hread; cases hread
  · rw [hseq]; rfl
  · rw [RegisterHolds, hpll, hframe.layout, hframe.cmd, hseq]
    rw [RegisterHolds, hq] at hholds
    exact hholds

theorem ProtocolInv.applyTick (h : ProtocolInv s) (hin : s.seq.fsm.inApply = true)
    (ht : applyTick hw s.cmd.params s = .next t) : ProtocolInv t := by
  have hi := h.1.applyTick hin ht
  rcases applyTick_cases hin ht with ⟨hup, hs⟩ | ⟨hp, hpoll⟩ | ⟨-, rfl⟩ | ⟨hq, hp, hr⟩
  · exact h.settle hup hi hs
  · exact h.poll hp hi hpoll
  · exact protocolInv_of_idle hi rfl
  · exact h.rmwTick hq hp hi hr

theorem ProtocolInv.advance (h : ProtocolInv s) (ht : advance hw exec s = .next t) : ProtocolInv t := by
  have hi := h.1.advance ht
  rcases fsm_cases s.seq.fsm with hq | hq | hq | hq
  · rw [advance_idle hq] at ht
    cases ht
    exact h
  · rw [advance_exec hq] at ht
    obtain ⟨i, heffect⟩ := runWord_effect ht
    exact protocolInv_of_idle hi heffect.over.2.1
  · rw [advance_read hq] at ht
    rcases readTick_cases ht with ⟨hlt, rfl⟩ | ⟨st, r0, rfl⟩
    · have hwords := wf_nwords_le (wf_layout hw_wf s)
      refine protocolInv_of_not_inApply hi (by simp [hq, Fsm.inApply]) fun _ => ?_
      simp only [nextSub_seq, readEffect_seq, counted_seq, nextSub_layout, readEffect_layout, counted_layout]
      bv_omega
    · exact protocolInv_of_idle hi rfl
  · rw [advance_inApply hq] at ht
    exact h.applyTick hq ht

/-- Step 1 leaves the register bypassed (R175). -/
theorem holds_bypassed {p : ClockParams} (h : runRmws hw (transitionRmws (s.layout hw) p .idle) s = .next t) :
    Holds t.pll.words (heldAfter (t.layout hw) p .bypassed 0) := by
  rw [(runRmws_frame h).layout hw]
  obtain ⟨u, hu, hut⟩ := andThen_eq_next.1 h
  cases hut
  have hL := wf_layout hw_wf s
  obtain ⟨hbit, -⟩ := setBit_eq_next hw_wf (bit_mem_fields (bypass_mem _)) (wf_bitsDistinct hL).bypass_locked hu
  rw [wf_bit_width hL (bypass_mem _), show (1 : Word) &&& mask 1 = 1 by decide] at hbit
  simpa [heldAfter, held] using hbit

theorem ProtocolInv.acceptAndRun {w : CommandWord} (h : ProtocolInv s) (hq : s.seq.fsm = .idle)
    (ht : acceptAndRun hw exec w s = .next t) : ProtocolInv t := by
  have hi := h.1.acceptAndRun hq ht
  unfold Machine.acceptAndRun at ht
  split at ht
  · rcases begin_cases ht with ⟨st, rfl⟩ | rfl | ⟨-, rfl⟩ | ⟨-, -, hstep⟩
    · exact protocolInv_of_idle hi rfl
    · exact protocolInv_of_not_inApply hi rfl fun hread => (nomatch hread)
    · exact protocolInv_of_not_inApply hi rfl fun _ => Nat.zero_le _
    · obtain ⟨u, hu, hut⟩ := andThen_eq_next.1 hstep
      cases hut
      have hcmd : u.cmd = (accept w s).cmd := (runRmws_frame hu).cmd
      exact protocolInv_moveTo hi rfl (hcmd ▸ holds_bypassed hu)
  · obtain ⟨i, heffect⟩ := runWord_effect ht
    exact protocolInv_of_idle hi heffect.over.2.1

end

end Sys2Proof.Machine

open Sys2Proof Sys2Proof.Machine

/-- Settles O57: each of the three things a step can be keeps the protocol's invariant. -/
theorem stepKeepsTheProtocolInvariant : Obligations.StepKeepsTheProtocolInvariant := by
  intro s t h hstep
  have h' : ∀ rest, ProtocolInv (withHost rest (endPulse s)) := fun _ => h
  rcases step_cases hstep with ⟨rest, rfl⟩ | ⟨hq, w, rest, ht⟩ | ⟨rest, ht⟩
  · exact protocolInv_of_idle (inv_resetCoreWith ..) rfl
  · exact (h' rest).acceptAndRun hq ht
  · exact (h' rest).advance ht

/-- Settles O56: after reset no command is in flight, and the trace is empty. -/
theorem resetHasTheInvariants : Obligations.ResetHasTheInvariants :=
  ⟨protocolInv_of_idle (inv_resetCoreWith ..) rfl, rfl, fun h => (nomatch h), fun h => (nomatch h)⟩
end

section
/-! The two granularities (10_state R31; log 1): one bus transaction a step leads to the state of the whole command. The fine
machine holds the same state as the whole command does at the same point of its work, but for FSM, SUB and `env.fine`. -/

namespace Sys2Proof.Machine

/-! ### Runs -/

/-- A run of `k + 1` steps is a step and a run of `k`. -/
theorem run_succ_eq_next {M : Host.Core} {k : Nat} {s t : M.State} :
    M.run (k + 1) s = .next t ↔ ∃ u, M.step s = .next u ∧ M.run k u = .next t := by
  rw [Host.Core.run.eq_def]
  dsimp only
  cases M.step s <;> simp

/-- Some number of steps leads from one state to the other. -/
def Reaches (s t : State) : Prop := ∃ k, Host.Core.run Sys2Proof.core k s = .next t

theorem Reaches.refl (s : State) : Reaches s s := ⟨0, rfl⟩

theorem Reaches.head {s u t : State} (h : step s = .next u) (hr : Reaches u t) : Reaches s t := by
  obtain ⟨k, hk⟩ := hr
  exact ⟨k + 1, run_succ_eq_next.2 ⟨u, h, hk⟩⟩

theorem Reaches.single {s t : State} (h : step s = .next t) : Reaches s t := .head h (.refl t)

theorem Reaches.trans {s u t : State} (h : Reaches s u) (hr : Reaches u t) : Reaches s t := by
  obtain ⟨n, hn⟩ := h
  induction n generalizing s with
  | zero => cases hn; exact hr
  | succ n ih =>
    obtain ⟨v, hv, hn⟩ := run_succ_eq_next.1 hn
    exact .head hv (ih hn)

/-! ### The state as the fine machine holds it -/

/-- The state with FSM at `q`, SUB at `k` and one bus transaction a step. -/
def paced (q : Fsm) (k : BitVec 3) (s : State) : State :=
  { s with seq := { s.seq with fsm := q, sub := k }, env := { s.env with fine := true } }

/-- The state with one bus transaction a step. -/
def State.refined (s : State) : State := { s with env := { s.env with fine := true } }

@[simp] theorem refined_handle (s : State) : s.refined.handle = s.handle := rfl

theorem refined_eq_paced (s : State) : s.refined = paced s.seq.fsm s.seq.sub s := rfl

@[simp] theorem paced_handle (q : Fsm) (k : BitVec 3) (s : State) : (paced q k s).handle = s.handle := rfl
@[simp] theorem paced_cmd (q : Fsm) (k : BitVec 3) (s : State) : (paced q k s).cmd = s.cmd := rfl
@[simp] theorem paced_grantAt (q : Fsm) (k : BitVec 3) (s : State) :
    (paced q k s).env.grantAt (paced q k s).env.grantPos = s.env.grantAt s.env.grantPos := rfl
@[simp] theorem paced_seq (q : Fsm) (k : BitVec 3) (s : State) :
    (paced q k s).seq = { s.seq with fsm := q, sub := k } := rfl
@[simp] theorem paced_layout (cfg : Config) (q : Fsm) (k : BitVec 3) (s : State) :
    (paced q k s).layout cfg = s.layout cfg := rfl

theorem paced_eq_refined {q : Fsm} {k : BitVec 3} {s : State} (hq : s.seq.fsm = q) (hk : s.seq.sub = k) :
    paced q k s = s.refined := by
  rw [refined_eq_paced, hq, hk]

/-- Nothing is presented and no response is under way, so a step is one clock of what is in flight. -/
def Undisturbed (s : State) : Prop := s.env.host = [] ∧ s.rsp.valid = false

theorem Undisturbed.of_frame {s t : State} (h : Undisturbed s) (hf : ApplyFrame s t) : Undisturbed t := by
  obtain ⟨hhost, hvalid⟩ := h
  exact ⟨hf.host.trans hhost, by rw [hf.rsp]; exact hvalid⟩

theorem step_paced {q : Fsm} {k : BitVec 3} {s : State} (h : Undisturbed s) :
    step (paced q k s) = advance hw exec (paced q k s) := by
  obtain ⟨hhost, hvalid⟩ := h
  rw [step_noInput (s := paced q k s) hhost]
  congr 1
  rw [endPulse, show (paced q k s).rsp = s.rsp from rfl, ← hvalid]
  rfl

/-! ### The operations do not look at FSM, SUB or the granularity -/

section
variable {cfg : Config} {q : Fsm} {k : BitVec 3} {s t : State}

theorem busTransaction_paced {i : Nat} {act : State → State}
    (hact : ∀ s, act (paced q k s) = paced q k (act s)) (h : busTransaction i act s = .next t) :
    busTransaction i act (paced q k s) = .next (paced q k t) := by
  obtain ⟨hinside, halive, rfl⟩ := busTransaction_eq_next h
  have hinside' : (paced q k s).inAddressSpace i = true := hinside
  have halive' : (paced q k s).env.busDead = false := halive
  rw [busTransaction, if_pos hinside', if_neg (by simp [halive'])]
  exact congrArg _ (hact s.counted)

theorem busRead_paced {i : Nat} (h : busRead cfg i s = .next t) :
    busRead cfg i (paced q k s) = .next (paced q k t) :=
  busTransaction_paced (fun _ => rfl) h

theorem busWrite_paced {i : Nat} {v : Word} (h : busWrite cfg i v s = .next t) :
    busWrite cfg i v (paced q k s) = .next (paced q k t) :=
  busTransaction_paced (fun _ => rfl) h

theorem rmwWrite_paced {r : Rmw} (h : rmwWrite cfg r s = .next t) :
    rmwWrite cfg r (paced q k s) = .next (paced q k t) := busWrite_paced h

theorem runRmw_paced {r : Rmw} (h : runRmw cfg r s = .next t) :
    runRmw cfg r (paced q k s) = .next (paced q k t) := by
  obtain ⟨u, hu, ht⟩ := andThen_eq_next.1 h
  rw [runRmw, busRead_paced hu, andThen_next, rmwWrite_paced ht]

theorem runRmws_paced {rs : List Rmw} (h : runRmws cfg rs s = .next t) :
    runRmws cfg rs (paced q k s) = .next (paced q k t) := by
  induction rs generalizing s with
  | nil => cases h; rfl
  | cons r rs ih =>
    obtain ⟨u, hu, ht⟩ := andThen_eq_next.1 h
    rw [runRmws, runRmw_paced hu, andThen_next, ih ht]

theorem transition_paced {p : ClockParams} {q' : Fsm} (h : transition cfg p q' s = .next t) :
    transition cfg p q' (paced q k s) = .next t.refined := by
  obtain ⟨u, hu, ht⟩ := andThen_eq_next.1 h
  cases ht
  rw [transition, paced_layout, runRmws_paced hu, andThen_next]
  rfl

theorem settle_refined (h : settle cfg s = .next t) : settle cfg s.refined = .next t.refined := by
  have hdelay : s.refined.prepollDelayUs cfg = s.prepollDelayUs cfg := rfl
  have hticks : s.refined.env.tickRuns = s.env.tickRuns := rfl
  unfold settle at h ⊢
  split at h
  · rename_i h0
    cases h
    rw [if_pos (hdelay.trans h0)]
    rfl
  · rename_i h0
    split at h
    · rename_i h1
      cases h
      rw [if_neg (hdelay ▸ h0), if_pos (hticks.trans h1)]
      rfl
    · cases h

theorem poll_refined (h : poll cfg s = .next t) : poll cfg s.refined = .next t.refined := by
  obtain ⟨u, hu, ht⟩ := andThen_eq_next.1 h
  cases ht
  have hseq : u.seq.fsm = s.seq.fsm ∧ u.seq.sub = s.seq.sub := by rw [(busRead_frame hu).seq]; exact ⟨rfl, rfl⟩
  obtain ⟨hfsm, hsub⟩ := hseq
  rw [poll, refined_eq_paced, paced_layout, busRead_paced hu,
    paced_eq_refined hfsm hsub]
  rfl

end

/-! ### An APPLY, clock by clock -/

section
variable {q : Fsm} {s t : State}

theorem step_paced_rewrites (h : Undisturbed s) (hq : q.rewrites) {k : BitVec 3} (hk : q = .waitingLock → k ≠ 0) :
    step (paced q k s) =
      rmwTick hw (transitionRmws (s.layout hw) s.cmd.params q) q.firstSub q (paced q k s) := by
  rw [step_paced h, advance_inApply (s := paced q k s) hq.1]
  exact applyTick_rewrites (s := paced q k s) hq fun hp => hk hp.1 hp.2

/-- SUB of the `n`-th transaction of a transition (R31). -/
def subAt (q : Fsm) (n : Nat) : BitVec 3 := BitVec.ofNat 3 (q.firstSub + n)

theorem subAt_index {n : Nat} (hn : n ≤ 4) : (subAt q n).toNat - q.firstSub = n := by
  have := firstSub_le q
  rw [subAt, BitVec.toNat_ofNat, Nat.mod_eq_of_lt (by omega)]
  omega

theorem subAt_zero (h : q ≠ .waitingLock) : subAt q 0 = 0 := by simp [subAt, Fsm.firstSub, h]

theorem subAt_succ (n : Nat) : subAt q n + 1 = subAt q (n + 1) := by
  simp [subAt, BitVec.ofNat_add, BitVec.add_assoc]

theorem subAt_ne_zero {n : Nat} (hn : n ≤ 4) : q = .waitingLock → subAt q n ≠ 0 := by
  rintro rfl h
  have hindex := subAt_index (q := .waitingLock) hn
  have hnat : (subAt .waitingLock n).toNat = 1 + n := by
    rw [subAt, firstSub_waitingLock, BitVec.toNat_ofNat, Nat.mod_eq_of_lt (by omega)]
  rw [h] at hnat
  simp at hnat
  omega

/-- The clock that makes the read of read-modify-write `j`. -/
theorem step_paced_read (hu : Undisturbed s) (hq : q.rewrites) {j : Nat} {r : Rmw} (hj : j ≤ 1)
    (hr : (transitionRmws (s.layout hw) s.cmd.params q)[j]? = some r) (h : busRead hw r.word s = .next t) :
    step (paced q (subAt q (2 * j)) s) = .next (paced q (subAt q (2 * j + 1)) t) := by
  have hindex : (paced q (subAt q (2 * j)) s).seq.sub.toNat - q.firstSub = 2 * j := subAt_index (by omega)
  rw [step_paced_rewrites hu hq (subAt_ne_zero (by omega)), rmwTick_read (r := r) (by rw [hindex, ← hr]; congr 1; omega)
    (by rw [hindex]; omega), busRead_paced h, andThen_next, ← subAt_succ]
  rfl

/-- The clock that makes its write, and ends the transition after the last. -/
theorem step_paced_write (hu : Undisturbed s) (hq : q.rewrites) {j : Nat} {r : Rmw} (hj : j ≤ 1)
    (hr : (transitionRmws (s.layout hw) s.cmd.params q)[j]? = some r) (h : rmwWrite hw r s = .next t) :
    step (paced q (subAt q (2 * j + 1)) s) =
      .next (if j + 1 = (transitionRmws (s.layout hw) s.cmd.params q).length then paced q.next 0 t
        else paced q (subAt q (2 * (j + 1))) t) := by
  have hindex : (paced q (subAt q (2 * j + 1)) s).seq.sub.toNat - q.firstSub = 2 * j + 1 := subAt_index (by omega)
  rw [step_paced_rewrites hu hq (subAt_ne_zero (by omega)), rmwTick_write (r := r) (by rw [hindex, ← hr]; congr 1; omega)
    (by rw [hindex]; omega), rmwWrite_paced h, andThen_next, hindex]
  by_cases hlast : j + 1 = (transitionRmws (s.layout hw) s.cmd.params q).length
  · rw [if_pos (by omega), if_pos hlast]
    rfl
  · rw [if_neg (by omega), if_neg hlast, show 2 * (j + 1) = 2 * j + 1 + 1 from rfl, ← subAt_succ (2 * j + 1)]
    rfl

/-- The read-modify-writes of a transition that are still to come, two clocks each, and the end of the transition with the
last (R31). -/
theorem reaches_rmws (hq : q.rewrites) {todo done : List Rmw} (hu : Undisturbed s)
    (hrs : transitionRmws (s.layout hw) s.cmd.params q = done ++ todo) (hne : todo ≠ [])
    (h : runRmws hw todo s = .next t) : Reaches (paced q (subAt q (2 * done.length)) s) (paced q.next 0 t) := by
  induction todo generalizing s done with
  | nil => exact absurd rfl hne
  | cons r rest ih =>
    obtain ⟨v, hv, ht⟩ := andThen_eq_next.1 h
    obtain ⟨w, hread, hwrite⟩ := andThen_eq_next.1 hv
    have hlen := transitionRmws_length (wf_layout hw_wf s) s.cmd.params q
    have hdone : done.length ≤ 1 := by rw [hrs] at hlen; simp at hlen; omega
    have hr : (transitionRmws (s.layout hw) s.cmd.params q)[done.length]? = some r := by rw [hrs]; simp
    have hsw := (busRead_frame hread).toApply
    have hsv := (runRmw_frame hv).toApply
    have hrsw : transitionRmws (w.layout hw) w.cmd.params q = done ++ r :: rest := by rw [hsw.layout, hsw.cmd, hrs]
    have hrsv : transitionRmws (v.layout hw) v.cmd.params q = (done ++ [r]) ++ rest := by
      rw [hsv.layout, hsv.cmd, hrs]; simp
    have hwstep := step_paced_write (hu.of_frame hsw) hq hdone (by rw [hrsw]; simp) hwrite
    refine .head (step_paced_read hu hq hdone hr hread) (.head hwstep ?_)
    cases rest with
    | nil =>
      cases ht
      rw [if_pos (by rw [hrsw]; simp)]
      exact .refl _
    | cons r' rest =>
      rw [if_neg (by rw [hrsw]; simp)]
      have := ih (done := done ++ [r]) (hu.of_frame hsv) hrsv (by simp) ht
      simpa using this

/-- A whole transition, clock by clock; one without bus transactions takes one clock (R31, R172). -/
theorem reaches_transition (hq : q.rewrites) (hu : Undisturbed s) (h : transition hw s.cmd.params q s = .next t) :
    Reaches (paced q (subAt q 0) s) t.refined := by
  obtain ⟨u, hrun, ht⟩ := andThen_eq_next.1 h
  cases ht
  by_cases hnil : transitionRmws (s.layout hw) s.cmd.params q = []
  · rw [hnil] at hrun
    cases hrun
    refine .single ?_
    rw [step_paced_rewrites hu hq (subAt_ne_zero (by omega)), hnil, rmwTick_none rfl]
    rfl
  · have hend : (u.moveTo q.next).refined = paced q.next 0 u := rfl
    rw [hend]
    exact reaches_rmws hq (done := []) hu rfl hnil hrun

/-- Transitions one after another, each out of the state that the one before led to. -/
theorem reaches_transitions {qs : List Fsm} (hchain : (q :: qs).IsChain fun a b => b = a.next)
    (hrewrites : ∀ a ∈ q :: qs, a.rewrites) (hu : Undisturbed s)
    (h : transitions hw s.cmd.params (q :: qs) s = .next t) : Reaches (paced q (subAt q 0) s) t.refined := by
  induction qs generalizing q s with
  | nil =>
    obtain ⟨u, htrans, ht⟩ := andThen_eq_next.1 h
    cases ht
    exact reaches_transition (hrewrites q (by simp)) hu htrans
  | cons q' qs ih =>
    obtain ⟨u, htrans, ht⟩ := andThen_eq_next.1 h
    obtain ⟨-, -, hframe, -, -, -, hseq⟩ := transition_eq_next htrans
    rw [List.isChain_cons_cons] at hchain
    obtain ⟨hnext, hchain⟩ := hchain
    refine (reaches_transition (hrewrites q (by simp)) hu htrans).trans ?_
    have hstart : paced q' (subAt q' 0) u = u.refined := by
      rw [subAt_zero (hnext ▸ (next_of_rewrites (hrewrites q (by simp))).2)]
      exact paced_eq_refined (by rw [hseq, hnext]) (by rw [hseq])
    rw [← hstart]
    exact ih hchain (fun a ha => hrewrites a (by simp [ha])) (hu.of_frame hframe) (by rw [hframe.cmd]; exact ht)

/-- The wait, poll by poll (R182, R183). -/
theorem reaches_pollWait {n : Nat} (hp : Polling s) (hu : Undisturbed s) (h : pollWait hw n s = .next t) :
    Reaches s.refined t.refined := by
  induction n generalizing s with
  | zero => cases h; exact .refl _
  | succ n ih =>
    obtain ⟨u, hpoll, ht⟩ := andThen_eq_next.1 h
    obtain ⟨hframe, -, -, -, hfsm, -⟩ := poll_eq_next hw_wf hpoll
    have hstep : step s.refined = .next u.refined := by
      rw [refined_eq_paced, step_paced hu, ← refined_eq_paced,
        advance_inApply (s := s.refined) (show s.seq.fsm.inApply = true by rw [hp.1]; rfl),
        applyTick_polling (s := s.refined) hp, poll_refined hpoll]
    refine .head hstep ?_
    split at ht
    · rename_i hsub
      exact ih ⟨hfsm.trans hp.1, hsub⟩ (hu.of_frame hframe) ht
    · cases ht
      exact .refl _

/-- A whole APPLY from its acceptance: step 1 as one piece, then clock by clock (R31, R33). -/
theorem reaches_applySequence (hu : Undisturbed s) (h : applySequence hw s.cmd.params s = .next t) :
    ∃ u, transition hw s.cmd.params .idle (unsettle s) = .next u ∧ Reaches u.refined t.refined := by
  obtain ⟨s1, s2, s3, s4, h1, h2, h3, h4, rfl⟩ := applySequence_eq_next h
  obtain ⟨u, hstart, h1⟩ := andThen_eq_next.1 h1
  obtain ⟨-, -, f0, -, -, -, hseq0⟩ := transition_eq_next hstart
  obtain ⟨f1, -, -, hsub1, hfsm1⟩ := transitions_frame h1 (by decide)
  obtain ⟨f2, -, -, hseq2, -⟩ := settle_eq_next h2
  obtain ⟨f3, -, hfsm3, hsub3, -⟩ := pollWait_eq_next hw_wf h3 (by rw [hseq2]; rfl) (by decide) (by rw [hseq2])
  obtain ⟨f4, -, -, hsub4, hfsm4⟩ := transitions_frame h4 (by decide)
  have hu0 : Undisturbed u := Undisturbed.of_frame (s := unsettle s) hu f0
  have hu1 := hu0.of_frame f1
  have hu2 := hu1.of_frame f2
  have hu3 := hu2.of_frame f3
  have hu4 := hu3.of_frame f4
  have hcmd0 : u.cmd = s.cmd := f0.cmd
  have hcmd3 : s3.cmd = s.cmd := (f3.cmd.trans (f2.cmd.trans f1.cmd)).trans hcmd0
  have hcmd4 : s4.refined.cmd = s.cmd := f4.cmd.trans hcmd3
  refine ⟨u, hstart, ?_⟩
  have r1 : Reaches u.refined s1.refined := by
    rw [← hcmd0] at h1
    rw [← paced_eq_refined (q := .bypassed) (k := 0) (by rw [hseq0]; rfl) (by rw [hseq0])]
    exact reaches_transitions (by simp [Fsm.next]) (by simp [Fsm.rewrites, Fsm.inApply]) hu0 h1
  have r2 : Reaches s1.refined s2.refined := by
    refine .single ?_
    rw [refined_eq_paced, step_paced hu1, ← refined_eq_paced,
      advance_inApply (s := s1.refined) (show s1.seq.fsm.inApply = true by rw [hfsm1]; rfl),
      applyTick_poweringUp (s := s1.refined) hfsm1, settle_refined h2]
  have r3 : Reaches s2.refined s3.refined := reaches_pollWait ⟨by rw [hseq2], by rw [hseq2]⟩ hu2 h3
  have r4 : Reaches s3.refined s4.refined := by
    rw [← hcmd3] at h4
    rw [← paced_eq_refined (q := .waitingLock) (k := 1) (hfsm3.trans (by rw [hseq2])) hsub3]
    exact reaches_transitions (by simp [Fsm.next]) (by simp [Fsm.rewrites, Fsm.inApply]) hu3 h4
  have r5 : Reaches s4.refined (complete s.cmd.params s4).refined := by
    refine .single ?_
    rw [refined_eq_paced, step_paced hu4, ← refined_eq_paced,
      advance_inApply (s := s4.refined) (show s4.seq.fsm.inApply = true by rw [hfsm4]; rfl),
      applyTick_unbypassed (s := s4.refined) hfsm4, hcmd4]
    rfl
  exact r1.trans (r2.trans (r3.trans (r4.trans r5)))

/-! ### A READFREQ, clock by clock -/

/-- The reads that are still to come, one clock each (R211). -/
theorem reaches_readAll {n j : Nat} (hu : Undisturbed s) (hn : j + n = (s.layout hw).nwords)
    (h : readAll hw (List.range' j n) s = .next t) :
    Reaches (paced .read (BitVec.ofNat 3 j) s) (paced .read (BitVec.ofNat 3 (j + n)) t) := by
  induction n generalizing j s with
  | zero => cases h; exact .refl _
  | succ n ih =>
    rw [List.range'_succ] at h
    obtain ⟨u, hread, ht⟩ := andThen_eq_next.1 h
    have hframe := (busRead_frame hread).toApply
    have hwords := wf_nwords_le (wf_layout hw_wf s)
    have hsub : (paced .read (BitVec.ofNat 3 j) s).seq.sub.toNat = j := by
      show (BitVec.ofNat 3 j).toNat = j
      rw [BitVec.toNat_ofNat, Nat.mod_eq_of_lt (by omega)]
    have hstep : step (paced .read (BitVec.ofNat 3 j) s) = .next (paced .read (BitVec.ofNat 3 (j + 1)) u) := by
      rw [step_paced hu, advance_read rfl, readTick, hsub, paced_layout, busRead_paced hread, andThen_next,
        if_pos (by omega), BitVec.ofNat_add]
      rfl
    rw [show j + (n + 1) = j + 1 + n by omega]
    exact .head hstep (ih (hu.of_frame hframe) (by rw [hframe.layout]; omega) ht)

theorem respondFreq_paced (cfg : Config) (k : BitVec 3) :
    respondFreq cfg (paced q k s) = (respondFreq cfg s).refined := by
  rw [respondFreq, respondFreq, paced_layout, paced_handle, paced_seq]
  dsimp only
  split_ifs <;> rfl

/-- A whole READFREQ with a valid handle, clock by clock. -/
theorem reaches_readfreq (hu : Undisturbed s)
    (h : readAll hw (List.range (s.layout hw).nwords) (s.moveTo .read) = .next t) :
    Reaches (paced .read 0 s) (respondFreq hw t).refined := by
  have hwords := wf_nwords_le (wf_layout hw_wf s)
  have hframe := (readAll_frame h).1.toApply
  have hreads : Reaches (paced .read 0 s) (paced .read (BitVec.ofNat 3 (0 + (s.layout hw).nwords)) t) := by
    rw [List.range_eq_range'] at h
    exact reaches_readAll (s := s.moveTo .read) hu (Nat.zero_add _) h
  refine hreads.trans (.single ?_)
  rw [step_paced (Undisturbed.of_frame (s := s.moveTo .read) hu hframe), advance_read rfl, readTick, if_neg,
    respondFreq_paced]
  simp only [paced_layout, paced_seq, hframe.layout, moveTo_layout, BitVec.toNat_ofNat]
  omega

end

/-! ### The other commands

They look at neither FSM, SUB nor the granularity, and their answer sets FSM and SUB alike. -/

/-- The outcome with one bus transaction a step. -/
def refinedOutcome (o : Outcome) : Outcome := andThen o fun t => .next t.refined

section
variable (cfg : Config) (q : Fsm) (k : BitVec 3) (s : State)

theorem initCmd_paced (a b c : Word) : initCmd cfg a b c (paced q k s) = refinedOutcome (initCmd cfg a b c s) := by
  unfold initCmd
  rw [paced_handle, paced_grantAt]
  split_ifs
  · rfl
  · rfl
  · cases s.env.grantAt s.env.grantPos <;> rfl

theorem lookupCmd_paced (khz : Word) : lookupCmd cfg khz (paced q k s) = refinedOutcome (lookupCmd cfg khz s) := by
  unfold lookupCmd
  cases tableFind cfg.table khz <;> rfl

theorem searchCmd_paced (req : Word) : searchCmd cfg req (paced q k s) = refinedOutcome (searchCmd cfg req s) := by
  unfold searchCmd
  rw [paced_handle]
  split_ifs <;> rfl

theorem computeCmd_paced (req : Word) : computeCmd cfg req (paced q k s) = refinedOutcome (computeCmd cfg req s) := by
  unfold computeCmd
  rw [paced_handle, paced_layout]
  split_ifs
  · rfl
  · cases tableFind cfg.table req with
    | none => rfl
    | some e =>
      dsimp only
      split_ifs <;> rfl

theorem calcfreqCmd_paced (p : ClockParams) : calcfreqCmd cfg p (paced q k s) = refinedOutcome (calcfreqCmd cfg p s) := by
  unfold calcfreqCmd
  rw [paced_handle, paced_layout]
  split_ifs <;> rfl

theorem encodeCmd_paced (p : ClockParams) : encodeCmd cfg p (paced q k s) = refinedOutcome (encodeCmd cfg p s) := by
  unfold encodeCmd
  rw [paced_handle, paced_layout]
  split_ifs <;> rfl

theorem decodeCmd_paced (W : RegWords) : decodeCmd cfg W (paced q k s) = refinedOutcome (decodeCmd cfg W s) := by
  unfold decodeCmd
  rw [paced_handle, paced_layout]
  split_ifs <;> rfl

theorem teardownCmd_paced : teardownCmd (paced q k s) = refinedOutcome (teardownCmd s) := by
  unfold teardownCmd
  rw [paced_handle]
  split_ifs <;> rfl

end

/-! ### Every command -/

section
variable {i : Instr} {s t : State}

/-- A command that is over in one clock of EXEC (R30): its effect does not hang on how it came to EXEC. -/
theorem reaches_exec (hu : Undisturbed s) (hcmd : s.cmd.word = encode i) (h : exec i s = .next t)
    (hp : exec i (paced .exec 0 s) = refinedOutcome (exec i s)) : Reaches (paced .exec 0 s) t.refined := by
  refine .single ?_
  rw [step_paced hu, advance_exec rfl, paced_cmd, hcmd, runWord_encode, hp, h]
  rfl

/-- The first clock of an accepted command, and then the others. -/
theorem reaches_begin (hu : Undisturbed s) (hcmd : s.cmd = ⟨i.opcode, i.a, i.b, i.c⟩) (h : exec i s = .next t) :
    ∃ u, begin hw (encode i) s.refined = .next u ∧ Reaches u t.refined := by
  have hexec : exec i (paced .exec 0 s) = refinedOutcome (exec i s) → Reaches (paced .exec 0 s) t.refined :=
    reaches_exec hu (by rw [hcmd]; rfl) h
  simp only [begin, decode_encode]
  cases i with
  | init a b c => exact ⟨_, rfl, hexec (initCmd_paced ..)⟩
  | lookup a b c => exact ⟨_, rfl, hexec (lookupCmd_paced ..)⟩
  | search a b c => exact ⟨_, rfl, hexec (searchCmd_paced ..)⟩
  | compute a b c => exact ⟨_, rfl, hexec (computeCmd_paced ..)⟩
  | calcfreq a b c => exact ⟨_, rfl, hexec (calcfreqCmd_paced ..)⟩
  | encode a b c => exact ⟨_, rfl, hexec (encodeCmd_paced ..)⟩
  | decode a b c => exact ⟨_, rfl, hexec (decodeCmd_paced ..)⟩
  | teardown a b c => exact ⟨_, rfl, hexec (teardownCmd_paced ..)⟩
  | apply a b c =>
    have hparams : s.cmd.params = ⟨a, b, c⟩ := by rw [hcmd]; rfl
    have hrefusal : applyRefusal hw ⟨a, b, c⟩ s.refined = applyRefusal hw ⟨a, b, c⟩ s := rfl
    have hrun : applyCmd hw ⟨a, b, c⟩ s = .next t := h
    dsimp only
    rw [applyBegin, hrefusal]
    rcases applyCmd_cases hw ⟨a, b, c⟩ s with ⟨st, hst, he⟩ | ⟨hvalid, hfits, hzero, he⟩
    · rw [he] at hrun
      cases hrun
      exact ⟨_, by rw [hst]; rfl, .refl _⟩
    · rw [he, ← hparams] at hrun
      obtain ⟨u, hu', hr⟩ := reaches_applySequence hu hrun
      rw [applyRefusal_none hvalid hfits hzero, ← hparams]
      exact ⟨_, transition_paced hu', hr⟩
  | readfreq a b c =>
    have hrun : readfreqCmd hw s = .next t := h
    dsimp only
    rw [readBegin, refined_handle]
    rcases readfreqCmd_cases hw s with ⟨hvalid, he⟩ | ⟨hvalid, he⟩
    · rw [he] at hrun
      cases hrun
      exact ⟨_, if_pos (by simpa using hvalid), .refl _⟩
    · rw [he] at hrun
      obtain ⟨u, hread, hut⟩ := andThen_eq_next.1 hrun
      cases hut
      exact ⟨_, if_neg (by simpa using hvalid), reaches_readfreq (s := s) hu hread⟩

end

end Sys2Proof.Machine

open Sys2Proof Sys2Proof.Machine

/-- Settles O10: acceptance makes the first clock, and `reaches_begin` the others, up to the state of the whole command. -/
theorem fineStepsReachTheWholeCommandState : Obligations.FineStepsReachTheWholeCommandState := by
  intro i s t hq hhost hfine h
  rw [step_accept hq hhost, acceptAndRun, if_neg (by simp [hfine]), runWord_encode] at h
  have hcmd := congrArg State.cmd (accept_encode i (withHost [] (endPulse s)))
  obtain ⟨u, hu, hr⟩ := reaches_begin ⟨rfl, rfl⟩ hcmd h
  have hstep : step s.refined = .next u := by
    rw [step_accept (s := s.refined) hq hhost, acceptAndRun]
    exact (if_pos rfl).trans hu
  exact Reaches.head hstep hr
end

section
/-! The PLL target under one bus transaction (20_memory R61, R62, R64 to R68, R76, R77): what a read returns, what a write
stores, when ACTIVE takes the parameters, and how a transaction ends. -/

namespace Sys2Proof.Machine

/-! ### What a read returns -/

theorem read_readEffect (cfg : Config) (i : Nat) (s : State) :
    (readEffect cfg i s).seq.read.get i = s.readValue cfg i :=
  RegWords.get_set_same _ _ _

/-- A target read shows the stored bits outside `locked` (R66). -/
theorem getLsbD_value (L : Layout) (i : Nat) (draw : Bool) (t : PllTarget) {k : Nat} (h : ¬ Field.Holds L.locked i k) :
    (t.value L i draw).getLsbD k = (t.words.get i).getLsbD k := by
  unfold PllTarget.value
  split
  next hi => exact getLsbD_insert_outside _ _ _ _ fun hb => h ⟨hi.symm, hb⟩
  next => rfl

/-- A target read shows the draw in the bit `locked` (R66). -/
theorem getLsbD_value_locked {L : Layout} (hL : L.WF) (draw : Bool) (t : PllTarget) :
    (t.value L L.locked.word draw).getLsbD L.locked.off = draw := by
  have hwidth := wf_bit_width hL (locked_mem L)
  have hinside := (wf_inside hL (bit_mem_fields (locked_mem L))).2
  rw [PllTarget.value, if_pos rfl, getLsbD_insert _ _ _ _ (by omega), if_pos (by omega), Nat.sub_self]
  cases draw <;> rfl

/-! ### What a write stores -/

/-- The bit `locked` of a stored word is 0 (R64, R65). -/
theorem getLsbD_storedValue_locked {L : Layout} (hL : L.WF) (v : Word) :
    (storedValue L L.locked.word v).getLsbD L.locked.off = false := by
  have h := storedValue_locked hL v
  rw [extract_one_iff _ _ (wf_bit_width hL (locked_mem L))] at h
  by_contra hbit
  rw [Bool.not_eq_false] at hbit
  rw [hbit] at h
  exact absurd h (by decide)

/-- A word with no 1 in the place of `locked` is stored as it is. -/
theorem storedValue_self {L : Layout} (hL : L.WF) {i : Nat} {v : Word}
    (h : L.locked.word = i → v.getLsbD L.locked.off = false) : storedValue L i v = v := by
  unfold storedValue
  split
  next hi =>
    have hzero : extract v L.locked = 0 := by
      rw [extract_one_iff _ _ (wf_bit_width hL (locked_mem L)), h hi.symm]; rfl
    rw [← hzero, insert_extract_self]
  next => rfl

/-! ### The commit event (R67) -/

/-- The edge at which ACTIVE takes the parameters, between two contents of the register (R67). -/
def Commits (L : Layout) (V W : RegWords) : Prop :=
  match L.setParam with
  | some f => readField V f = 0 ∧ readField W f = 1
  | none => readField V L.powerdown = 1 ∧ readField W L.powerdown = 0

/-- Setting one word moves a field from `x` to `y` exactly when the field lies in that word and moves so there. -/
theorem readField_set_edge {i : Nat} {f : Field} (hi : i < 2) (hf : f.word < 2) (W : RegWords) (v : Word) {x y : Word}
    (hxy : x ≠ y) :
    readField W f = x ∧ readField (W.set i v) f = y ↔ i = f.word ∧ extract (W.get i) f = x ∧ extract v f = y := by
  unfold readField
  by_cases h : i = f.word
  · rw [← h, RegWords.get_set_same]; simp
  · rw [RegWords.get_set_other _ _ _ _ hi hf (Ne.symm h)]
    exact ⟨fun ⟨hx, hy⟩ => absurd (hx.symm.trans hy) hxy, fun hw => absurd hw.1 h⟩

/-- The commit event of a write to one word is the edge of the whole register. -/
theorem commitEvent_iff {L : Layout} (hL : L.WF) {i : Nat} (hi : i < L.nwords) (W : RegWords) (v : Word) :
    commitEvent L i (W.get i) v = true ↔ Commits L W (W.set i v) := by
  have hi' := Nat.lt_of_lt_of_le hi (wf_nwords_le hL)
  unfold commitEvent Commits
  cases hs : L.setParam with
  | some f =>
    have hf := wf_word_lt hL (bit_mem_fields (setParam_mem hs))
    simp only [Bool.and_eq_true, beq_iff_eq, and_assoc]
    exact (readField_set_edge hi' hf W v (by decide)).symm
  | none =>
    have hf := wf_word_lt hL (bit_mem_fields (powerdown_mem L))
    simp only [Bool.and_eq_true, beq_iff_eq, and_assoc]
    exact (readField_set_edge hi' hf W v (by decide)).symm

/-- At the edge ACTIVE takes the parameter fields of the new register. -/
theorem write_active_of_commits {L : Layout} (hL : L.WF) {i : Nat} (hi : i < L.nwords) {v : Word} {t : PllTarget}
    (h : Commits L t.words (t.write L i v).words) :
    (t.write L i v).active = some (decodeParams L (t.write L i v).words) :=
  if_pos ((commitEvent_iff hL hi _ _).2 h)

/-- With no edge ACTIVE stays. -/
theorem write_active_of_not_commits {L : Layout} (hL : L.WF) {i : Nat} (hi : i < L.nwords) {v : Word} {t : PllTarget}
    (h : ¬ Commits L t.words (t.write L i v).words) : (t.write L i v).active = t.active :=
  if_neg fun he => h ((commitEvent_iff hL hi _ _).1 he)

/-- Writing back what is stored changes nothing (R68). -/
theorem write_self {L : Layout} {i : Nat} {v : Word} {t : PllTarget} (h : storedValue L i v = t.words.get i) :
    t.write L i v = t := by
  rw [PllTarget.write, h, commitEvent_self, RegWords.set_get_self]
  rfl

theorem readField_eq_zero_iff {f : Field} (h : f.width = 1) (W : RegWords) :
    readField W f = 0 ↔ (W.get f.word).getLsbD f.off = false := by
  rw [readField, extract_one_iff _ _ h]
  cases (W.get f.word).getLsbD f.off <;> decide

theorem readField_eq_one_iff {f : Field} (h : f.width = 1) (W : RegWords) :
    readField W f = 1 ↔ (W.get f.word).getLsbD f.off = true := by
  rw [readField, extract_one_iff _ _ h]
  cases (W.get f.word).getLsbD f.off <;> decide

/-! ### How a transaction ends -/

theorem busTransaction_pastTop {i : Nat} {s : State} (h : 2 ^ 32 ≤ s.handle.base.toNat + 4 * i) (act : State → State) :
    busTransaction i act s = .refused .windowPastTop := by
  have hout : s.inAddressSpace i = false := decide_eq_false (Nat.not_lt.2 h)
  rw [busTransaction, hout]
  rfl

theorem busTransaction_dead {i n : Nat} {s : State} (h : s.handle.base.toNat + 4 * i < 2 ^ 32)
    (hn : s.env.busLimit = some n) (hle : n ≤ s.env.busCount) (act : State → State) :
    busTransaction i act s = .fault .busNeverAcknowledges := by
  have hin : s.inAddressSpace i = true := decide_eq_true h
  have hdead : s.env.busDead = true := by rw [Env.busDead, hn]; exact decide_eq_true hle
  rw [busTransaction, hin, hdead]
  rfl

theorem busTransaction_alive {i : Nat} {s : State} (h : s.handle.base.toNat + 4 * i < 2 ^ 32)
    (hn : ∀ n, s.env.busLimit = some n → s.env.busCount < n) (act : State → State) :
    busTransaction i act s = .next (act s.counted) := by
  have hin : s.inAddressSpace i = true := decide_eq_true h
  have halive : s.env.busDead = false := by
    unfold Env.busDead
    split
    next => rfl
    next n hl => exact decide_eq_false (Nat.not_le.2 (hn n hl))
  rw [busTransaction, hin, halive]
  rfl

end Sys2Proof.Machine

open Sys2Proof Sys2Proof.Machine

/-- Settles O11: a completed read holds `readValue`, whose bits are the target's but for `locked`. -/
theorem regReadReturnsTheStoredWordAndTheDraw : Obligations.RegReadReturnsTheStoredWordAndTheDraw := by
  intro cfg i s t hcfg _ h
  rw [busRead_eq_next h, read_readEffect, counted_readValue]
  refine ⟨rfl, fun k hk => getLsbD_value _ _ _ _ hk, fun hi => ?_, rfl⟩
  subst hi
  exact getLsbD_value_locked (wf_layout hcfg s) _ _

/-- Settles O12: a completed write replaces one word by the stored form of the value. -/
theorem regWriteStoresAllButLocked : Obligations.RegWriteStoresAllButLocked := by
  intro cfg i j v s t hcfg hi hj h
  have hL := wf_layout hcfg s
  have hwords : t.pll.words = s.pll.words.set i (storedValue (s.layout cfg) i v) := by
    rw [busWrite_eq_next h]; rfl
  rw [hwords, RegWords.get_set_same]
  refine ⟨fun k hk => getLsbD_storedValue _ _ _ _ hk, fun hlocked => ?_, fun hji => ?_, ?_⟩
  · subst hlocked
    exact getLsbD_storedValue_locked hL v
  · have hn := wf_nwords_le hL
    exact RegWords.get_set_other _ _ _ _ (by omega) (by omega) hji
  · rw [busWrite_eq_next h]; rfl

/-- Settles O13: the statement's event is the edge `Commits`, read bit by bit. -/
theorem activeChangesOnlyAtTheCommitEvent : Obligations.ActiveChangesOnlyAtTheCommitEvent := by
  intro cfg i v s t hcfg hi h L bit event
  have hL : L.WF := wf_layout hcfg s
  have hpll : t.pll = s.pll.write L i v := by rw [busWrite_eq_next h]; rfl
  have hevent : event ↔ Commits L s.pll.words t.pll.words := by
    dsimp only [event, bit]
    unfold Commits
    cases hs : L.setParam with
    | some f =>
      have hwidth := wf_bit_width hL (setParam_mem hs)
      exact (and_congr (readField_eq_zero_iff hwidth _) (readField_eq_one_iff hwidth _)).symm
    | none =>
      have hwidth := wf_bit_width hL (powerdown_mem L)
      exact (and_congr (readField_eq_one_iff hwidth _) (readField_eq_zero_iff hwidth _)).symm
  rw [hevent, hpll]
  refine ⟨write_active_of_commits hL hi, write_active_of_not_commits hL hi, fun hv hlocked => ?_⟩
  exact write_self ((storedValue_self hL hlocked).trans hv)

/-- Settles O14: the three ways a transaction ends, for a read and a write alike. -/
theorem busTransactionsCompleteOrStopByName : Obligations.BusTransactionsCompleteOrStopByName := by
  intro cfg i v s
  refine ⟨fun htop => ⟨busTransaction_pastTop htop _, busTransaction_pastTop htop _⟩, fun hin => ⟨?_, fun halive => ?_⟩⟩
  · intro n hn hle
    exact ⟨busTransaction_dead hin hn hle _, busTransaction_dead hin hn hle _⟩
  · exact ⟨_, _, busTransaction_alive hin halive _, busTransaction_alive hin halive _, rfl, rfl⟩
end

section
/-! The reference table (20_memory R72) as LOOKUP and COMPUTE use it. -/

namespace Sys2Proof.Machine

theorem lookupCmd_hit {cfg : Config} {khz : Word} {e : TableEntry} (h : tableFind cfg.table khz = some e) (s : State) :
    lookupCmd cfg khz s = respondHit e.params s := by
  rw [lookupCmd, h]

theorem lookupCmd_miss {cfg : Config} {khz : Word} (h : tableFind cfg.table khz = none) (s : State) :
    lookupCmd cfg khz s = raise .noExactMatch s := by
  rw [lookupCmd, h]

/-- A hit that fits the variant is what COMPUTE answers (R141). -/
theorem computeCmd_hit {cfg : Config} {khz : Word} {e : TableEntry} {s : State} (hvalid : s.handle.valid = true)
    (h : tableFind cfg.table khz = some e) (hfits : fits (s.layout cfg) e.params = true) :
    computeCmd cfg khz s = respondHit e.params s := by
  rw [computeCmd, hvalid, h]
  exact if_pos hfits

theorem hw_tableFind_148500 : tableFind hw.table 148500 = some ⟨148500, 1920, 1080, 60, 11, 49, 3⟩ := rfl

theorem hw_tableFind_25175 : tableFind hw.table 25175 = some ⟨25175, 640, 480, 60, 85, 107, 5⟩ := rfl

theorem hw_tableFind_none {khz : Word} (h1 : khz ≠ 148500) (h2 : khz ≠ 25175) : tableFind hw.table khz = none := by
  simpa [tableFind, hw, referenceTable] using ⟨Ne.symm h1, Ne.symm h2⟩

end Sys2Proof.Machine

open Sys2Proof Sys2Proof.Machine

/-- Settles O17: the table's two clocks, and every other. -/
theorem lookupOfTheReferenceTable : Obligations.LookupOfTheReferenceTable := by
  intro a b c s
  exact ⟨lookupCmd_hit hw_tableFind_148500 s, lookupCmd_hit hw_tableFind_25175 s,
    fun h1 h2 => lookupCmd_miss (hw_tableFind_none h1 h2) s⟩

/-- Settles O25: the first entry fits every variant, the second variants 0 and 2. -/
theorem computeAnswersAFittingTableHit : Obligations.ComputeAnswersAFittingTableHit := by
  intro b c s hvalid
  have hfirst : ∀ v : BitVec 2, fits (hw.variant v).layout ⟨3, 49, 11⟩ = true := by decide
  have hsecond : ∀ v : BitVec 2, v = 0 ∨ v = 2 → fits (hw.variant v).layout ⟨5, 107, 85⟩ = true := by decide
  exact ⟨computeCmd_hit hvalid hw_tableFind_148500 (hfirst _),
    fun hv => computeCmd_hit hvalid hw_tableFind_25175 (hsecond _ hv)⟩
end

section
/-! A whole APPLY on the PLL target (43_programmer R189, R192): its read-modify-writes as one list, and what the register
and ACTIVE hold after them, whatever the lock draws were. -/

namespace Sys2Proof.Machine

/-! ### A read-modify-write as a function of the target -/

/-- The target after a read-modify-write: the draw that its read shows in `locked` does not matter (R65, R66). -/
def Rmw.onTarget (L : Layout) (t : PllTarget) (r : Rmw) : PllTarget := t.write L r.word (r.edit (t.words.get r.word))

theorem onTarget_words (L : Layout) (t : PllTarget) (r : Rmw) :
    (r.onTarget L t).words = t.words.set r.word (storedValue L r.word (r.edit (t.words.get r.word))) := rfl

/-- The edit works bit by bit. -/
theorem getLsbD_edit_congr (r : Rmw) {w u : Word} {k : Nat} (hk : k < 32) (h : w.getLsbD k = u.getLsbD k) :
    (r.edit w).getLsbD k = (r.edit u).getLsbD k := by
  unfold Rmw.edit
  induction r.edits generalizing w u with
  | nil => exact h
  | cons e es ih =>
    apply ih
    rw [getLsbD_insert _ _ _ _ hk, getLsbD_insert _ _ _ _ hk, h]

theorem getLsbD_edit_outside (r : Rmw) {k : Nat} (w : Word)
    (h : ∀ e ∈ r.edits, ¬ (e.1.off ≤ k ∧ k < e.1.off + e.1.width)) : (r.edit w).getLsbD k = w.getLsbD k := by
  unfold Rmw.edit
  revert h
  induction r.edits generalizing w with
  | nil => intro _; rfl
  | cons e es ih =>
    intro h
    rw [List.foldl_cons, ih _ fun x hx => h x (List.mem_cons_of_mem _ hx)]
    exact getLsbD_insert_outside _ _ _ _ (h e List.mem_cons_self)

/-- Words that are stored alike are stored alike after the same edit. -/
theorem storedValue_edit_congr {L : Layout} {i : Nat} {w u : Word} (r : Rmw) (h : storedValue L i w = storedValue L i u) :
    storedValue L i (r.edit w) = storedValue L i (r.edit u) := by
  apply BitVec.eq_of_getLsbD_eq
  intro k hk
  by_cases hlocked : Field.Holds L.locked i k
  · obtain ⟨hi, hbit⟩ := hlocked
    rw [storedValue, storedValue, if_pos hi.symm, if_pos hi.symm, getLsbD_insert _ _ _ _ hk, if_pos hbit,
      getLsbD_insert _ _ _ _ hk, if_pos hbit]
  · rw [getLsbD_storedValue _ _ _ _ hlocked, getLsbD_storedValue _ _ _ _ hlocked]
    apply getLsbD_edit_congr r hk
    rw [← getLsbD_storedValue L i w k hlocked, h, getLsbD_storedValue _ _ _ _ hlocked]

theorem write_congr {L : Layout} {i : Nat} {v v' : Word} (h : storedValue L i v = storedValue L i v') (t : PllTarget) :
    t.write L i v = t.write L i v' := by
  rw [PllTarget.write, PllTarget.write, h]

section
variable {cfg : Config} {s t : State}

theorem runRmw_target {r : Rmw} (h : runRmw cfg r s = .next t) : t.pll = r.onTarget (s.layout cfg) s.pll := by
  rw [(runRmw_eq_next h).1]
  exact write_congr (storedValue_edit_congr r (storedValue_readValue cfg s r.word)) _

theorem runRmws_target {rs : List Rmw} (h : runRmws cfg rs s = .next t) :
    t.pll = rs.foldl (Rmw.onTarget (s.layout cfg)) s.pll := by
  induction rs generalizing s with
  | nil => cases h; rfl
  | cons r rs ih =>
    obtain ⟨u, hu, ht⟩ := andThen_eq_next.1 h
    rw [ih ht, (runRmw_frame hu).layout, runRmw_target hu, List.foldl_cons]

theorem transitions_target {p : ClockParams} {qs : List Fsm} (h : transitions cfg p qs s = .next t) :
    t.pll = (qs.flatMap (transitionRmws (s.layout cfg) p)).foldl (Rmw.onTarget (s.layout cfg)) s.pll := by
  induction qs generalizing s with
  | nil => cases h; rfl
  | cons q qs ih =>
    obtain ⟨u, hu, ht⟩ := andThen_eq_next.1 h
    obtain ⟨v, hv, hframe, hpll, -⟩ := transition_eq_next hu
    rw [ih ht, hframe.layout, hpll, runRmws_target hv, List.flatMap_cons, List.foldl_append]

end

/-- The read-modify-writes of a whole APPLY, in order (R175 to R185). -/
def protocolRmws (L : Layout) (p : ClockParams) : List Rmw := (firstSteps ++ lastSteps).flatMap (transitionRmws L p)

/-- The target after a completed APPLY sequence is the fold of its read-modify-writes; the wait does not touch it. -/
theorem applySequence_target {cfg : Config} (hc : cfg.WF) {p : ClockParams} {s t : State}
    (h : applySequence cfg p s = .next t) :
    t.pll = (protocolRmws (s.layout cfg) p).foldl (Rmw.onTarget (s.layout cfg)) s.pll := by
  obtain ⟨s1, s2, s3, s4, h1, h2, h3, h4, rfl⟩ := applySequence_eq_next h
  obtain ⟨f1, -⟩ := transitions_frame h1 (by decide)
  obtain ⟨f2, hpll2, -, hseq2, -⟩ := settle_eq_next h2
  obtain ⟨f3, hpll3, -⟩ := pollWait_eq_next hc h3 (by rw [hseq2]; rfl) (by decide) (by rw [hseq2])
  have hlayout : s3.layout cfg = s.layout cfg := ((f1.trans f2).trans f3).layout cfg
  rw [complete_pll, transitions_target h4, hlayout, hpll3, hpll2, transitions_target h1, protocolRmws,
    List.flatMap_append, List.foldl_append]
  rfl

/-! ### A list of read-modify-writes on the target -/

/-- The fields a list of read-modify-writes replaces, with their values. -/
def writes (rs : List Rmw) : List (Field × Word) := rs.flatMap Rmw.edits

@[simp] theorem writes_nil : writes [] = [] := rfl

@[simp] theorem writes_cons (r : Rmw) (rs : List Rmw) : writes (r :: rs) = r.edits ++ writes rs := rfl

@[simp] theorem writes_append (rs qs : List Rmw) : writes (rs ++ qs) = writes rs ++ writes qs := List.flatMap_append

@[simp] theorem edits_setBit (f : Field) (v : Word) : (setBit f v).edits = [(f, v)] := rfl

@[simp] theorem writes_setOptBit (o : Option Field) (v : Word) : writes (setOptBit o v) = optEdits o v := by
  cases o <;> rfl

/-- Staging writes the parameters and nothing else (R178). -/
theorem mem_writes_stageRmws {L : Layout} (hL : L.WF) {p : ClockParams} {e : Field × Word} :
    e ∈ writes (stageRmws L p) ↔ e ∈ paramEdits L p := by
  refine ⟨fun h => ?_, fun h => List.mem_flatMap.2 (exists_stageRmws hL h)⟩
  obtain ⟨r, hr, he⟩ := List.mem_flatMap.1 h
  rw [(mem_stageRmws hr).2] at he
  exact List.mem_of_mem_filter he

section
variable {L : Layout} {rs : List Rmw} (hL : L.WF) (hrs : ∀ r ∈ rs, r.Proper L)
include hL hrs

/-- A present field that is not written stays, `locked` apart. -/
theorem readField_rmws_other {g : Field} (hg : g ∈ L.fields) (hlocked : g ≠ L.locked) (hn : ∀ e ∈ writes rs, e.1 ≠ g)
    (t : PllTarget) : readField (rs.foldl (Rmw.onTarget L) t).words g = readField t.words g := by
  induction rs generalizing t with
  | nil => rfl
  | cons r rs ih =>
    simp only [writes_cons, List.mem_append] at hn
    have hr : g ∉ r.fields := fun h => by
      obtain ⟨e, he, heg⟩ := List.mem_map.1 h
      exact hn e (Or.inl he) heg
    rw [List.foldl_cons, ih (fun x hx => hrs x (List.mem_cons_of_mem _ hx)) (fun e he => hn e (Or.inr he)), onTarget_words,
      readField_rmw_other hL (hrs r List.mem_cons_self) hg hlocked hr rfl]

/-- Where no field is written with two values, every field ends with the value written. -/
theorem holds_writes (hone : ∀ e ∈ writes rs, ∀ e' ∈ writes rs, e'.1 = e.1 → e' = e) (t : PllTarget) :
    Holds (rs.foldl (Rmw.onTarget L) t).words (writes rs) := by
  induction rs generalizing t with
  | nil => exact holds_nil _
  | cons r rs ih =>
    have hr := hrs r List.mem_cons_self
    have hrest : ∀ x ∈ rs, x.Proper L := fun x hx => hrs x (List.mem_cons_of_mem _ hx)
    simp only [writes_cons, List.mem_append] at hone
    have hlater := ih hrest (fun e he e' he' => hone e (Or.inr he) e' (Or.inr he')) (r.onTarget L t)
    rw [writes_cons, holds_append, List.foldl_cons]
    refine ⟨fun e he => ?_, hlater⟩
    by_cases hagain : e ∈ writes rs
    · exact hlater e hagain
    · obtain ⟨hf, hlocked, -⟩ := hr.field e he
      have hn : ∀ e' ∈ writes rs, e'.1 ≠ e.1 := fun e' he' heq =>
        hagain (hone e (Or.inl he) e' (Or.inr he') heq ▸ he')
      rw [readField_rmws_other hL hrest hf hlocked hn, onTarget_words]
      exact readField_rmw_same hL hr he _ _

/-- A reserved bit stays (R109, R178). -/
theorem getLsbD_rmws_reserved {i k : Nat} (hi : i < L.nwords) (hres : L.Reserved i k) (t : PllTarget) :
    ((rs.foldl (Rmw.onTarget L) t).words.get i).getLsbD k = (t.words.get i).getLsbD k := by
  induction rs generalizing t with
  | nil => rfl
  | cons r rs ih =>
    obtain ⟨hword, hfield, -⟩ := hrs r List.mem_cons_self
    have hn := wf_nwords_le hL
    rw [List.foldl_cons, ih fun x hx => hrs x (List.mem_cons_of_mem _ hx), onTarget_words]
    by_cases hir : i = r.word
    · subst hir
      rw [RegWords.get_set_same, getLsbD_storedValue _ _ _ _ (hres _ (bit_mem_fields (locked_mem L))),
        getLsbD_edit_outside]
      intro e he hb
      obtain ⟨hf, -, hew⟩ := hfield e he
      exact hres e.1 hf ⟨hew, hb⟩
    · rw [RegWords.get_set_other _ _ _ _ (by omega) (by omega) hir]

end

/-! ### ACTIVE under read-modify-writes (R67) -/

/-- The write that can commit: `set_param` to 1 where the layout has it, else `powerdown` to 0 (R67). -/
def commitBit (L : Layout) : Field × Word :=
  match L.setParam with
  | some f => (f, 1)
  | none => (L.powerdown, 0)

theorem commitBit_field {L : Layout} (hL : L.WF) : (commitBit L).1 ∈ L.bitFields ∧ (commitBit L).1 ≠ L.locked := by
  unfold commitBit
  cases hs : L.setParam with
  | some f => exact setParam_bit hL f hs
  | none => exact ⟨powerdown_mem L, (wf_bitsDistinct hL).powerdown_locked⟩

/-- The register is one write of `commitBit` away from the commit event. -/
def Armed (L : Layout) (W : RegWords) : Prop :=
  match L.setParam with
  | some f => readField W f = 0
  | none => readField W L.powerdown = 1

theorem Armed.commits {L : Layout} {V W : RegWords} (h : Armed L V) (hW : readField W (commitBit L).1 = (commitBit L).2) :
    Commits L V W := by
  unfold Armed at h
  unfold commitBit at hW
  unfold Commits
  cases hs : L.setParam <;> rw [hs] at h hW <;> exact ⟨h, hW⟩

/-- At the edge the field of `commitBit` changes, to the value of `commitBit`. -/
theorem Commits.edge {L : Layout} {V W : RegWords} (h : Commits L V W) :
    readField W (commitBit L).1 = (commitBit L).2 ∧ readField W (commitBit L).1 ≠ readField V (commitBit L).1 := by
  unfold Commits at h
  unfold commitBit
  cases hs : L.setParam with
  | some f => rw [hs] at h; exact ⟨h.2, by rw [h.1, h.2]; decide⟩
  | none => rw [hs] at h; exact ⟨h.2, by rw [h.1, h.2]; decide⟩

section
variable {L : Layout} (hL : L.WF)
include hL

/-- A read-modify-write that does not write `commitBit` makes no commit event. -/
theorem not_commits_of_not_mem {r : Rmw} (hr : r.Proper L) (h : commitBit L ∉ r.edits) (t : PllTarget) :
    ¬ Commits L t.words (r.onTarget L t).words := by
  intro hcommits
  obtain ⟨hvalue, hchange⟩ := hcommits.edge
  obtain ⟨hbit, hlocked⟩ := commitBit_field hL
  rw [onTarget_words] at hvalue hchange
  by_cases hf : (commitBit L).1 ∈ r.fields
  · obtain ⟨e, he, hef⟩ := List.mem_map.1 hf
    rw [← hef, readField_rmw_same hL hr he] at hvalue
    exact h (Prod.ext hef hvalue ▸ he)
  · exact hchange (readField_rmw_other hL hr (bit_mem_fields hbit) hlocked hf rfl)

theorem active_rmws_of_not_mem {rs : List Rmw} (hrs : ∀ r ∈ rs, r.Proper L) (h : commitBit L ∉ writes rs) (t : PllTarget) :
    (rs.foldl (Rmw.onTarget L) t).active = t.active := by
  induction rs generalizing t with
  | nil => rfl
  | cons r rs ih =>
    rw [writes_cons, List.mem_append, not_or] at h
    have hr := hrs r List.mem_cons_self
    rw [List.foldl_cons, ih (fun x hx => hrs x (List.mem_cons_of_mem _ hx)) h.2]
    exact write_active_of_not_commits hL hr.word (not_commits_of_not_mem hL hr h.1 t)

end

/-! ### The protocol in three parts -/

/-- Steps 1 to 4: bypass, deselect, power down, stage (R175 to R178). -/
def stagingRmws (L : Layout) (p : ClockParams) : List Rmw :=
  setBit L.bypass 1 :: (setOptBit L.selOut 0 ++ setBit L.powerdown 1 :: stageRmws L p)

/-- From the second half of step 5 on: `set_param` back to 0, power up, select, end the bypass (R179, R180, R184, R185). -/
def finishingRmws (L : Layout) : List Rmw :=
  setOptBit L.setParam 0 ++ setBit L.powerdown 0 :: (setOptBit L.selOut 1 ++ [setBit L.bypass 0])

theorem protocolRmws_eq (L : Layout) (p : ClockParams) :
    protocolRmws L p = stagingRmws L p ++ (setOptBit L.setParam 1 ++ finishingRmws L) := by
  simp [protocolRmws, firstSteps, lastSteps, transitionRmws, stagingRmws, finishingRmws]

theorem proper_protocolRmws {L : Layout} (hL : L.WF) {p : ClockParams} (hp : fits L p = true) :
    ∀ r ∈ protocolRmws L p, r.Proper L := by
  intro r hr
  obtain ⟨q, -, hq⟩ := List.mem_flatMap.1 hr
  exact proper_transitionRmws hL hp hq

theorem mem_writes_stagingRmws {L : Layout} (hL : L.WF) {p : ClockParams} {e : Field × Word} :
    e ∈ writes (stagingRmws L p) ↔
      e = (L.bypass, 1) ∨ (L.selOut = some e.1 ∧ e.2 = 0) ∨ e = (L.powerdown, 1) ∨ e ∈ paramEdits L p := by
  simp [stagingRmws, mem_writes_stageRmws hL, mem_optEdits]

theorem mem_writes_finishingRmws {L : Layout} {e : Field × Word} :
    e ∈ writes (finishingRmws L) ↔
      (L.setParam = some e.1 ∧ e.2 = 0) ∨ e = (L.powerdown, 0) ∨ (L.selOut = some e.1 ∧ e.2 = 1) ∨ e = (L.bypass, 0) := by
  simp [finishingRmws, mem_optEdits]

/-- The parameters are staged in three different fields. -/
theorem paramEdits_inj {L : Layout} (hL : L.WF) {p : ClockParams} {e e' : Field × Word} (he : e ∈ paramEdits L p)
    (he' : e' ∈ paramEdits L p) (h : e'.1 = e.1) : e' = e := by
  obtain ⟨h1, h2, h3⟩ := wf_params_ne hL
  simp only [paramEdits, List.mem_cons, List.not_mem_nil, or_false] at he he'
  grind

section
variable {L : Layout} (hL : L.WF) {p : ClockParams}
include hL

theorem writes_stagingRmws_inj : ∀ e ∈ writes (stagingRmws L p), ∀ e' ∈ writes (stagingRmws L p), e'.1 = e.1 → e' = e := by
  intro e he e' he' h
  obtain ⟨-, -, hbp, hsel, -, -⟩ := wf_bitsDistinct hL
  have hb := paramEdits_ne_bit (p := p) hL (bypass_mem L)
  have hp := paramEdits_ne_bit (p := p) hL (powerdown_mem L)
  have hs : ∀ f, L.selOut = some f → ∀ x ∈ paramEdits L p, x.1 ≠ f := fun f hf => paramEdits_ne_bit hL (selOut_mem hf)
  rw [mem_writes_stagingRmws hL] at he he'
  by_cases hparam : e ∈ paramEdits L p ∧ e' ∈ paramEdits L p
  · exact paramEdits_inj hL hparam.1 hparam.2 h
  · grind

theorem writes_finishingRmws_inj : ∀ e ∈ writes (finishingRmws L), ∀ e' ∈ writes (finishingRmws L), e'.1 = e.1 → e' = e := by
  intro e he e' he' h
  obtain ⟨-, -, hbp, hsel, hset, hss⟩ := wf_bitsDistinct hL
  rw [mem_writes_finishingRmws] at he he'
  grind

/-- After staging no parameter is written. -/
theorem finishing_ne_param {g : Field} (hg : g ∈ L.paramFields) :
    ∀ e ∈ writes (setOptBit L.setParam 1 ++ finishingRmws L), e.1 ≠ g := by
  intro e he heg
  have hbit : e.1 ∈ L.bitFields := by
    rw [writes_append, writes_setOptBit, List.mem_append, mem_optEdits, mem_writes_finishingRmws] at he
    rcases he with ⟨hs, -⟩ | ⟨hs, -⟩ | rfl | ⟨hs, -⟩ | rfl
    · exact setParam_mem hs
    · exact setParam_mem hs
    · exact powerdown_mem L
    · exact selOut_mem hs
    · exact bypass_mem L
  exact param_ne_bit hL hg hbit heg.symm

end

/-- Whatever the layout, the committing write comes first after staging, and only once (R179, R180). -/
theorem exists_commit_first {L : Layout} (hL : L.WF) :
    ∃ after, setOptBit L.setParam 1 ++ finishingRmws L = setBit (commitBit L).1 (commitBit L).2 :: after ∧
      commitBit L ∉ writes after := by
  obtain ⟨-, -, hbp, hsel, hset, hss⟩ := wf_bitsDistinct hL
  unfold commitBit
  cases hs : L.setParam with
  | some f =>
    refine ⟨finishingRmws L, rfl, fun h => ?_⟩
    rw [mem_writes_finishingRmws] at h
    grind
  | none =>
    refine ⟨setOptBit L.selOut 1 ++ [setBit L.bypass 0], by rw [finishingRmws, hs]; rfl, fun h => ?_⟩
    simp only [writes_append, writes_setOptBit, writes_cons, writes_nil, edits_setBit, List.mem_append,
      mem_optEdits, List.mem_singleton, List.not_mem_nil, or_false] at h
    grind

/-! ### What an APPLY makes of the target (R192) -/

/-- The target `t` holds the triple as R192 says, after an APPLY that began on `before`. -/
structure Programmed (L : Layout) (p : ClockParams) (before t : PllTarget) : Prop where
  params : decodeParams L t.words = p
  bypass : readField t.words L.bypass = 0
  powerdown : readField t.words L.powerdown = 0
  selOut : ∀ f, L.selOut = some f → readField t.words f = 1
  setParam : ∀ f, L.setParam = some f → readField t.words f = 0
  reserved : ∀ i k, i < L.nwords → L.Reserved i k → (t.words.get i).getLsbD k = (before.words.get i).getLsbD k
  active : (∀ f, L.setParam = some f → readField before.words f = 0) → t.active = some p

section
variable {L : Layout} (hL : L.WF) {p : ClockParams} (hp : fits L p = true) (t : PllTarget)
include hL hp

theorem proper_stagingRmws : ∀ r ∈ stagingRmws L p, r.Proper L := fun r hr =>
  proper_protocolRmws hL hp r (by rw [protocolRmws_eq]; exact List.mem_append_left _ hr)

theorem proper_after_staging : ∀ r ∈ setOptBit L.setParam 1 ++ finishingRmws L, r.Proper L := fun r hr =>
  proper_protocolRmws hL hp r (by rw [protocolRmws_eq]; exact List.mem_append_right _ hr)

theorem proper_finishingRmws : ∀ r ∈ finishingRmws L, r.Proper L := fun r hr =>
  proper_after_staging hL hp r (List.mem_append_right _ hr)

theorem holds_staged : Holds ((stagingRmws L p).foldl (Rmw.onTarget L) t).words (writes (stagingRmws L p)) :=
  holds_writes hL (proper_stagingRmws hL hp) (writes_stagingRmws_inj hL) t

theorem params_staged : decodeParams L ((stagingRmws L p).foldl (Rmw.onTarget L) t).words = p := by
  rw [← holds_paramEdits]
  intro e he
  exact holds_staged hL hp t e ((mem_writes_stagingRmws hL).2 (Or.inr (Or.inr (Or.inr he))))

/-- Staging does not touch `set_param`. -/
theorem setParam_staged {f : Field} (hs : L.setParam = some f) :
    readField ((stagingRmws L p).foldl (Rmw.onTarget L) t).words f = readField t.words f := by
  obtain ⟨hbit, hlocked⟩ := setParam_bit hL f hs
  obtain ⟨-, -, -, hsel, hset, hss⟩ := wf_bitsDistinct hL
  refine readField_rmws_other hL (proper_stagingRmws hL hp) (bit_mem_fields hbit) hlocked (fun e he => ?_) t
  have hparam := paramEdits_ne_bit (p := p) hL hbit
  rw [mem_writes_stagingRmws hL] at he
  grind

/-- What is written after staging does not move a parameter. -/
theorem params_after_staging {rs : List Rmw} (hrs : ∀ r ∈ rs, r ∈ setOptBit L.setParam 1 ++ finishingRmws L) :
    decodeParams L (rs.foldl (Rmw.onTarget L) t).words = decodeParams L t.words := by
  have hstay : ∀ g ∈ L.paramFields, readField (rs.foldl (Rmw.onTarget L) t).words g = readField t.words g := by
    intro g hg
    refine readField_rmws_other hL (fun r hr => proper_after_staging hL hp r (hrs r hr)) (param_mem_fields hg)
      (param_ne_locked hL hg) (fun e he => ?_) t
    obtain ⟨r, hr, her⟩ := List.mem_flatMap.1 he
    exact finishing_ne_param hL hg e (List.mem_flatMap.2 ⟨r, hrs r hr, her⟩)
  rw [decodeParams, hstay _ (divRef_mem L), hstay _ (loopc_mem L), hstay _ (divOut_mem L), decodeParams]

/-- From an armed register the rest of the protocol commits its parameter fields (R179, R180, R67). -/
theorem active_after_staging (h : Armed L t.words) :
    ((setOptBit L.setParam 1 ++ finishingRmws L).foldl (Rmw.onTarget L) t).active = some (decodeParams L t.words) := by
  obtain ⟨after, hsplit, hafter⟩ := exists_commit_first hL
  have hproper := proper_after_staging hL hp
  rw [hsplit] at hproper
  have hfirst := hproper _ List.mem_cons_self
  have hrest : ∀ r ∈ after, r.Proper L := fun r hr => hproper r (List.mem_cons_of_mem _ hr)
  have hvalue := readField_rmw_same hL hfirst (e := commitBit L) List.mem_cons_self t.words
  have hparams := params_after_staging hL hp t (rs := [setBit (commitBit L).1 (commitBit L).2]) fun r hr => by
    rw [hsplit, List.mem_singleton.1 hr]; exact List.mem_cons_self
  rw [hsplit, List.foldl_cons, active_rmws_of_not_mem hL hrest hafter, ← hparams]
  exact write_active_of_commits hL hfirst.word (h.commits (hvalue _))

theorem programmed_protocol : Programmed L p t ((protocolRmws L p).foldl (Rmw.onTarget L) t) := by
  have hfinal : Holds ((protocolRmws L p).foldl (Rmw.onTarget L) t).words (writes (finishingRmws L)) := by
    rw [protocolRmws_eq, List.foldl_append, List.foldl_append]
    exact holds_writes hL (proper_finishingRmws hL hp) (writes_finishingRmws_inj hL) _
  have hfield : ∀ f v, (f, v) ∈ writes (finishingRmws L) →
      readField ((protocolRmws L p).foldl (Rmw.onTarget L) t).words f = v := fun f v h => hfinal (f, v) h
  simp only [mem_writes_finishingRmws] at hfield
  refine ⟨?_, hfield _ _ (by simp), hfield _ _ (by simp), fun f hf => hfield _ _ (by simp [hf]),
    fun f hf => hfield _ _ (by simp [hf]), fun i k hi hres => ?_, fun hset => ?_⟩
  · rw [protocolRmws_eq, List.foldl_append, params_after_staging hL hp _ fun r hr => hr, params_staged hL hp]
  · exact getLsbD_rmws_reserved hL (proper_protocolRmws hL hp) hi hres t
  · rw [protocolRmws_eq, List.foldl_append, active_after_staging hL hp, params_staged hL hp]
    unfold Armed
    cases hs : L.setParam with
    | some f => exact (setParam_staged hL hp t hs).trans (hset f hs)
    | none => exact holds_staged hL hp t (L.powerdown, 1) ((mem_writes_stagingRmws hL).2 (by simp))

end

/-- An APPLY of a programmable triple that answers has completed, and has programmed the target (R189, R192). -/
theorem exec_apply_programs {a b c : Word} {s t : State} (h : exec (.apply a b c) s = .next t)
    (hvalid : s.handle.valid = true) (hp : Programmable s ⟨a, b, c⟩) :
    ∃ u, ApplyFrame (unsettle s) u ∧ t = complete ⟨a, b, c⟩ u ∧ Programmed (s.layout hw) ⟨a, b, c⟩ s.pll t.pll := by
  have hrun : applySequence hw ⟨a, b, c⟩ s = .next t := by
    rw [← h]
    show _ = applyCmd hw ⟨a, b, c⟩ s
    rw [applyCmd, applyRefusal_none hvalid hp.1 hp.2]
  obtain ⟨u, hframe, htu, -⟩ := applySequence_result hw_wf hrun
  refine ⟨u, hframe, htu, ?_⟩
  rw [applySequence_target hw_wf hrun]
  exact programmed_protocol (wf_layout hw_wf s) hp.1 _

end Sys2Proof.Machine
end

section
/-! The output clock (20_memory R69), and two APPLYs in a row (70_reset_and_hazards R195). -/

namespace Sys2Proof.Machine

/-! ### The cases of R69 -/

theorem output_bypassed {L : Layout} {t : PllTarget} (h : readField t.words L.bypass = 1) (ref : Word) :
    t.output L ref = .reference ref :=
  if_pos h

theorem output_unspecified {L : Layout} {t : PllTarget} (hb : readField t.words L.bypass ≠ 1)
    (h : (∃ f, L.selOut = some f ∧ readField t.words f = 0) ∨ readField t.words L.powerdown = 1 ∨ t.active = none)
    (ref : Word) : t.output L ref = .unspecified := by
  rw [PllTarget.output, if_neg hb]
  rcases h with ⟨f, hs, hf⟩ | hp | ha
  · have hdeselected : selected L t.words = false := by rw [selected, hs]; dsimp only; rw [hf]; rfl
    rw [hdeselected]
    rfl
  · exact if_pos (by rw [hp, Bool.or_eq_true]; exact Or.inr rfl)
  · rw [ha]
    exact ite_self _

theorem output_pll {L : Layout} {t : PllTarget} {p : ClockParams} (hb : readField t.words L.bypass ≠ 1)
    (hs : ∀ f, L.selOut = some f → readField t.words f = 1) (hp : readField t.words L.powerdown ≠ 1)
    (ha : t.active = some p) (hz : zeroDivider p = false) (ref : Word) : t.output L ref = .pll (freq ref.toNat p) := by
  have hselected : selected L t.words = true := by
    unfold selected
    cases hf : L.selOut with
    | none => rfl
    | some f => exact beq_iff_eq.2 (hs f hf)
  rw [PllTarget.output, if_neg hb, hselected, beq_eq_false_iff_ne.2 hp, ha]
  simp [hz]

/-- A register programmed from a `set_param` of 0 gives the PLL's clock of the triple (R69, R192). -/
theorem Programmed.output {L : Layout} {p : ClockParams} {before t : PllTarget} (h : Programmed L p before t)
    (hset : ∀ f, L.setParam = some f → readField before.words f = 0) (hz : zeroDivider p = false) (ref : Word) :
    t.output L ref = .pll (freq ref.toNat p) :=
  output_pll (by rw [h.bypass]; decide) h.selOut (by rw [h.powerdown]; decide) (h.active hset) hz ref

/-- While the output is the PLL's, its trust is what the last APPLY saw (R69). -/
theorem trusted_of_pll {cfg : Config} {s : State} {khz : Nat} (h : outputClock cfg s = .pll khz) :
    trusted cfg s = s.settled := by
  rw [trusted, h]

/-- Every command but APPLY leaves what the output goes by: the target, the board and the trust (R69). -/
theorem CommandEffect.keeps_output {i : Instr} {s t : State} (h : CommandEffect s i t) (hi : ∀ a b c, i ≠ .apply a b c) :
    t.pll = s.pll ∧ t.env.board = s.env.board ∧ t.settled = s.settled := by
  cases h with
  | applied a b c => exact absurd rfl (hi a b c)
  | readBack _ st r0 u hframe hpll =>
    have hboard : u.env.board = s.env.board := by rw [hframe.env]; rfl
    exact ⟨hpll, hboard, hframe.settled⟩
  | _ => exact ⟨rfl, rfl, rfl⟩

theorem exec_apply_output {a b c : Word} {s t : State} (hset : (decodeStatus (s.layout hw) s.pll.words).setParam = 0)
    (hp : Programmable s ⟨a, b, c⟩) (htold : s.BoardAsTold) (hvalid : s.handle.valid = true)
    (h : exec (.apply a b c) s = .next t) : outputClock hw t = .pll (freq s.handle.refKhz.toNat ⟨a, b, c⟩) := by
  obtain ⟨u, hframe, rfl, hprogrammed⟩ := exec_apply_programs h hvalid hp
  have hboard : (complete ⟨a, b, c⟩ u).env.board = s.env.board := by rw [complete_env, hframe.env]; rfl
  have hlayout : (complete ⟨a, b, c⟩ u).boardLayout hw = s.layout hw := by
    rw [State.boardLayout, hboard, ← htold.1]; rfl
  rw [outputClock, hlayout, hboard, ← htold.2]
  refine hprogrammed.output (fun f hf => ?_) hp.2 _
  have hread : readOptField s.pll.words (s.layout hw).setParam = 0 := hset
  rwa [hf] at hread

/-- The status of a completed APPLY says whether the lock was seen, and so does the trust (R69, R186). -/
theorem complete_settled_of_status {p : ClockParams} {u : State} :
    ((complete p u).rsp.status = .ok → (complete p u).settled = true) ∧
      ((complete p u).rsp.status = .warnLockTimeout → (complete p u).settled = false) := by
  rw [complete_rsp, complete_settled]
  cases u.seq.lockTimeout <;> simp

/-! ### An APPLY as one step -/

/-- The step that accepts and runs an APPLY of a programmable triple (R33, R192). -/
theorem step_apply {a b c : Word} {rest : List HostInput} {s : State} (hvalid : s.handle.valid = true)
    (hp : Programmable s ⟨a, b, c⟩) (hl : s.Live) (hw' : s.WindowInside hw) (hq : s.seq.fsm = .idle)
    (hfine : s.env.fine = false) (hhost : s.env.host = .command (encode (.apply a b c)) :: rest) :
    ∃ t, step s = .next t ∧ Programmed (s.layout hw) ⟨a, b, c⟩ s.pll t.pll ∧ t.handle = s.handle ∧
      t.cache = ⟨true, ⟨a, b, c⟩⟩ ∧ t.cmd = ⟨8, a, b, c⟩ ∧ t.seq.fsm = .idle ∧
      t.env = { s.env with host := rest, lockPos := t.env.lockPos, busCount := t.env.busCount } := by
  have hstep : step s = exec (.apply a b c) (accept (encode (.apply a b c)) (withHost rest (endPulse s))) := by
    rw [step_accept hq hhost, acceptAndRun, if_neg (by simp [hfine]), runWord_encode]
  rw [accept_encode] at hstep
  obtain ⟨t, ht⟩ : ∃ t, step s = .next t := by rw [hstep]; exact applyCmd_answers hl hw'
  obtain ⟨u, hframe, rfl, hprogrammed⟩ := exec_apply_programs (hstep.symm.trans ht) hvalid hp
  exact ⟨_, ht, hprogrammed, hframe.handle, rfl, hframe.cmd, rfl, hframe.env⟩

end Sys2Proof.Machine

open Sys2Proof Sys2Proof.Machine

/-- Settles O15: the cases of `PllTarget.output`; an APPLY programs the register, and every other command and the reset
leave what the output goes by. -/
theorem outputAfterALockedApplyIsTrusted : Obligations.OutputAfterALockedApplyIsTrusted := by
  refine ⟨fun cfg s => ⟨fun hb => output_bypassed hb _, fun hb h => output_unspecified hb h _, ?_⟩, ?_, ?_, ?_⟩
  · intro hb hs hp p ha hd ho
    exact output_pll hb hs hp ha (by simpa [zeroDivider] using ⟨hd, ho⟩) _
  · intro a b c s t hset hp htold hvalid h
    have hclock := exec_apply_output hset hp htold hvalid h
    obtain ⟨u, -, rfl, -⟩ := exec_apply_programs h hvalid hp
    rw [trusted_of_pll hclock]
    exact ⟨hclock, complete_settled_of_status⟩
  · intro i s t hi h
    obtain ⟨hpll, hboard, hsettled⟩ := (exec_effect h).keeps_output hi
    exact ⟨outputClock_congr hpll hboard, trusted_congr hpll hboard hsettled⟩
  · intro rest s h
    exact ⟨_, step_reset h, outputClock_congr rfl rfl, trusted_congr rfl rfl rfl⟩

/-- Settles O43: the first APPLY leaves `set_param` at 0 and the reserved bits alone, so the second programs the register
and commits. -/
theorem secondApplyDecidesTheRegister : Obligations.SecondApplyDecidesTheRegister := by
  intro a b c a' b' c' s hvalid hp hp' hl hw' hq hfine hhost
  obtain ⟨u, hu, hfirst, hhandle, -, -, hq', henv⟩ := step_apply hvalid hp hl hw' hq hfine hhost
  have hlayout : u.layout hw = s.layout hw := by rw [State.layout, hhandle]; rfl
  have hlive : u.Live := by rw [State.Live, henv]; exact hl
  have hwindow : u.WindowInside hw := by rw [State.WindowInside, hlayout, hhandle]; exact hw'
  have hprogrammable : Programmable u ⟨a', b', c'⟩ := by rw [Programmable, hlayout]; exact hp'
  obtain ⟨t, ht, hsecond, -, hcache, hcmd, hidle, -⟩ := step_apply (hhandle ▸ hvalid) hprogrammable hlive hwindow hq'
    (by rw [henv]; exact hfine) (by rw [henv])
  rw [hlayout] at hsecond
  refine ⟨t, run_succ_eq_next.2 ⟨u, hu, run_succ_eq_next.2 ⟨t, ht, rfl⟩⟩, hsecond.params, hsecond.active hfirst.setParam,
    hcache, hcmd, hidle, hsecond.bypass, hsecond.powerdown, hsecond.selOut, hsecond.setParam, fun i k hi hres => ?_⟩
  exact (hsecond.reserved i k hi hres).trans (hfirst.reserved i k hi hres)
end

section
/-! Command words in both directions (30_encoding R90 to R92), and the assembler over them (R113, R114). -/

namespace Sys2Proof

/-! ### The opcode (R91) -/

/-- A word that decodes to a command carries this command's opcode (R91). -/
theorem opcode_of_decode {w : CommandWord} {i : Instr} (h : decode w = .command i) : i.opcode = opField w := by
  unfold decode decodeFields at h
  split at h <;> cases h
  all_goals
    next hop => exact BitVec.eq_of_toNat_eq hop.symm

/-- The opcodes that select no command (R92). -/
theorem decode_illegal {w : CommandWord} (h : opField w = 0 ∨ 11 ≤ opField w) :
    decode w = .illegalOpcode (opField w) := by
  have hop : (opField w).toNat = 0 ∨ 11 ≤ (opField w).toNat := by bv_omega
  unfold decode decodeFields
  split
  case h_11 => rfl
  all_goals omega

/-- The four fields cover the word (R90). -/
theorem packCommand_fields (w : CommandWord) : packCommand (opField w) (aField w) (bField w) (cField w) = w := by
  unfold packCommand opField aField bField cField
  rw [BitVec.extractLsb'_append_extractLsb'_eq_extractLsb' (by decide),
    BitVec.extractLsb'_append_extractLsb'_eq_extractLsb' (by decide),
    BitVec.extractLsb'_append_extractLsb'_eq_extractLsb' (by decide)]
  exact BitVec.extractLsb'_eq_self

/-! ### The assembler (R113) -/

section
variable {l : CommandLine}

/-- In a well-formed line an operand is the number written, or 0 (R11, R113). -/
theorem operand_toNat (h : l.wf = true) (n : Nat) : (l.operand n).toNat = l.operands.getD n 0 := by
  simp only [CommandLine.wf, Bool.and_eq_true, List.all_eq_true, decide_eq_true_eq] at h
  obtain ⟨-, hsmall⟩ := h
  have hlt : l.operands.getD n 0 < 2 ^ 32 := by
    rw [List.getD_eq_getElem?_getD]
    cases hn : l.operands[n]? with
    | none => decide
    | some x => exact hsmall x (List.mem_of_getElem? hn)
  rw [CommandLine.operand, BitVec.toNat_ofNat, Nat.mod_eq_of_lt hlt]

/-- An operand that is not written is 0 (R113). -/
theorem operand_omitted {n : Nat} (h : l.operands.length ≤ n) : l.operand n = 0 := by
  rw [CommandLine.operand, List.getD_eq_default _ _ h]
  rfl

theorem wf_operandCounts (h : l.wf = true) : l.operands.length ∈ l.mnemonic.operandCounts := by
  simp only [CommandLine.wf, Bool.and_eq_true, List.contains_iff_mem] at h
  exact h.1

/-- The command of a mnemonic over three operands (R113); GETFREQ is READFREQ, SETFREQ has no command of its own (R114). -/
def Mnemonic.command (m : Mnemonic) (a b c : Word) : Option Instr :=
  match m with
  | .INIT => some (.init a b c)
  | .LOOKUP => some (.lookup a b c)
  | .SEARCH => some (.search a b c)
  | .COMPUTE => some (.compute a b c)
  | .CALCFREQ => some (.calcfreq a b c)
  | .ENCODE => some (.encode a b c)
  | .DECODE => some (.decode a b c)
  | .APPLY => some (.apply a b c)
  | .READFREQ | .GETFREQ => some (.readfreq a b c)
  | .TEARDOWN => some (.teardown a b c)
  | .SETFREQ => none

/-- What the forms omit reads 0, so a well-formed line of any form is its mnemonic's command over all three operands. -/
theorem assemble_of_wf (h : l.wf = true) :
    l.assemble = l.mnemonic.command (l.operand 0) (l.operand 1) (l.operand 2) := by
  have hcount := wf_operandCounts h
  rw [CommandLine.assemble, if_pos h]
  cases hm : l.mnemonic with
  | INIT | CALCFREQ | ENCODE | APPLY | SETFREQ => rfl
  | LOOKUP | SEARCH | COMPUTE =>
    rw [hm] at hcount
    have hlength : l.operands.length = 1 := List.mem_singleton.1 hcount
    rw [operand_omitted (n := 1) (by omega), operand_omitted (n := 2) (by omega)]
    rfl
  | DECODE =>
    rw [hm] at hcount
    have hlength : l.operands.length ≤ 2 := by
      rcases List.mem_pair.1 hcount with hone | htwo <;> omega
    rw [operand_omitted (n := 2) hlength]
    rfl
  | READFREQ | TEARDOWN | GETFREQ =>
    rw [hm] at hcount
    have hlength : l.operands.length = 0 := List.mem_singleton.1 hcount
    rw [operand_omitted (n := 0) (by omega), operand_omitted (n := 1) (by omega), operand_omitted (n := 2) (by omega)]
    rfl

theorem assemble_of_not_wf (h : l.wf = false) : l.assemble = none := by
  rw [CommandLine.assemble, h]
  rfl

theorem command_isSome_iff {m : Mnemonic} (a b c : Word) : (m.command a b c).isSome = true ↔ m ≠ .SETFREQ := by
  cases m <;> simp [Mnemonic.command]

/-- A line that is assembled is well-formed, and its command is the mnemonic's over the operands written (R113). -/
theorem assemble_eq_some {i : Instr} (h : l.assemble = some i) :
    l.wf = true ∧ l.mnemonic.command (l.operand 0) (l.operand 1) (l.operand 2) = some i := by
  cases hwf : l.wf with
  | false => rw [assemble_of_not_wf hwf] at h; cases h
  | true => exact ⟨rfl, (assemble_of_wf hwf).symm.trans h⟩

end
end Sys2Proof

open Sys2Proof Sys2Proof.Machine

/-- Settles O1: packing and the four field selectors are inverse, and the opcode selects the command it is of. -/
theorem decodeReadsBackEveryCommand : Obligations.DecodeReadsBackEveryCommand :=
  decode_encode

/-- Settles O2: the decoded command carries all four fields of the word, and the fields cover it. -/
theorem everyCommandHasOneWord : Obligations.EveryCommandHasOneWord := by
  intro w i h
  obtain ⟨ha, hb, hc⟩ := operands_of_decode h
  rw [encode, opcode_of_decode h, ha, hb, hc, packCommand_fields]

/-- Settles O3: each number is the word of its command. -/
theorem writtenCommandWordsDecode : Obligations.WrittenCommandWordsDecode :=
  ⟨decode_encode (.init 0x1FE00490 0 100000), decode_encode (.lookup 25175 0 0), decode_encode (.compute 148500 0 0),
    decode_encode (.apply 3 49 11), decode_encode (.teardown 0 0 0)⟩

/-- Settles O5: the decoder rejects the opcode, and both granularities answer the rejection alike. -/
theorem illegalCommandIsAnsweredAtOnce : Obligations.IllegalCommandIsAnsweredAtOnce := by
  intro w rest s hq hhost hop
  have hdecode := decode_illegal hop
  have hrun : ∀ u, runWord exec w u = illegalCommand u := fun u => by rw [runWord, hdecode]
  have hbegin : ∀ u, begin hw w u = illegalCommand u := fun u => by rw [begin, hdecode]
  rw [step_accept hq hhost, acceptAndRun, hrun, hbegin, ite_self]
  rfl

/-- Settles O60: the assembled operands are those of the line, and the encoded command decodes to itself. -/
theorem assemblerEncodesTheWrittenOperands : Obligations.AssemblerEncodesTheWrittenOperands := by
  intro l
  refine ⟨?_, fun i h => ?_⟩
  · cases hwf : l.wf with
    | false => simp [assemble_of_not_wf hwf]
    | true => simp [assemble_of_wf hwf, command_isSome_iff]
  · obtain ⟨hwf, hcommand⟩ := assemble_eq_some h
    rw [← operand_toNat hwf 0, ← operand_toNat hwf 1, ← operand_toNat hwf 2]
    cases hm : l.mnemonic <;> rw [hm] at hcommand <;> cases hcommand <;>
      exact ⟨rfl, rfl, rfl, decode_encode _, rfl⟩
end

section
/-! The codec (30_encoding R99, R100; 42_codec R150 to R155): field writes on a register, and the answers of ENCODE and
DECODE. -/

namespace Sys2Proof.Machine

/-! ### A field write on the register (R100) -/

theorem readField_writeField_same {f : Field} (h : f.off + f.width ≤ 32) (W : RegWords) (v : Word) :
    readField (writeField W f v) f = v &&& mask f.width := by
  rw [readField, writeField, RegWords.get_set_same, extract_insert_same _ _ _ h]

/-- A field write moves no bit outside the field. -/
theorem getLsbD_writeField_outside {f : Field} {i k : Nat} (hf : f.word < 2) (hi : i < 2) (h : ¬ f.Holds i k)
    (W : RegWords) (v : Word) : ((writeField W f v).get i).getLsbD k = (W.get i).getLsbD k := by
  rw [writeField]
  by_cases hword : i = f.word
  · subst hword
    rw [RegWords.get_set_same, getLsbD_insert_outside _ _ _ _ fun hbits => h ⟨rfl, hbits⟩]
  · rw [RegWords.get_set_other _ _ _ _ hf hi hword]

section
variable {L : Layout} (hL : L.WF)
include hL

theorem readField_writeField_other {f g : Field} (hf : f ∈ L.fields) (hg : g ∈ L.fields) (hn : f ≠ g) (W : RegWords)
    (v : Word) : readField (writeField W f v) g = readField W g := by
  refine extract_congr _ _ _ fun k hlo hhi => ?_
  refine getLsbD_writeField_outside (wf_word_lt hL hf) (wf_word_lt hL hg) ?_ W v
  rintro ⟨hword, hlo', hhi'⟩
  rcases wf_disjoint hL hf hg hn with hd | hd | hd
  · exact hd hword
  · omega
  · omega

/-! ### Encoding a triple (R150, R151) -/

/-- Encoding moves no bit outside the parameter fields. -/
theorem getLsbD_encodeInto_outside {i k : Nat} (hi : i < 2) (h : ¬ L.ParamBit i k) (W : RegWords) (p : ClockParams) :
    ((encodeInto L W p).get i).getLsbD k = (W.get i).getLsbD k := by
  have hfield : ∀ f ∈ L.paramFields, ∀ (V : RegWords) (v : Word),
      ((writeField V f v).get i).getLsbD k = (V.get i).getLsbD k := fun f hf V v =>
    getLsbD_writeField_outside (wf_word_lt hL (param_mem_fields hf)) hi (fun hb => h ⟨f, hf, hb⟩) V v
  rw [encodeInto, hfield _ (divOut_mem L), hfield _ (loopc_mem L), hfield _ (divRef_mem L)]

/-- A triple that fits reads back from the register it was encoded into. -/
theorem decodeParams_encodeInto {p : ClockParams} (hp : fits L p = true) (W : RegWords) :
    decodeParams L (encodeInto L W p) = p := by
  have hdivRef := param_mem_fields (divRef_mem L)
  have hloopc := param_mem_fields (loopc_mem L)
  have hdivOut := param_mem_fields (divOut_mem L)
  obtain ⟨hrl, hro, hlo⟩ := wf_params_ne hL
  simp only [fits, Bool.and_eq_true, decide_eq_true_eq] at hp
  obtain ⟨⟨hfitRef, hfitLoopc⟩, hfitOut⟩ := hp
  rw [decodeParams, encodeInto, readField_writeField_other hL hdivOut hdivRef hro.symm,
    readField_writeField_other hL hloopc hdivRef hrl.symm, readField_writeField_same (wf_inside hL hdivRef).2,
    readField_writeField_other hL hdivOut hloopc hlo.symm, readField_writeField_same (wf_inside hL hloopc).2,
    readField_writeField_same (wf_inside hL hdivOut).2, and_mask_of_le _ _ hfitRef, and_mask_of_le _ _ hfitLoopc,
    and_mask_of_le _ _ hfitOut]

theorem getLsbD_encodeImage_outside {i k : Nat} (hi : i < 2) (h : ¬ L.ParamBit i k) (p : ClockParams) :
    ((encodeImage L p).get i).getLsbD k = false := by
  rw [encodeImage, getLsbD_encodeInto_outside hL hi h]
  unfold RegWords.get
  split <;> exact BitVec.getLsbD_zero

theorem wf_word_eq_zero (hone : L.nwords = 1) {f : Field} (hf : f ∈ L.fields) : f.word = 0 := by
  have := (wf_inside hL hf).1
  omega

/-- Where there is no word 1 the image has nothing in it (R112). -/
theorem encodeImage_w1_eq_zero (hone : L.nwords = 1) (p : ClockParams) : (encodeImage L p).w1 = 0 := by
  refine BitVec.eq_of_getLsbD_eq fun k _ => ?_
  refine (getLsbD_encodeImage_outside (i := 1) hL (by decide) ?_ p).trans BitVec.getLsbD_zero.symm
  rintro ⟨f, hf, hword, -⟩
  exact absurd (hword.symm.trans (wf_word_eq_zero hL hone (param_mem_fields hf))) (by decide)

theorem imageWord1_encodeImage (p : ClockParams) : imageWord1 L (encodeImage L p) = (encodeImage L p).w1 := by
  unfold imageWord1
  split
  next => rfl
  next hne => exact (encodeImage_w1_eq_zero hL (hL.1.1.resolve_right hne) p).symm

/-! ### Decoding a register (R153, R154, R111) -/

/-- Word 1 does not matter where no field lies in it (R99 (a), R155). -/
theorem readField_congr_w1 (hone : L.nwords = 1) {f : Field} (hf : f ∈ L.fields) (w0 w1 w1' : Word) :
    readField ⟨w0, w1⟩ f = readField ⟨w0, w1'⟩ f := by
  rw [readField, readField, wf_word_eq_zero hL hone hf]
  rfl

theorem decodeParams_congr_w1 (hone : L.nwords = 1) (w0 w1 w1' : Word) :
    decodeParams L ⟨w0, w1⟩ = decodeParams L ⟨w0, w1'⟩ := by
  have hfield : ∀ f ∈ L.paramFields, readField ⟨w0, w1⟩ f = readField ⟨w0, w1'⟩ f := fun f hf =>
    readField_congr_w1 hL hone (param_mem_fields hf) w0 w1 w1'
  rw [decodeParams, hfield _ (divRef_mem L), hfield _ (loopc_mem L), hfield _ (divOut_mem L)]
  rfl

theorem decodeStatus_congr_w1 (hone : L.nwords = 1) (w0 w1 w1' : Word) :
    decodeStatus L ⟨w0, w1⟩ = decodeStatus L ⟨w0, w1'⟩ := by
  have hfield : ∀ f ∈ L.bitFields, readField ⟨w0, w1⟩ f = readField ⟨w0, w1'⟩ f := fun f hf =>
    readField_congr_w1 hL hone (bit_mem_fields hf) w0 w1 w1'
  have hopt : ∀ o : Option Field, (∀ f, o = some f → f ∈ L.bitFields) →
      readOptField ⟨w0, w1⟩ o = readOptField ⟨w0, w1'⟩ o := by
    intro o ho
    cases o with
    | none => rfl
    | some f => exact hfield f (ho f rfl)
  rw [decodeStatus, hfield _ (locked_mem L), hfield _ (bypass_mem L), hfield _ (powerdown_mem L),
    hopt _ fun _ => selOut_mem, hopt _ fun _ => setParam_mem]
  rfl

theorem readField_toNat {f : Field} (hf : f ∈ L.fields) (W : RegWords) :
    (readField W f).toNat = (W.get f.word).toNat / 2 ^ f.off % 2 ^ f.width := by
  have := (wf_inside hL hf).2
  exact toNat_extract _ _ (by omega)

end

/-- The bit a control or status field stands for, 0 for an absent one (R109, R153). -/
def RegWords.bit (W : RegWords) (o : Option Field) : Bool := o.any fun f => (W.get f.word).getLsbD f.off

theorem readOptField_eq_lockBit {o : Option Field} (h : ∀ f, o = some f → f.width = 1) (W : RegWords) :
    readOptField W o = lockBit (W.bit o) := by
  cases o with
  | none => rfl
  | some f => exact extract_one_iff _ _ (h f rfl)

theorem decodeStatus_eq_lockBits {L : Layout} (hL : L.WF) (W : RegWords) :
    decodeStatus L W =
      ⟨lockBit (W.bit (some L.locked)), lockBit (W.bit (some L.bypass)), lockBit (W.bit (some L.powerdown)),
        lockBit (W.bit L.selOut), lockBit (W.bit L.setParam)⟩ := by
  have hopt : ∀ o : Option Field, (∀ f, o = some f → f ∈ L.bitFields) → readOptField W o = lockBit (W.bit o) :=
    fun o ho => readOptField_eq_lockBit (fun f hf => wf_bit_width hL (ho f hf)) W
  have hsome : ∀ f ∈ L.bitFields, readField W f = lockBit (W.bit (some f)) := fun f hf =>
    hopt (some f) fun g hg => Option.some.inj hg ▸ hf
  rw [decodeStatus, hsome _ (locked_mem L), hsome _ (bypass_mem L), hsome _ (powerdown_mem L),
    hopt _ fun _ => selOut_mem, hopt _ fun _ => setParam_mem]

theorem getLsbD_lockBit (b : Bool) (k : Nat) : (lockBit b).getLsbD k = (decide (k = 0) && b) := by
  cases b <;> simp [lockBit, BitVec.getLsbD_one]

/-- The status word holds the five bits in its five lowest places (R111). -/
theorem getLsbD_statusWord (locked bypass powerdown selOut setParam : Bool) (k : Nat) :
    (StatusBits.word ⟨lockBit locked, lockBit bypass, lockBit powerdown, lockBit selOut, lockBit setParam⟩).getLsbD k =
      [locked, bypass, powerdown, selOut, setParam].getD k false := by
  simp only [StatusBits.word, BitVec.getLsbD_or, BitVec.getLsbD_shiftLeft, getLsbD_lockBit]
  match k with
  | 0 | 1 | 2 | 3 | 4 => simp
  | k + 5 => simp

/-! ### The answers of ENCODE and DECODE (R152, R155) -/

theorem encodeCmd_fits {cfg : Config} {p : ClockParams} {s : State} (hvalid : s.handle.valid = true)
    (hL : (s.layout cfg).WF) (hp : fits (s.layout cfg) p = true) :
    encodeCmd cfg p s =
      .next (respond .ok (some (encodeImage (s.layout cfg) p).w0) (some (encodeImage (s.layout cfg) p).w1) none none s) := by
  rw [encodeCmd, hvalid, hp, ← imageWord1_encodeImage hL]
  rfl

theorem encodeCmd_not_fits {cfg : Config} {p : ClockParams} {s : State} (hvalid : s.handle.valid = true)
    (hp : fits (s.layout cfg) p = false) : encodeCmd cfg p s = raise .errInvalidParams s := by
  rw [encodeCmd, hvalid, hp]
  rfl

theorem decodeCmd_valid {cfg : Config} {W : RegWords} {s : State} (hvalid : s.handle.valid = true) :
    decodeCmd cfg W s =
      .next (respond .ok (some (decodeParams (s.layout cfg) W).divRef) (some (decodeParams (s.layout cfg) W).loopc)
        (some (decodeParams (s.layout cfg) W).divOut) (some (decodeStatus (s.layout cfg) W).word) s) := by
  rw [decodeCmd, hvalid]
  rfl

end Sys2Proof.Machine

open Sys2Proof Sys2Proof.Machine

/-- Settles O28: the field written takes the value's low bits, and a field of the same layout shares no bit with it. -/
theorem extractAfterInsert : Obligations.ExtractAfterInsert := by
  intro L f g W v hL hf hg
  exact ⟨readField_writeField_same (wf_inside hL hf).2 W v, fun hn => readField_writeField_other hL hf hg hn W v⟩

/-- Settles O32: the answer is the image, which reads back as the triple and is 0 outside the parameter fields. -/
theorem encodeAnswersTheImage : Obligations.EncodeAnswersTheImage := by
  intro a b c s hvalid
  have hL := wf_layout hw_wf s
  refine ⟨fun hp => ?_, fun hp => encodeCmd_not_fits hvalid hp⟩
  exact ⟨_, _, encodeCmd_fits hvalid hL hp, decodeParams_encodeInto hL hp _,
    fun i k hi hk => getLsbD_encodeImage_outside hL hi hk _, fun hone => encodeImage_w1_eq_zero hL hone _⟩

/-- Settles O33: the parameter fields are read as numbers and the status word bit by bit, from word 0 alone where all
fields lie in it. -/
theorem decodeAnswersTheFields : Obligations.DecodeAnswersTheFields := by
  intro a b c s hvalid L W num bit
  have hL : L.WF := wf_layout hw_wf s
  have hstatus : ∀ k, (decodeStatus L W).word.getLsbD k =
      [bit (some L.locked), bit (some L.bypass), bit (some L.powerdown), bit L.selOut, bit L.setParam].getD k false := by
    intro k
    rw [decodeStatus_eq_lockBits hL]
    exact getLsbD_statusWord ..
  have hnum : ∀ f ∈ L.paramFields, (readField W f).toNat = num f := fun f hf =>
    readField_toNat hL (param_mem_fields hf) W
  refine ⟨_, _, _, _, decodeCmd_valid hvalid, hnum _ (divRef_mem L), hnum _ (loopc_mem L), hnum _ (divOut_mem L),
    hstatus 0, hstatus 1, hstatus 2, hstatus 3, hstatus 4, fun k hk => ?_, fun hone b' => ?_⟩
  · exact (hstatus k).trans (List.getD_eq_default _ _ hk)
  · show decodeCmd hw ⟨a, b'⟩ s = decodeCmd hw ⟨a, b⟩ s
    rw [decodeCmd_valid hvalid, decodeCmd_valid hvalid, decodeParams_congr_w1 hL hone a b' b,
      decodeStatus_congr_w1 hL hone a b' b]
end

section
/-! What SEARCH and COMPUTE answer is a triple that APPLY takes, from every state with a handle (41_search R140, R142), and
SETFREQ made of the two commands (30_encoding R114). -/

namespace Sys2Proof.Machine

/-! ### The recorded triple, whatever the differences are (R136, R139) -/

section
variable {ref : Nat} {ps : List ClockParams} {r : SearchRegs}

/-- A pass records its triple, which then is a candidate, or keeps what was recorded. -/
theorem best_visit_mem {cs : List ClockParams} {p : ClockParams} (hp : ratio p = true → p ∈ cs)
    (h : r.found = true → r.best ∈ cs) : (r.visit ref p).found = true → (r.visit ref p).best ∈ cs := by
  unfold SearchRegs.visit
  split
  next hrecord => exact fun _ => hp (Bool.and_eq_true_iff.1 hrecord).1
  next => exact h

/-- A recorded candidate stays recorded, and a pass with Ratio leaves one recorded. -/
theorem found_visit {p : ClockParams} (h : r.found = true ∨ ratio p = true) : (r.visit ref p).found = true := by
  unfold SearchRegs.visit
  split
  next => rfl
  next hkeep =>
    by_contra hnot
    have hfound : r.found = false := Bool.eq_false_of_not_eq_true hnot
    exact hkeep (by simpa [hfound] using h)

theorem best_searchWalk_mem {cs : List ClockParams} (hps : ∀ p ∈ ps, ratio p = true → p ∈ cs)
    (h : r.found = true → r.best ∈ cs) : (searchWalk ref ps r).found = true → (searchWalk ref ps r).best ∈ cs := by
  induction ps generalizing r with
  | nil => exact h
  | cons p ps ih =>
    have hvisit := best_visit_mem (ref := ref) (hps p List.mem_cons_self) h
    rw [searchWalk]
    split
    next => exact hvisit
    next => exact ih (fun q hq => hps q (List.mem_cons_of_mem _ hq)) hvisit

theorem found_searchWalk (h : r.found = true ∨ ∃ p ∈ ps, ratio p = true) : (searchWalk ref ps r).found = true := by
  induction ps generalizing r with
  | nil => simpa [searchWalk] using h
  | cons p ps ih =>
    rw [searchWalk]
    split
    next hexact => exact (Bool.and_eq_true_iff.1 hexact).1
    next =>
      apply ih
      rcases h with hfound | ⟨q, hq, hratio⟩
      · exact Or.inl (found_visit (Or.inl hfound))
      · rcases List.mem_cons.1 hq with rfl | hq
        · exact Or.inl (found_visit (Or.inr hratio))
        · exact Or.inr ⟨q, hq, hratio⟩

end

/-- What a search has recorded is a candidate of the variant. -/
theorem best_mem_candidates {cfg : Config} {req : Word} {s : State} (h : (searchResult cfg req s).found = true) :
    (searchResult cfg req s).best ∈ candidates (s.bounds cfg) :=
  best_searchWalk_mem (fun _ hp hratio => mem_candidates.2 ⟨hp, hratio⟩) (fun h => (nomatch h)) h

/-- A search over the reference bounds records a candidate, whatever the reference frequency (R139). -/
theorem hw_searchResult_found (req : Word) (s : State) : (searchResult hw req s).found = true :=
  found_searchWalk (Or.inr ⟨⟨3, 36, 63⟩, hw_candidate s, by decide⟩)

/-! ### A candidate is usable (R99, R140) -/

/-- A bound that fits a field is a bound on 32-bit numbers. -/
theorem hi_le_of_fit {hi width : Nat} (h : hi - 1 ≤ maskNat width) (hwidth : width ≤ 32) : hi ≤ 2 ^ 32 := by
  have hpow : 2 ^ width ≤ 2 ^ 32 := Nat.pow_le_pow_right (by decide) hwidth
  have hpos : 0 < 2 ^ width := Nat.two_pow_pos width
  unfold maskNat at h
  omega

/-- A triple that SEARCH, COMPUTE or the table may answer: it has Ratio, fits the layout and has no zero divider. -/
def Usable (L : Layout) (p : ClockParams) : Prop := ratio p = true ∧ fits L p = true ∧ zeroDivider p = false

theorem zeroDivider_eq_false {p : ClockParams} (hd : 0 < p.divRef.toNat) (ho : 0 < p.divOut.toNat) :
    zeroDivider p = false := by
  simp only [zeroDivider, Bool.or_eq_false_iff, beq_eq_false_iff_ne]
  exact ⟨fun h => by simp [h] at hd, fun h => by simp [h] at ho⟩

/-- A candidate of an admissible variant is usable: the bounds fit the fields and admit no zero divider. -/
theorem usable_of_mem_candidates {V : VariantConfig} (hV : V.WF) {p : ClockParams} (h : p ∈ candidates V.bounds) :
    Usable V.layout p := by
  obtain ⟨hL, ⟨hfitRef, hfitLoopc, hfitOut⟩, hzeroRef, hzeroOut⟩ := hV
  have hwidth : ∀ f ∈ V.layout.paramFields, f.width ≤ 32 := fun f hf => by
    have := (wf_inside hL (param_mem_fields hf)).2
    omega
  obtain ⟨hpass, hratio⟩ := mem_candidates.1 h
  obtain ⟨hout, href, hloopc⟩ := toNat_of_mem_loopPasses (hi_le_of_fit hfitOut (hwidth _ (divOut_mem _)))
    (hi_le_of_fit hfitRef (hwidth _ (divRef_mem _))) (hi_le_of_fit hfitLoopc (hwidth _ (loopc_mem _))) hpass
  refine ⟨hratio, ?_, zeroDivider_eq_false (by omega) (by omega)⟩
  simp only [fits, Bool.and_eq_true, decide_eq_true_eq]
  omega

theorem usable_of_mem_table {cfg : Config} (hcfg : cfg.WF) {L : Layout} {e : TableEntry} (he : e ∈ cfg.table)
    (hfits : fits L e.params = true) : Usable L e.params := by
  obtain ⟨hd, ho, -, hlo, hhi⟩ := hcfg.2.1 e he
  have hratio : ratio e.params = true := by
    rw [ratio, Bool.and_eq_true, decide_eq_true_eq, decide_eq_true_eq]
    exact ⟨hlo, hhi⟩
  exact ⟨hratio, hfits, zeroDivider_eq_false hd ho⟩

/-! ### What COMPUTE answers (R141, R142) -/

/-- RES0 to RES2 as a triple (R94). -/
def Response.params (r : Response) : ClockParams := ⟨r.res0, r.res1, r.res2⟩

/-- The search of a command that may run it: OK only with a usable triple (R138, R140). -/
theorem respondSearch_answer {cfg : Config} (hcfg : cfg.WF) (req : Word) (s : State) :
    let t := respondSearch (searchResult cfg req s) s
    t.rsp.status = .ok ∧ Usable (s.layout cfg) t.rsp.params ∨ t.rsp.status = .errToleranceExceeded := by
  simp only [respondSearch_rsp, SearchRegs.verdict]
  split
  next hok =>
    have hbest := best_mem_candidates (Bool.and_eq_true_iff.1 hok).1
    exact Or.inl ⟨rfl, usable_of_mem_candidates (wf_variant hcfg _) hbest⟩
  next => exact Or.inr rfl

/-- COMPUTE with a handle changes only the response, FSM and the S_* registers; it answers OK with a usable triple, or that
the tolerance was exceeded. -/
theorem computeCmd_answer {cfg : Config} (hcfg : cfg.WF) {s : State} (hvalid : s.handle.valid = true) (req : Word) :
    ∃ t, computeCmd cfg req s = .next t ∧
      t = { s with rsp := t.rsp, search := t.search, seq := { s.seq with fsm := .idle, sub := 0 } } ∧
      (t.rsp.status = .ok ∧ Usable (s.layout cfg) t.rsp.params ∨ t.rsp.status = .errToleranceExceeded) := by
  have hsearch := respondSearch_answer hcfg req s
  rw [computeCmd, hvalid, Bool.not_true, if_neg (by decide)]
  split
  next e he =>
    split
    next hfits =>
      have hmem : e ∈ cfg.table := List.mem_of_find?_eq_some he
      exact ⟨_, rfl, rfl, Or.inl ⟨rfl, usable_of_mem_table hcfg hmem hfits⟩⟩
    next => exact ⟨_, rfl, rfl, hsearch⟩
  next => exact ⟨_, rfl, rfl, hsearch⟩

/-! ### One command on the idle port (R33, R114) -/

/-- The state in which a command that the host issues runs. -/
def State.issued (i : Instr) (s : State) : State :=
  { s with
    cmd := ⟨i.opcode, i.a, i.b, i.c⟩
    rsp := { s.rsp with valid := false }
    seq := { s.seq with fsm := .idle, sub := 0 }
    env := { s.env with fine := false } }

theorem issue_eq_exec (i : Instr) (s : State) : issue i s = exec i (s.issued i) := by
  rw [issue, issueBy, step_accept (rest := s.env.host) rfl rfl, acceptAndRun, if_neg (by simp), runWord_encode,
    accept_encode]
  rfl

theorem issue_compute_answer {s : State} (hvalid : s.handle.valid = true) (khz : Word) :
    ∃ u, issue (.compute khz 0 0) s = .next u ∧
      (u.handle = s.handle ∧ u.pll = s.pll ∧ u.cache = s.cache ∧ u.trace = s.trace ∧
        u.env = { s.env with fine := false }) ∧
      (u.rsp.status = .ok ∧ Usable (s.layout hw) u.rsp.params ∨ u.rsp.status = .errToleranceExceeded) := by
  obtain ⟨u, hu, hframe, hanswer⟩ := computeCmd_answer hw_wf (s := s.issued (.compute khz 0 0)) hvalid khz
  refine ⟨u, (issue_eq_exec _ s).trans hu, ?_, hanswer⟩
  rw [hframe]
  exact ⟨rfl, rfl, rfl, rfl, rfl⟩

/-- An issued APPLY of a programmable triple that answers has completed (R186, R190, R192). -/
theorem issue_apply_completes {a b c : Word} {s t : State} (hvalid : s.handle.valid = true)
    (hp : Programmable s ⟨a, b, c⟩) (h : issue (.apply a b c) s = .next t) :
    (t.rsp.status = .ok ∨ t.rsp.status = .warnLockTimeout) ∧ t.cmd = ⟨8, a, b, c⟩ ∧ t.cache = ⟨true, ⟨a, b, c⟩⟩ ∧
      decodeParams (s.layout hw) t.pll.words = ⟨a, b, c⟩ := by
  rw [issue_eq_exec] at h
  obtain ⟨u, hframe, rfl, hprogrammed⟩ := exec_apply_programs h hvalid hp
  refine ⟨?_, hframe.cmd, rfl, hprogrammed.params⟩
  rw [complete_rsp]
  cases u.seq.lockTimeout
  · exact Or.inl rfl
  · exact Or.inr rfl

theorem issue_apply_answers {a b c : Word} {s : State} (hl : s.Live) (hwindow : s.WindowInside hw) :
    ∃ t, issue (.apply a b c) s = .next t := by
  rw [issue_eq_exec]
  exact applyCmd_answers hl hwindow

/-- After its COMPUTE a SETFREQ is the APPLY of the results, or over (R114). -/
theorem setfreq_of_compute {khz : Word} {s u : State} (h : issue (.compute khz 0 0) s = .next u) :
    setfreq khz s =
      if u.rsp.status = .ok then issue (.apply u.rsp.res0 u.rsp.res1 u.rsp.res2) u else .next u := by
  have hcompute : issueBy step (.compute khz 0 0) s = .next u := h
  rw [setfreq, setfreqBy, hcompute]
  rfl

end Sys2Proof.Machine

open Sys2Proof Sys2Proof.Machine

/-- Settles O23: some candidate is recorded, so the best is one, and candidates of an admissible variant are usable. -/
theorem searchResultsAreUsable : Obligations.SearchResultsAreUsable := by
  intro a b c s t hvalid h
  rw [exec_search_valid hvalid] at h
  cases h
  have hbest := best_mem_candidates (hw_searchResult_found a s)
  exact ⟨hbest, usable_of_mem_candidates (wf_variant hw_wf _) hbest⟩

/-- Settles O59: COMPUTE answers OK only with a usable triple, so the APPLY of its results passes every check. -/
theorem setfreqAppliesOnlyASuccessfulCompute : Obligations.SetfreqAppliesOnlyASuccessfulCompute := by
  intro khz s hvalid
  obtain ⟨u, hu, ⟨hhandle, hpll, hcache, htrace, henv⟩, hanswer⟩ := issue_compute_answer hvalid khz
  have hlayout : u.layout hw = s.layout hw := by rw [State.layout, hhandle]; rfl
  have hset := setfreq_of_compute hu
  refine ⟨u, hu, fun hfailed => ?_, fun hok t ht => ?_, fun hok hl hwindow => ?_⟩
  · rw [if_neg hfailed] at hset
    exact ⟨hanswer.resolve_left fun h => hfailed h.1, hset, hpll, hcache, htrace⟩
  · rw [hset, if_pos hok] at ht
    have husable : Usable (s.layout hw) u.rsp.params := by
      rcases hanswer with ⟨-, h⟩ | h
      · exact h
      · rw [hok] at h; cases h
    obtain ⟨hratio, hfits, hzero⟩ := husable
    have hprogrammable : Programmable u u.rsp.params := ⟨hlayout ▸ hfits, hzero⟩
    obtain ⟨hstatus, hcmd, hcached, hparams⟩ := issue_apply_completes (hhandle ▸ hvalid) hprogrammable ht
    exact ⟨ht, hstatus, hcmd, hcached, hlayout ▸ hparams, hcached ▸ hratio⟩
  · have hlive : u.Live := by rw [State.Live, henv]; exact hl
    have hinside : u.WindowInside hw := by rw [State.WindowInside, hlayout, hhandle]; exact hwindow
    rw [hset, if_pos hok]
    exact issue_apply_answers hlive hinside
end

section
/-! LOOKUP on any table (40_table_lookup R120 to R123). -/

namespace Sys2Proof.Machine

theorem tableFind_eq_some_iff {table : List TableEntry} {khz : Word} {e : TableEntry} :
    tableFind table khz = some e ↔
      e.clockKhz = khz ∧ ∃ before after, table = before ++ e :: after ∧ ∀ x ∈ before, x.clockKhz ≠ khz := by
  simp [tableFind, List.find?_eq_some_iff_append]

theorem tableFind_eq_none_iff {table : List TableEntry} {khz : Word} :
    tableFind table khz = none ↔ ∀ x ∈ table, x.clockKhz ≠ khz := by
  simp [tableFind]

end Sys2Proof.Machine

open Sys2Proof Sys2Proof.Machine

/-- Settles O16: the split of the table says which entry `tableFind` answers, and the hit or the miss follows from it. -/
theorem lookupAnswersTheFirstMatch : Obligations.LookupAnswersTheFirstMatch := by
  refine ⟨fun cfg khz before after e s htable hclock hbefore => ?_, fun cfg khz s hnone => ?_⟩
  · have hfind : tableFind cfg.table khz = some e :=
      tableFind_eq_some_iff.mpr ⟨hclock, before, after, htable, hbefore⟩
    exact lookupCmd_hit hfind s
  · exact lookupCmd_miss (tableFind_eq_none_iff.mpr hnone) s
end

section
/-! CALCFREQ and the frequency formula (41_search R130, R131, R143). -/

namespace Sys2Proof.Machine

/-- A triple that fits a well-formed layout has a `loopc` of at most LOOPC_W_MAX bits (R99 (c), R101). -/
theorem loopc_lt_of_fits {L : Layout} (hL : L.WF) {p : ClockParams} (hp : fits L p = true) :
    p.loopc.toNat < 2 ^ loopcWMax := by
  obtain ⟨-, -, -, hwidth⟩ := hL
  have hloopc : p.loopc.toNat ≤ 2 ^ L.loopc.width - 1 := by
    simp only [fits, Bool.and_eq_true, decide_eq_true_eq] at hp
    exact hp.1.2
  have hpow : 2 ^ L.loopc.width ≤ 2 ^ loopcWMax := Nat.pow_le_pow_right (by decide) hwidth
  have hpos : 0 < 2 ^ L.loopc.width := Nat.two_pow_pos _
  omega

theorem zeroDivider_eq_true_iff {p : ClockParams} : zeroDivider p = true ↔ p.divRef = 0 ∨ p.divOut = 0 := by
  simp [zeroDivider]

section
variable {cfg : Config} {p : ClockParams} {s : State} (hvalid : s.handle.valid = true)
include hvalid

theorem calcfreqCmd_not_fits (hp : fits (s.layout cfg) p = false) :
    calcfreqCmd cfg p s = raise .errInvalidParams s := by
  rw [calcfreqCmd, hvalid, hp]
  rfl

theorem calcfreqCmd_zeroDivider (hp : fits (s.layout cfg) p = true) (hzero : zeroDivider p = true) :
    calcfreqCmd cfg p s = .next (respond .errDivZero (some 0) none none none s) := by
  rw [calcfreqCmd, hvalid, hp, hzero]
  rfl

theorem calcfreqCmd_ok (hp : fits (s.layout cfg) p = true) (hzero : zeroDivider p = false) :
    calcfreqCmd cfg p s =
      .next (respond .ok (some (BitVec.ofNat 32 (freq s.handle.refKhz.toNat p))) none none none s) := by
  rw [calcfreqCmd, hvalid, hp, hzero]
  rfl

end

/-- Each of the two divisions and the product of the formula is monotone (R143). -/
theorem freq_le_freq (ref : Nat) {p q : ClockParams} (href : 0 < p.divRef.toNat) (hout : 0 < p.divOut.toNat)
    (hdivRef : p.divRef.toNat ≤ q.divRef.toNat) (hloopc : q.loopc.toNat ≤ p.loopc.toNat)
    (hdivOut : p.divOut.toNat ≤ q.divOut.toNat) : freq ref q ≤ freq ref p := by
  have hquot : ref / q.divRef.toNat ≤ ref / p.divRef.toNat := Nat.div_le_div_left hdivRef href
  exact Nat.div_le_div (Nat.mul_le_mul hquot hloopc) hdivOut hout.ne'

/-- Rounding once after doubling loses no more than rounding before it. -/
theorem two_mul_freq_le (ref : Nat) {p q : ClockParams} (hdivRef : p.divRef = q.divRef) (hdivOut : p.divOut = q.divOut)
    (hloopc : p.loopc.toNat = 2 * q.loopc.toNat) : 2 * freq ref q ≤ freq ref p := by
  rw [freq, freq, hdivRef, hdivOut, hloopc, Nat.mul_left_comm]
  exact Nat.mul_div_le_mul_div_assoc _ _ _

end Sys2Proof.Machine

open Sys2Proof Sys2Proof.Machine

/-- Settles O18: the three branches of `calcfreqCmd`; a triple that fits leaves no room for a wrap-around. -/
theorem calcfreqAnswersTheFormula : Obligations.CalcfreqAnswersTheFormula := by
  intro a b c s hvalid href answer
  refine ⟨fun hp => calcfreqCmd_not_fits hvalid hp,
    fun hp hzero => calcfreqCmd_zeroDivider hvalid hp (zeroDivider_eq_true_iff.2 hzero), fun hp ha hc => ?_⟩
  have hlt : freq s.handle.refKhz.toNat ⟨a, b, c⟩ < 2 ^ 32 := freq_lt href (loopc_lt_of_fits (wf_layout hw_wf s) hp)
  have hzero : zeroDivider ⟨a, b, c⟩ = false := Bool.eq_false_iff.2 fun h => (zeroDivider_eq_true_iff.1 h).elim ha hc
  exact ⟨_, (BitVec.toNat_ofNat ..).trans (Nat.mod_eq_of_lt hlt), calcfreqCmd_ok hvalid hp hzero⟩

/-- Settles O19: the formula is monotone step by step, and so is doubling. -/
theorem freqIsMonotone : Obligations.FreqIsMonotone := by
  intro ref p q href hout hdivRef hloopc hdivOut
  exact ⟨freq_le_freq ref href hout hdivRef hloopc hdivOut, two_mul_freq_le ref⟩
end

section
/-! The candidate sequence (41_search R132, R133): its members and its order. -/

namespace Sys2Proof.Machine

theorem ratio_iff {p : ClockParams} :
    ratio p = true ↔ 12 * p.divRef.toNat ≤ p.loopc.toNat ∧ p.loopc.toNat ≤ 32 * p.divRef.toNat := by
  rw [ratio, Bool.and_eq_true, decide_eq_true_eq, decide_eq_true_eq, ratioLo, ratioHi]

/-- The passes of 32-bit bounds are exactly the triples whose numbers lie inside them. -/
theorem mem_loopPasses_iff_toNat {B : Bounds} {p : ClockParams} (ho : B.doutHi ≤ 2 ^ 32) (hd : B.drefHi ≤ 2 ^ 32)
    (hl : B.loopcHi ≤ 2 ^ 32) :
    p ∈ loopPasses B ↔
      (B.doutLo ≤ p.divOut.toNat ∧ p.divOut.toNat < B.doutHi) ∧
      (B.drefLo ≤ p.divRef.toNat ∧ p.divRef.toNat < B.drefHi) ∧
      (B.loopcLo ≤ p.loopc.toNat ∧ p.loopc.toNat < B.loopcHi) := by
  refine ⟨toNat_of_mem_loopPasses ho hd hl, fun ⟨hout, href, hloopc⟩ => ?_⟩
  exact mem_loopPasses.2 ⟨_, _, _, hout, href, hloopc, by simp⟩

/-- The order of the loops: div_out, then div_ref, then loopc (R133). -/
def PassBefore (p q : ClockParams) : Prop :=
  p.divOut < q.divOut ∨ (p.divOut = q.divOut ∧
    (p.divRef < q.divRef ∨ (p.divRef = q.divRef ∧ p.loopc < q.loopc)))

/-- A counter that stays inside 32 bits ascends as a word too. -/
theorem pairwise_counted {lo hi : Nat} (h : hi ≤ 2 ^ 32) :
    (counted lo hi).Pairwise fun m n => BitVec.ofNat 32 m < BitVec.ofNat 32 n := by
  have hlt : (counted lo hi).Pairwise (· < ·) := List.pairwise_lt_range'
  refine hlt.imp_of_mem fun hm hn hmn => ?_
  have hmHi := (mem_counted.1 hm).2
  have hnHi := (mem_counted.1 hn).2
  rw [BitVec.lt_def, BitVec.toNat_ofNat, BitVec.toNat_ofNat, Nat.mod_eq_of_lt (by omega), Nat.mod_eq_of_lt (by omega)]
  exact hmn

/-- Each loop ascends, and an inner loop runs whole before the outer counter moves. -/
theorem pairwise_loopPasses {B : Bounds} (ho : B.doutHi ≤ 2 ^ 32) (hd : B.drefHi ≤ 2 ^ 32) (hl : B.loopcHi ≤ 2 ^ 32) :
    (loopPasses B).Pairwise PassBefore := by
  refine List.pairwise_flatMap.2 ⟨fun o _ => List.pairwise_flatMap.2 ⟨fun d _ => ?_, ?_⟩, ?_⟩
  · exact List.pairwise_map.2 ((pairwise_counted hl).imp fun hlt => Or.inr ⟨rfl, Or.inr ⟨rfl, hlt⟩⟩)
  · refine (pairwise_counted hd).imp fun hlt p hp q hq => ?_
    obtain ⟨_, -, rfl⟩ := List.mem_map.1 hp
    obtain ⟨_, -, rfl⟩ := List.mem_map.1 hq
    exact Or.inr ⟨rfl, Or.inl hlt⟩
  · refine (pairwise_counted ho).imp fun hlt p hp q hq => ?_
    obtain ⟨_, -, hp⟩ := List.mem_flatMap.1 hp
    obtain ⟨_, -, hq⟩ := List.mem_flatMap.1 hq
    obtain ⟨_, -, rfl⟩ := List.mem_map.1 hp
    obtain ⟨_, -, rfl⟩ := List.mem_map.1 hq
    exact Or.inl hlt

end Sys2Proof.Machine

open Sys2Proof Sys2Proof.Machine

/-- Settles O20: the passes are complete and ordered, and the filter by Ratio keeps both. -/
theorem candidatesAreOrderedAndComplete : Obligations.CandidatesAreOrderedAndComplete := by
  intro B ho hd hl
  refine ⟨fun p => ?_, (pairwise_loopPasses ho hd hl).filter ratio⟩
  rw [mem_candidates, mem_loopPasses_iff_toNat ho hd hl, ratio_iff]
  simp only [and_assoc]
end

section
/-! The two ends of the search: with no candidate (41_search R139), and beyond the reachable frequencies (R145). -/

namespace Sys2Proof.Machine

/-! ### No candidate (R139) -/

theorem visit_of_not_ratio (ref : Nat) (r : SearchRegs) {p : ClockParams} (h : ratio p = false) :
    r.visit ref p = { r with divOut := p.divOut, divRef := p.divRef, loopc := p.loopc } := by
  rw [SearchRegs.visit, h]
  rfl

/-- Passes without Ratio record nothing: only the three counters move. -/
theorem searchWalk_of_no_ratio {ref : Nat} {ps : List ClockParams} {r : SearchRegs}
    (hps : ∀ p ∈ ps, ratio p = false) (hr : r.found = false) :
    (searchWalk ref ps r).found = false ∧ (searchWalk ref ps r).best = r.best ∧
      (searchWalk ref ps r).bestDiff = r.bestDiff := by
  induction ps generalizing r with
  | nil => exact ⟨hr, rfl, rfl⟩
  | cons p ps ih =>
    have hvisit := visit_of_not_ratio ref r (hps p List.mem_cons_self)
    have hfound : (r.visit ref p).found = false := by rw [hvisit]; exact hr
    have hexact : (r.visit ref p).exact = false := by rw [SearchRegs.exact, hfound]; rfl
    obtain ⟨hnone, hbest, hdiff⟩ := ih (fun q hq => hps q (List.mem_cons_of_mem _ hq)) hfound
    rw [searchWalk, hexact, if_neg (by decide)]
    exact ⟨hnone, by rw [hbest, hvisit], by rw [hdiff, hvisit]⟩

theorem searchResult_of_no_candidate {cfg : Config} {s : State} (h : candidates (s.bounds cfg) = []) (req : Word) :
    (searchResult cfg req s).found = false ∧ (searchResult cfg req s).best = ClockParams.zero ∧
      (searchResult cfg req s).bestDiff = 0xFFFFFFFF :=
  searchWalk_of_no_ratio (fun p hp => by simpa using List.filter_eq_nil_iff.1 h p hp) rfl

theorem searchCmd_valid {cfg : Config} {s : State} (hvalid : s.handle.valid = true) (req : Word) :
    searchCmd cfg req s = .next (respondSearch (searchResult cfg req s) s) := by
  rw [searchCmd, hvalid]
  rfl

/-! ### The reachable frequencies at 100000 kHz (R145) -/

/-- The generic candidates reach from 19047 to 533333 kHz: the quotient loses at most 1 of 100000 before the product with
`loopc`, which lies between 12 and 32 times div_ref. -/
theorem freq_range_of_generic_candidate {p : ClockParams} (h : p ∈ candidates genericBounds) :
    19047 ≤ freq 100000 p ∧ freq 100000 p ≤ 533333 := by
  obtain ⟨hpass, hratio⟩ := mem_candidates.1 h
  obtain ⟨hlo, hhi⟩ := ratio_iff.1 hratio
  obtain ⟨hout, href, -⟩ := toNat_of_mem_loopPasses (by decide) (by decide) (by decide) hpass
  simp only [genericBounds] at hout href
  have hproduct : 1199988 ≤ 100000 / p.divRef.toNat * p.loopc.toNat ∧
      100000 / p.divRef.toNat * p.loopc.toNat ≤ 3200000 := by
    have hcases : p.divRef.toNat = 3 ∨ p.divRef.toNat = 4 ∨ p.divRef.toNat = 5 := by omega
    rcases hcases with hd | hd | hd <;> rw [hd] at hlo hhi ⊢ <;> omega
  constructor
  · refine (Nat.le_div_iff_mul_le (by omega)).2 ?_
    omega
  · calc freq 100000 p ≤ 3200000 / 6 := Nat.div_le_div hproduct.2 hout.1 (by decide)
      _ = 533333 := by decide

theorem generic_candidate {d l o : Word}
    (h : (6 ≤ o.toNat ∧ o.toNat < 64) ∧ (3 ≤ d.toNat ∧ d.toNat < 6) ∧ (6 ≤ l.toNat ∧ l.toNat < 161))
    (hratio : ratio ⟨d, l, o⟩ = true) : ⟨d, l, o⟩ ∈ candidates genericBounds :=
  mem_candidates.2 ⟨(mem_loopPasses_iff_toNat (by decide) (by decide) (by decide)).2 h, hratio⟩

theorem fastest_candidate : ⟨4, 128, 6⟩ ∈ candidates genericBounds := generic_candidate (by decide) (by decide)

theorem slowest_candidate : ⟨3, 36, 63⟩ ∈ candidates genericBounds := generic_candidate (by decide) (by decide)

theorem hw_bounds_generic {s : State} (h : s.handle.variant ≠ 3) : s.bounds hw = genericBounds := by
  rw [hw_bounds, if_neg h]

section
variable {s : State} (href : s.handle.refKhz = 100000) (hvariant : s.handle.variant ≠ 3)
include href hvariant

/-- The recorded difference is that of a frequency inside the range. -/
theorem bestDiff_eq_absDiff (req : Word) :
    ∃ f, (19047 ≤ f ∧ f ≤ 533333) ∧ (searchResult hw req s).bestDiff.toNat = absDiff req.toNat f := by
  have hle : s.handle.refKhz.toNat ≤ refKhzMax := by rw [href]; decide
  obtain ⟨-, -, -, hdiff, -⟩ := (hw_records hle req).first (hw_searchResult_found req s)
  have hbest := best_mem_candidates (hw_searchResult_found req s)
  rw [hw_bounds_generic hvariant] at hbest
  rw [href] at hdiff
  exact ⟨_, freq_range_of_generic_candidate hbest, hdiff⟩

/-- A request outside the range by more than the tolerance fails (R138). -/
theorem verdict_out_of_range {req : Word} (h : req.toNat < 18047 ∨ 534333 < req.toNat) :
    (searchResult hw req s).verdict = .errToleranceExceeded := by
  obtain ⟨f, hf, hdiff⟩ := bestDiff_eq_absDiff href hvariant req
  have hfar : ¬ (searchResult hw req s).bestDiff.toNat ≤ toleranceKhz := by
    rw [hdiff, absDiff, toleranceKhz]
    split <;> omega
  rw [SearchRegs.verdict, decide_eq_false hfar, Bool.and_false]
  rfl

/-- Above the range the fastest candidate is the nearest. -/
theorem bestDiff_above_range {req : Word} (h : 533333 ≤ req.toNat) :
    (searchResult hw req s).bestDiff = BitVec.ofNat 32 (req.toNat - 533333) := by
  have hle : s.handle.refKhz.toNat ≤ refKhzMax := by rw [href]; decide
  obtain ⟨f, hf, hdiff⟩ := bestDiff_eq_absDiff href hvariant req
  have hfastest : ⟨4, 128, 6⟩ ∈ loopPasses (s.bounds hw) := by
    rw [hw_bounds_generic hvariant]
    exact (mem_candidates.1 fastest_candidate).1
  have hbest := (le_of_records (hw_records hle req) hfastest (by decide)).2
  have hfreq : searchDiff s.handle.refKhz.toNat req ⟨4, 128, 6⟩ = req.toNat - 533333 := by
    rw [href]
    exact if_pos h
  rw [hfreq] at hbest
  rw [absDiff, if_pos (by omega)] at hdiff
  apply BitVec.eq_of_toNat_eq
  rw [BitVec.toNat_ofNat, Nat.mod_eq_of_lt (by omega)]
  omega

end

end Sys2Proof.Machine

open Sys2Proof Sys2Proof.Machine

/-- Settles O22: the walk over passes without Ratio keeps the values a search starts with. -/
theorem searchWithNoCandidateFails : Obligations.SearchWithNoCandidateFails := by
  refine ⟨fun v => ?_, fun cfg req s hvalid hnone => ?_⟩
  · have hmem := hw_candidate { State.reset with handle := ⟨true, 0, v, 0⟩ }
    exact List.ne_nil_of_mem (mem_candidates.2 ⟨hmem, by decide⟩)
  · obtain ⟨hfound, hbest, hdiff⟩ := searchResult_of_no_candidate hnone req
    refine ⟨_, searchCmd_valid hvalid req, ?_, hfound, rfl, rfl, rfl⟩
    rw [respondSearch_rsp, SearchRegs.verdict, hfound, hbest, hdiff]
    rfl

/-- Settles O24: every candidate's frequency lies in the range, both ends are reached, and the tolerance is 1000. -/
theorem searchReachesExactlyTheRange : Obligations.SearchReachesExactlyTheRange := by
  intro b c s hvalid href hvariant
  rw [hw_bounds_generic hvariant]
  refine ⟨fun p hp => freq_range_of_generic_candidate hp, ⟨fastest_candidate, by decide⟩,
    ⟨slowest_candidate, by decide⟩, fun a ha => ?_, ?_, ?_⟩
  · exact ⟨_, exec_search_valid hvalid a b c, verdict_out_of_range href hvariant ha⟩
  · have hdiff : (searchResult hw 534333 s).bestDiff = 1000 := bestDiff_above_range href hvariant (by decide)
    have hfound := hw_searchResult_found 534333 s
    have hverdict : (searchResult hw 534333 s).verdict = .ok := by
      rw [SearchRegs.verdict, hfound, hdiff]
      rfl
    exact ⟨_, exec_search_valid hvalid _ b c, hverdict, hdiff⟩
  · exact ⟨_, exec_search_valid hvalid _ b c, verdict_out_of_range href hvariant (Or.inr (by decide)),
      bestDiff_above_range href hvariant (by decide)⟩
end

section
/-! COMPUTE as a table hit or a search (41_search R141, R142). -/

namespace Sys2Proof.Machine

section
variable {cfg : Config} {khz : Word} {s : State} (hvalid : s.handle.valid = true)
include hvalid

theorem computeCmd_miss (h : tableFind cfg.table khz = none) : computeCmd cfg khz s = searchCmd cfg khz s := by
  rw [computeCmd, searchCmd, hvalid, h]

theorem computeCmd_misfit {e : TableEntry} (h : tableFind cfg.table khz = some e)
    (hfits : fits (s.layout cfg) e.params = false) : computeCmd cfg khz s = searchCmd cfg khz s := by
  rw [computeCmd, searchCmd, hvalid, h]
  exact if_neg (Bool.eq_false_iff.1 hfits)

/-- COMPUTE answers a table entry that fits the variant, or is SEARCH. -/
theorem computeCmd_cases :
    (∃ e ∈ cfg.table, fits (s.layout cfg) e.params = true ∧ computeCmd cfg khz s = respondHit e.params s) ∨
      computeCmd cfg khz s = searchCmd cfg khz s := by
  cases hfind : tableFind cfg.table khz with
  | none => exact Or.inr (computeCmd_miss hvalid hfind)
  | some e =>
    cases hfits : fits (s.layout cfg) e.params with
    | true => exact Or.inl ⟨e, List.mem_of_find?_eq_some hfind, hfits, computeCmd_hit hvalid hfind hfits⟩
    | false => exact Or.inr (computeCmd_misfit hvalid hfind hfits)

end

end Sys2Proof.Machine

open Sys2Proof Sys2Proof.Machine

/-- Settles O26: the table has two clocks only, and the second entry's div_out = 85 is too wide for variants 1 and 3. -/
theorem computeSearchesOnMissOrMisfit : Obligations.ComputeSearchesOnMissOrMisfit := by
  intro a b c s hvalid
  have hmisfit : ∀ v : BitVec 2, v = 1 ∨ v = 3 → fits (hw.variant v).layout ⟨5, 107, 85⟩ = false := by decide
  exact ⟨fun h1 h2 => computeCmd_miss hvalid (hw_tableFind_none h1 h2),
    fun hv => computeCmd_misfit hvalid hw_tableFind_25175 (hmisfit _ hv)⟩

/-- Settles O27: a table entry that fits is usable, and the search over the reference bounds always records a candidate. -/
theorem computeResultsFitTheVariant : Obligations.ComputeResultsFitTheVariant := by
  intro a b c s hvalid
  rcases computeCmd_cases (cfg := hw) (khz := a) hvalid with ⟨e, he, hfits, hhit⟩ | hsearch
  · obtain ⟨hratio, -, -⟩ := usable_of_mem_table hw_wf he hfits
    exact ⟨_, hhit, hratio, hfits⟩
  · have hbest := best_mem_candidates (hw_searchResult_found a s)
    obtain ⟨hratio, hfits, -⟩ := usable_of_mem_candidates (wf_variant hw_wf _) hbest
    exact ⟨_, hsearch.trans (searchCmd_valid hvalid a), hratio, hfits⟩
end

section
/-! The two directions of the codec round trip and what encoding leaves alone (42_codec R156 to R158). -/

namespace Sys2Proof.Machine

/-! ### Bits and fields of a field write (R100) -/

/-- A field write puts the value's bits, shifted to the field, at the field's bits. -/
theorem getLsbD_writeField_inside {f : Field} {i k : Nat} (h : f.Holds i k) (hk : k < 32) (W : RegWords) (v : Word) :
    ((writeField W f v).get i).getLsbD k = v.getLsbD (k - f.off) := by
  obtain ⟨rfl, hbits⟩ := h
  rw [writeField, RegWords.get_set_same, getLsbD_insert _ _ _ _ hk, if_pos hbits]

theorem writeField_readField_self (W : RegWords) (f : Field) : writeField W f (readField W f) = W := by
  rw [writeField, readField, insert_extract_self, RegWords.set_get_self]

/-- After the same field write, a bit depends on the register before only where the field does not lie. -/
theorem getLsbD_writeField_congr {f : Field} {i k : Nat} (hf : f.word < 2) (hi : i < 2) (hk : k < 32) {V W : RegWords}
    (h : ¬ f.Holds i k → (V.get i).getLsbD k = (W.get i).getLsbD k) (v : Word) :
    ((writeField V f v).get i).getLsbD k = ((writeField W f v).get i).getLsbD k := by
  by_cases hbit : f.Holds i k
  · rw [getLsbD_writeField_inside hbit hk, getLsbD_writeField_inside hbit hk]
  · rw [getLsbD_writeField_outside hf hi hbit, getLsbD_writeField_outside hf hi hbit, h hbit]

/-! ### Encoding, decoding and Fits on any layout (R101, R150, R153, R154) -/

theorem encodeInto_decodeParams (L : Layout) (W : RegWords) : encodeInto L W (decodeParams L W) = W := by
  simp only [encodeInto, decodeParams, writeField_readField_self]

/-- The status is decided by the present control and status fields; an absent one reads 0 of every register (R153). -/
theorem decodeStatus_congr {L : Layout} {V W : RegWords} (h : ∀ f ∈ L.bitFields, readField V f = readField W f) :
    decodeStatus L V = decodeStatus L W := by
  have hopt : ∀ o : Option Field, (∀ f, o = some f → f ∈ L.bitFields) → readOptField V o = readOptField W o := by
    intro o ho
    cases o with
    | none => rfl
    | some f => exact h f (ho f rfl)
  rw [decodeStatus, h _ (locked_mem L), h _ (bypass_mem L), h _ (powerdown_mem L), hopt _ fun _ => selOut_mem,
    hopt _ fun _ => setParam_mem, decodeStatus]

/-- A triple within an admissible variant's bounds fits its layout: the bounds fit the fields (R99 (d)). -/
theorem fits_of_lt_bounds {V : VariantConfig} (hV : V.WF) {p : ClockParams} (hout : p.divOut.toNat < V.bounds.doutHi)
    (href : p.divRef.toNat < V.bounds.drefHi) (hloopc : p.loopc.toNat < V.bounds.loopcHi) : fits V.layout p = true := by
  obtain ⟨-, ⟨hfitRef, hfitLoopc, hfitOut⟩, -⟩ := hV
  simp only [fits, Bool.and_eq_true, decide_eq_true_eq]
  omega

theorem not_paramBit_of_reserved {L : Layout} {i k : Nat} (h : L.Reserved i k) : ¬ L.ParamBit i k := by
  rintro ⟨f, hf, hbit⟩
  exact h f (param_mem_fields hf) hbit

section
variable {L : Layout} (hL : L.WF)
include hL

/-! ### What encoding leaves alone (R157) -/

theorem readField_encodeInto_bit {g : Field} (hg : g ∈ L.bitFields) (W : RegWords) (p : ClockParams) :
    readField (encodeInto L W p) g = readField W g := by
  have hother : ∀ f ∈ L.paramFields, ∀ (V : RegWords) (v : Word), readField (writeField V f v) g = readField V g :=
    fun f hf => readField_writeField_other hL (param_mem_fields hf) (bit_mem_fields hg) (param_ne_bit hL hf hg)
  rw [encodeInto, hother _ (divOut_mem L), hother _ (loopc_mem L), hother _ (divRef_mem L)]

theorem decodeParams_writeField_bit {f : Field} (hf : f ∈ L.bitFields) (W : RegWords) (v : Word) :
    decodeParams L (writeField W f v) = decodeParams L W := by
  have hother : ∀ g ∈ L.paramFields, readField (writeField W f v) g = readField W g := fun g hg =>
    readField_writeField_other hL (bit_mem_fields hf) (param_mem_fields hg) (param_ne_bit hL hg hf).symm W v
  rw [decodeParams, hother _ (divRef_mem L), hother _ (loopc_mem L), hother _ (divOut_mem L), decodeParams]

/-! ### What encoding puts into the parameter fields (R156, R158) -/

/-- The field written last reads back cut to its width, whether or not the triple fits. -/
theorem divOut_decodeParams_encodeInto (W : RegWords) (p : ClockParams) :
    (decodeParams L (encodeInto L W p)).divOut = p.divOut &&& mask L.divOut.width :=
  readField_writeField_same (wf_inside hL (param_mem_fields (divOut_mem L))).2 _ _

theorem paramBit_lt {i k : Nat} (h : L.ParamBit i k) : k < 32 := by
  obtain ⟨f, hf, -, -, hk⟩ := h
  exact Nat.lt_of_lt_of_le hk (wf_inside hL (param_mem_fields hf)).2

/-- The parameter bits of an encoding do not depend on the register encoded into. -/
theorem getLsbD_encodeInto_congr {i k : Nat} (hi : i < 2) (h : L.ParamBit i k) (V W : RegWords) (p : ClockParams) :
    ((encodeInto L V p).get i).getLsbD k = ((encodeInto L W p).get i).getLsbD k := by
  have hk := paramBit_lt hL h
  have hword : ∀ f ∈ L.paramFields, f.word < 2 := fun f hf => wf_word_lt hL (param_mem_fields hf)
  refine getLsbD_writeField_congr (hword _ (divOut_mem L)) hi hk (fun hout => ?_) _
  refine getLsbD_writeField_congr (hword _ (loopc_mem L)) hi hk (fun hloopc => ?_) _
  refine getLsbD_writeField_congr (hword _ (divRef_mem L)) hi hk (fun href => ?_) _
  exact absurd h (by simp [Layout.ParamBit, Layout.paramFields, hout, hloopc, href])

/-- The image of a register's own triple is the register with every non-parameter bit cleared. -/
theorem getLsbD_encodeImage_decodeParams {i : Nat} (hi : i < 2) (k : Nat) (W : RegWords) :
    ((encodeImage L (decodeParams L W)).get i).getLsbD k = (decide (L.ParamBit i k) && (W.get i).getLsbD k) := by
  by_cases h : L.ParamBit i k
  · rw [encodeImage, getLsbD_encodeInto_congr hL hi h ⟨0, 0⟩ W, encodeInto_decodeParams, decide_eq_true h, Bool.true_and]
  · rw [getLsbD_encodeImage_outside hL hi h, decide_eq_false h, Bool.false_and]

end

end Sys2Proof.Machine

open Sys2Proof Sys2Proof.Machine

/-- Settles O29: each field reads back what was written, cut to its width; the six bits of 85 that `div_out` of variant 1
keeps are 21. -/
theorem decodeAfterEncodeIsTheTriple : Obligations.DecodeAfterEncodeIsTheTriple := by
  refine ⟨fun L W p hL hp => decodeParams_encodeInto hL hp W, fun V p hV => fits_of_lt_bounds hV, fun W d l => ?_⟩
  have hL : layout1.WF := by decide
  have hcut : (85 : Word) &&& mask layout1.divOut.width = 21 := by decide
  exact (divOut_decodeParams_encodeInto hL W ⟨d, l, 85⟩).trans hcut

/-- Settles O30: a parameter field shares no bit with a control or status field, and a reserved bit is in neither. -/
theorem stagingAndControlBitsDoNotInterfere : Obligations.StagingAndControlBitsDoNotInterfere := by
  intro L W p hL
  refine ⟨decodeStatus_congr fun g hg => readField_encodeInto_bit hL hg W p, fun i k hi hres => ?_,
    fun f hf v => decodeParams_writeField_bit hL hf W v⟩
  exact getLsbD_encodeInto_outside hL (Nat.lt_of_lt_of_le hi (wf_nwords_le hL)) (not_paramBit_of_reserved hres) W p

/-- Settles O31: writing back what a field holds changes nothing, and the parameter bits of the image are those of the
encoding into the register itself. -/
theorem encodeAfterDecodeIsTheRegister : Obligations.EncodeAfterDecodeIsTheRegister := by
  intro L W hL
  exact ⟨encodeInto_decodeParams L W, fun i k hi =>
    getLsbD_encodeImage_decodeParams hL (Nat.lt_of_lt_of_le hi (wf_nwords_le hL)) k W⟩
end

section
/-! An APPLY as a command (43_programmer R170, R171, R192, R193): its checks, what a programmable triple leaves in the target,
and what no APPLY touches. -/

namespace Sys2Proof.Machine

/-! ### The checks, and the sequence behind them (R171) -/

theorem exec_apply_refused {a b c : Word} {s : State} {st : Status} (h : applyRefusal hw ⟨a, b, c⟩ s = some st) :
    exec (.apply a b c) s = raise st s := by
  show applyCmd hw ⟨a, b, c⟩ s = _
  rw [applyCmd, h]

theorem exec_apply_of_programmable {a b c : Word} {s : State} (hvalid : s.handle.valid = true)
    (hp : Programmable s ⟨a, b, c⟩) : exec (.apply a b c) s = applySequence hw ⟨a, b, c⟩ s := by
  show applyCmd hw ⟨a, b, c⟩ s = _
  rw [applyCmd, applyRefusal_none hvalid hp.1 hp.2]

/-- An APPLY that answers was refused by its checks, or has run the sequence. -/
theorem exec_apply_cases {a b c : Word} {s t : State} (h : exec (.apply a b c) s = .next t) :
    (∃ st, t = respond st none none none none s) ∨ applySequence hw ⟨a, b, c⟩ s = .next t := by
  change applyCmd hw ⟨a, b, c⟩ s = .next t at h
  rcases applyCmd_cases hw ⟨a, b, c⟩ s with ⟨st, -, he⟩ | ⟨-, -, -, he⟩
  · exact Or.inl ⟨st, (next_inj (he.symm.trans h)).symm⟩
  · exact Or.inr (he.symm.trans h)

/-- Under the provisos an APPLY of a programmable triple completes (R192, R242, R273). -/
theorem exec_apply_completes {a b c : Word} {s : State} (hvalid : s.handle.valid = true) (hp : Programmable s ⟨a, b, c⟩)
    (hl : s.Live) (hwindow : s.WindowInside hw) :
    ∃ t, exec (.apply a b c) s = .next t ∧ Programmed (s.layout hw) ⟨a, b, c⟩ s.pll t.pll ∧
      t.cache = ⟨true, ⟨a, b, c⟩⟩ := by
  obtain ⟨t, ht⟩ : ∃ t, exec (.apply a b c) s = .next t := applyCmd_answers hl hwindow
  obtain ⟨u, -, rfl, hprogrammed⟩ := exec_apply_programs ht hvalid hp
  exact ⟨_, ht, hprogrammed, rfl⟩

/-! ### What the protocol does not move in the target -/

/-- On a one-word layout no read-modify-write reaches word 1. -/
theorem w1_rmws {L : Layout} (hone : L.nwords = 1) {rs : List Rmw} (hrs : ∀ r ∈ rs, r.word < L.nwords) (t : PllTarget) :
    (rs.foldl (Rmw.onTarget L) t).words.w1 = t.words.w1 := by
  induction rs generalizing t with
  | nil => rfl
  | cons r rs ih =>
    have hword : r.word = 0 := by have := hrs r List.mem_cons_self; omega
    rw [List.foldl_cons, ih fun x hx => hrs x (List.mem_cons_of_mem _ hx), onTarget_words, hword]
    rfl

/-- Where `set_param` is 1 already its SetBit makes no edge, so nothing commits (R67, R193). -/
theorem active_protocol_of_setParam {L : Layout} (hL : L.WF) {p : ClockParams} (hp : fits L p = true) {t : PllTarget}
    {f : Field} (hs : L.setParam = some f) (hset : readField t.words f = 1) :
    ((protocolRmws L p).foldl (Rmw.onTarget L) t).active = t.active := by
  obtain ⟨after, hsplit, hafter⟩ := exists_commit_first hL
  have hproper := proper_after_staging hL hp
  rw [hsplit] at hproper
  have hstaging : commitBit L ∉ writes (stagingRmws L p) := by
    have hcommit : commitBit L = (f, 1) := by rw [commitBit, hs]
    have hdistinct := (wf_bitsDistinct hL).setParam f hs
    have hparam := paramEdits_ne_bit (p := p) hL (setParam_mem hs)
    rw [hcommit, mem_writes_stagingRmws hL]
    grind
  have hstaged := (setParam_staged hL hp t hs).trans hset
  rw [protocolRmws_eq, List.foldl_append, hsplit, List.foldl_cons,
    active_rmws_of_not_mem hL (fun r hr => hproper r (List.mem_cons_of_mem _ hr)) hafter,
    Rmw.onTarget, write_active_of_not_commits hL (hproper _ List.mem_cons_self).word,
    active_rmws_of_not_mem hL (proper_stagingRmws hL hp) hstaging]
  intro hcommits
  rw [Commits, hs] at hcommits
  exact absurd (hstaged.symm.trans hcommits.1) (by decide)

/-- A completed sequence leaves the word that a one-word layout does not have. -/
theorem applySequence_keeps_w1 {p : ClockParams} {s t : State} (h : applySequence hw p s = .next t)
    (hone : (s.layout hw).nwords = 1) : t.pll.words.w1 = s.pll.words.w1 := by
  rw [applySequence_target hw_wf h]
  refine w1_rmws hone (fun r hr => ?_) _
  obtain ⟨q, -, hq⟩ := List.mem_flatMap.1 hr
  exact transitionRmws_word (wf_layout hw_wf s) hq

end Sys2Proof.Machine

open Sys2Proof Sys2Proof.Machine

/-- Settles O34: each check refuses with `raise`; a triple that passes them all is programmed. -/
theorem applyTestsOnlyHandleFitsAndZero : Obligations.ApplyTestsOnlyHandleFitsAndZero := by
  intro a b c s answer
  refine ⟨fun hvalid => exec_apply_refused ?_, fun hvalid hfits => exec_apply_refused ?_,
    fun hvalid hfits hzero => exec_apply_refused ?_, fun hvalid hfits ha hc hl hwindow => ?_⟩
  · simp [applyRefusal, hvalid]
  · simp [applyRefusal, hvalid, hfits]
  · have hzero' : zeroDivider ⟨a, b, c⟩ = true := zeroDivider_eq_true_iff.2 hzero
    simp [applyRefusal, hvalid, hfits, hzero']
  · have hzero : zeroDivider ⟨a, b, c⟩ = false := Bool.eq_false_iff.2 fun h => (zeroDivider_eq_true_iff.1 h).elim ha hc
    obtain ⟨t, ht, hprogrammed, -⟩ := exec_apply_completes hvalid ⟨hfits, hzero⟩ hl hwindow
    exact ⟨t, ht, hprogrammed.params⟩

/-- Settles O35: the parts of `Programmed`, and the cache that completion writes. -/
theorem applyLeavesTheRegisterProgrammed : Obligations.ApplyLeavesTheRegisterProgrammed := by
  intro a b c s hvalid hp hl hwindow
  obtain ⟨t, ht, h, hcache⟩ := exec_apply_completes hvalid hp hl hwindow
  exact ⟨t, ht, h.params, h.bypass, h.powerdown, h.selOut, h.setParam, h.reserved, hcache, h.active⟩

/-- Settles O36: the register is programmed as ever, but with `set_param` at 1 there is no commit event. -/
theorem applyWithCommitBitSetDoesNotCommit : Obligations.ApplyWithCommitBitSetDoesNotCommit := by
  intro a b c f s t hvalid hp hs hset h
  obtain ⟨-, -, -, hprogrammed⟩ := exec_apply_programs h hvalid hp
  rw [exec_apply_of_programmable hvalid hp] at h
  refine ⟨?_, hprogrammed.params⟩
  rw [applySequence_target hw_wf h]
  exact active_protocol_of_setParam (wf_layout hw_wf s) hp.1 hs hset

/-- Settles O38: a refusal only answers; a completed sequence keeps its frame, and word 1 where the layout has none. -/
theorem applyChangesNothingElse : Obligations.ApplyChangesNothingElse := by
  intro a b c s t h
  rcases exec_apply_cases h with ⟨st, rfl⟩ | hrun
  · exact ⟨rfl, rfl, rfl, rfl, rfl, rfl, rfl, rfl, ⟨[], rfl, by simp⟩, fun _ => rfl, rfl⟩
  · obtain ⟨u, hframe, htu, -⟩ := applySequence_result hw_wf hrun
    have hw1 := applySequence_keeps_w1 hrun
    obtain ⟨h0, h1, h2⟩ : u.rsp.res0 = s.rsp.res0 ∧ u.rsp.res1 = s.rsp.res1 ∧ u.rsp.res2 = s.rsp.res2 := by
      rw [hframe.rsp]; exact ⟨rfl, rfl, rfl⟩
    subst htu
    exact ⟨hframe.handle, hframe.cmd, hframe.search, h0, h1, h2, rfl, rfl, hframe.trace, hw1, hframe.env⟩
end

section
/-! The port events and the lock wait of an APPLY (43_programmer R182, R183, R186, R187, R191, R194): which events each part of
the sequence makes, which lock draws it uses, and what the wait reports. -/

namespace Sys2Proof.Machine

/-! ### Port events (R191, R194) -/

/-- Every write among port events, the newest first, stands right before a read of the same word at the same address. -/
def WritesFollowReads (new : List PortEvent) : Prop :=
  ∀ (later earlier : List PortEvent) (i : Nat) (ad v : Word),
    new = later ++ .write i ad v :: earlier → ∃ u rest, earlier = .read i ad u :: rest

theorem WritesFollowReads.append {new old : List PortEvent} (hnew : WritesFollowReads new) (hold : WritesFollowReads old) :
    WritesFollowReads (new ++ old) := by
  intro later earlier i ad v h
  rcases List.append_eq_append_iff.1 h with ⟨mid, -, hmid⟩ | ⟨mid, hmid, hrest⟩
  · exact hold mid earlier i ad v hmid
  · cases mid with
    | nil => exact hold [] earlier i ad v hrest.symm
    | cons e es =>
      obtain ⟨he, hes⟩ := List.cons.inj hrest
      subst he
      obtain ⟨u, rest, hread⟩ := hnew later es i ad v hmid
      exact ⟨u, rest ++ old, by rw [hes, hread]; rfl⟩

theorem writesFollowReads_of_no_write {new : List PortEvent} (h : ∀ e ∈ new, e.isWrite = false) : WritesFollowReads new := by
  rintro later earlier i ad v rfl
  exact absurd (h (.write i ad v) (by simp)) (by simp [PortEvent.isWrite])

theorem writesFollowReads_rmw (i : Nat) (ad v u : Word) : WritesFollowReads [.write i ad v, .read i ad u] := by
  intro later earlier j ad' v' h
  cases later with
  | nil =>
    cases h
    exact ⟨u, [], rfl⟩
  | cons e later =>
    have hread : PortEvent.write j ad' v' ∈ [PortEvent.read i ad u] := by rw [(List.cons.inj h).2]; simp
    simp at hread

/-- The port events between two states: `n` bus transactions in which writes follow reads, and these delays. -/
def Traffic (n : Nat) (delays : List PortEvent) (s t : State) : Prop :=
  ∃ new, t.trace = new ++ s.trace ∧ WritesFollowReads new ∧ (new.filter PortEvent.isBus).length = n ∧
    new.filter PortEvent.isDelay = delays

theorem Traffic.of_same {s t : State} (h : t.trace = s.trace) : Traffic 0 [] s t :=
  ⟨[], h, writesFollowReads_of_no_write (by simp), rfl, rfl⟩

theorem Traffic.trans {m n : Nat} {ds es : List PortEvent} {s t u : State} (h : Traffic m ds s t) (k : Traffic n es t u) :
    Traffic (m + n) (es ++ ds) s u := by
  obtain ⟨old, hold, hwold, hmold, hdold⟩ := h
  obtain ⟨new, hnew, hwnew, hmnew, hdnew⟩ := k
  refine ⟨new ++ old, by rw [hnew, hold, List.append_assoc], hwnew.append hwold, ?_, ?_⟩
  · rw [List.filter_append, List.length_append, hmold, hmnew, Nat.add_comm]
  · rw [List.filter_append, hdold, hdnew]

/-! ### The events and the lock draws of read-modify-writes (R174) -/

/-- How many of these read-modify-writes read the word that holds `locked`, each using up one draw (R66). -/
def lockReads (L : Layout) (rs : List Rmw) : Nat := (rs.filter fun r => r.word == L.locked.word).length

theorem lockReads_append (L : Layout) (rs qs : List Rmw) : lockReads L (rs ++ qs) = lockReads L rs + lockReads L qs := by
  rw [lockReads, List.filter_append, List.length_append]
  rfl

section
variable {cfg : Config} {s t : State}

theorem runRmw_traffic {r : Rmw} (h : runRmw cfg r s = .next t) : Traffic 2 [] s t := by
  obtain ⟨-, htrace, -, -⟩ := runRmw_eq_next h
  exact ⟨_, htrace, writesFollowReads_rmw _ _ _ _, rfl, rfl⟩

theorem runRmw_lockPos {r : Rmw} (h : runRmw cfg r s = .next t) :
    t.env.lockPos = s.env.lockPos + lockReads (s.layout cfg) [r] := by
  obtain ⟨-, -, -, hpos⟩ := runRmw_eq_next h
  rw [hpos, lockReads]
  by_cases hr : r.word = (s.layout cfg).locked.word <;> simp [hr]

theorem runRmws_traffic {rs : List Rmw} (h : runRmws cfg rs s = .next t) : Traffic (2 * rs.length) [] s t := by
  induction rs generalizing s with
  | nil => cases h; exact .of_same rfl
  | cons r rs ih =>
    obtain ⟨u, hu, ht⟩ := andThen_eq_next.1 h
    rw [List.length_cons, Nat.mul_add, Nat.add_comm]
    exact (runRmw_traffic hu).trans (ih ht)

theorem runRmws_lockPos {rs : List Rmw} (h : runRmws cfg rs s = .next t) :
    t.env.lockPos = s.env.lockPos + lockReads (s.layout cfg) rs := by
  induction rs generalizing s with
  | nil => cases h; rfl
  | cons r rs ih =>
    obtain ⟨u, hu, ht⟩ := andThen_eq_next.1 h
    rw [ih ht, (runRmw_frame hu).layout, runRmw_lockPos hu, Nat.add_assoc, ← lockReads_append, List.singleton_append]

theorem transitions_traffic {p : ClockParams} {qs : List Fsm} (h : transitions cfg p qs s = .next t) :
    Traffic (2 * (qs.flatMap (transitionRmws (s.layout cfg) p)).length) [] s t ∧
      t.env.lockPos = s.env.lockPos + lockReads (s.layout cfg) (qs.flatMap (transitionRmws (s.layout cfg) p)) := by
  induction qs generalizing s with
  | nil => cases h; exact ⟨.of_same rfl, rfl⟩
  | cons q qs ih =>
    obtain ⟨u, hu, ht⟩ := andThen_eq_next.1 h
    obtain ⟨v, hv, hframe, -, henv, htrace, -⟩ := transition_eq_next hu
    obtain ⟨htraffic, hpos⟩ := ih ht
    rw [hframe.layout] at htraffic hpos
    refine ⟨?_, ?_⟩
    · rw [List.flatMap_cons, List.length_append, Nat.mul_add]
      exact ((runRmws_traffic hv).trans (.of_same htrace)).trans htraffic
    · rw [hpos, henv, runRmws_lockPos hv, List.flatMap_cons, lockReads_append, Nat.add_assoc]

theorem settle_traffic (h : settle cfg s = .next t) :
    Traffic 0 (if s.prepollDelayUs cfg = 0 then [] else [.delay (s.prepollDelayUs cfg)]) s t := by
  obtain ⟨-, -, -, -, htrace⟩ := settle_eq_next h
  by_cases hnone : s.prepollDelayUs cfg = 0
  · rw [if_pos hnone] at htrace ⊢
    exact .of_same htrace
  · rw [if_neg hnone] at htrace ⊢
    exact ⟨_, htrace, writesFollowReads_of_no_write (by simp [PortEvent.isWrite]), rfl, rfl⟩

end

/-- A list of reads as events. -/
theorem Traffic.of_reads {s t : State} {new : List PortEvent} (h : t.trace = new ++ s.trace)
    (hreads : ∀ e ∈ new, ∃ i ad v, e = .read i ad v) : Traffic new.length [] s t := by
  refine ⟨new, h, writesFollowReads_of_no_write fun e he => ?_, ?_, ?_⟩
  · obtain ⟨i, ad, v, rfl⟩ := hreads e he
    rfl
  · rw [List.filter_eq_self.2]
    intro e he
    obtain ⟨i, ad, v, rfl⟩ := hreads e he
    rfl
  · rw [List.filter_eq_nil_iff]
    intro e he
    obtain ⟨i, ad, v, rfl⟩ := hreads e he
    simp [PortEvent.isDelay]

/-! ### The wait (R182, R183) -/

/-- The wait after which `m` polls have been made, by the draws in the order of the polls: it ended with the first draw of 1,
or without one after LOCK_POLL_MAX polls. -/
structure WaitEnds (draw : Nat → Bool) (m : Nat) (timeout : Bool) : Prop where
  pos : 0 < m
  le : m ≤ lockPollMax
  before : ∀ j, j + 1 < m → draw j = false
  last : if draw (m - 1) then timeout = false else m = lockPollMax ∧ timeout = true

/-- A draw of 1 that comes first ends the wait, with the lock seen. -/
theorem WaitEnds.of_first {draw : Nat → Bool} {m n : Nat} {timeout : Bool} (h : WaitEnds draw m timeout)
    (hn : n < lockPollMax) (hbefore : ∀ j, j < n → draw j = false) (hdraw : draw n = true) :
    m = n + 1 ∧ timeout = false := by
  obtain ⟨hpos, hle, hno, hlast⟩ := h
  have hm : ¬ n + 1 < m := fun hlt => by rw [hno n hlt] at hdraw; cases hdraw
  by_cases hend : m = n + 1
  · subst hend
    rw [if_pos (show draw (n + 1 - 1) = true from hdraw)] at hlast
    exact ⟨rfl, hlast⟩
  · rw [if_neg (by simp [hbefore (m - 1) (by omega)])] at hlast
    omega

/-- With no draw of 1 the wait makes all its polls and times out. -/
theorem WaitEnds.of_never {draw : Nat → Bool} {m : Nat} {timeout : Bool} (h : WaitEnds draw m timeout)
    (hnever : ∀ j, j < lockPollMax → draw j = false) : m = lockPollMax ∧ timeout = true := by
  obtain ⟨hpos, hle, -, hlast⟩ := h
  rwa [if_neg (by simp [hnever (m - 1) (by omega)])] at hlast

/-- The events and the end of the wait that begins with LOCK_ITERS = 0 (R181, R182). -/
theorem pollWait_traffic_wait {cfg : Config} (hc : cfg.WF) {s t : State} (h : pollWait cfg lockPollMax s = .next t)
    (hiters : s.seq.lockIters = 0) (hsub : s.seq.sub = 0) :
    Traffic t.seq.lockIters.toNat [] s t ∧
      WaitEnds (fun n => s.env.lockAt (s.env.lockPos + n)) t.seq.lockIters.toNat t.seq.lockTimeout := by
  have hzero : s.seq.lockIters.toNat = 0 := by rw [hiters]; rfl
  obtain ⟨-, -, -, -, m, hpos, hle, hm, -, -, hbefore, hlast, new, hnew, hlen, hreads⟩ :=
    pollWait_eq_next hc h (by rw [hzero, Nat.zero_add]) (by decide) hsub
  rw [hm, hzero, Nat.zero_add]
  exact ⟨hlen ▸ Traffic.of_reads hnew fun e he => ⟨_, _, hreads e he⟩, hpos, hle, hbefore, hlast⟩

/-- The events of a completed sequence and the end of its wait (R189, R194). -/
theorem applySequence_traffic_wait {cfg : Config} (hc : cfg.WF) {p : ClockParams} {s t : State}
    (h : applySequence cfg p s = .next t) :
    Traffic (2 * (protocolRmws (s.layout cfg) p).length + t.seq.lockIters.toNat)
        (if s.prepollDelayUs cfg = 0 then [] else [.delay (s.prepollDelayUs cfg)]) s t ∧
      WaitEnds (fun n => s.env.lockAt (s.env.lockPos + lockReadsBeforePolls (s.layout cfg) p + n))
        t.seq.lockIters.toNat t.seq.lockTimeout := by
  obtain ⟨s1, s2, s3, s4, h1, h2, h3, h4, rfl⟩ := applySequence_eq_next h
  obtain ⟨f1, -⟩ := transitions_frame h1 (by decide)
  obtain ⟨f2, -, henv2, hseq2, -⟩ := settle_eq_next h2
  obtain ⟨f3, -⟩ := pollWait_eq_next hc h3 (by rw [hseq2]; rfl) (by decide) (by rw [hseq2])
  obtain ⟨-, hiters4, htimeout4, -⟩ := transitions_frame h4 (by decide)
  obtain ⟨k1, hpos1⟩ := transitions_traffic h1
  obtain ⟨k3, hwait⟩ := pollWait_traffic_wait hc h3 (by rw [hseq2]) (by rw [hseq2])
  obtain ⟨k4, -⟩ := transitions_traffic h4
  have hlayout : s3.layout cfg = s.layout cfg := ((f1.trans f2).trans f3).layout cfg
  have hdelay : s1.prepollDelayUs cfg = s.prepollDelayUs cfg := by rw [State.prepollDelayUs, f1.handle]; rfl
  have hdraw : ∀ n, s2.env.lockAt (s2.env.lockPos + n) =
      s.env.lockAt (s.env.lockPos + lockReadsBeforePolls (s.layout cfg) p + n) := fun n => by
    rw [(f1.trans f2).lockAt, henv2, hpos1]
    rfl
  simp only [hdraw] at hwait
  rw [complete_seq, hiters4, htimeout4]
  refine ⟨?_, hwait⟩
  have k := ((((Traffic.of_same (s := s) (t := unsettle s) rfl).trans k1).trans (settle_traffic h2)).trans k3).trans
    (k4.trans (.of_same (t := complete p s4) rfl))
  rw [hdelay, hlayout] at k
  rw [protocolRmws, List.flatMap_append, List.length_append, Nat.mul_add, Nat.add_right_comm]
  simpa using k

/-- What a completed sequence answers, by the lock registers (R186, R187). -/
theorem applySequence_rsp {cfg : Config} (hc : cfg.WF) {p : ClockParams} {s t : State} (h : applySequence cfg p s = .next t) :
    t.rsp =
      { s.rsp with
        status := if t.seq.lockTimeout then .warnLockTimeout else .ok
        res3 := BitVec.ofNat 32 t.seq.lockIters.toNat
        valid := true } := by
  obtain ⟨u, hframe, rfl, -⟩ := applySequence_result hc h
  rw [complete_rsp, hframe.rsp, complete_seq, BitVec.ofNat_toNat]
  rfl

/-! ### The reference variants (R194) -/

theorem variant_cases (v : BitVec 2) : v = 0 ∨ v = 1 ∨ v = 2 ∨ v = 3 := by
  revert v; decide

theorem hw_protocolRmws_length (p : ClockParams) (s : State) :
    2 * (protocolRmws (s.layout hw) p).length =
      if s.handle.variant = 0 then 20 else if s.handle.variant = 1 then 16 else if s.handle.variant = 2 then 14 else 10 := by
  rw [State.layout]
  rcases variant_cases s.handle.variant with hv | hv | hv | hv <;> rw [hv] <;> rfl

theorem hw_prepollDelayUs (s : State) :
    s.prepollDelayUs hw = if s.handle.variant = 1 ∨ s.handle.variant = 3 then 1 else 0 := by
  rw [State.prepollDelayUs]
  rcases variant_cases s.handle.variant with hv | hv | hv | hv <;> rw [hv] <;> rfl

end Sys2Proof.Machine

open Sys2Proof Sys2Proof.Machine

/-- Settles O37: the wait ends as `WaitEnds` says of the draws after those of steps 1 to 6, and completion reports it. -/
theorem applyReportsTheLockWait : Obligations.ApplyReportsTheLockWait := by
  intro a b c s hvalid hp hl hwindow draw
  obtain ⟨t, ht, -⟩ := exec_apply_completes hvalid hp hl hwindow
  have hrun := (exec_apply_of_programmable hvalid hp).symm.trans ht
  obtain ⟨-, hwait⟩ := applySequence_traffic_wait hw_wf hrun
  have hrsp := applySequence_rsp hw_wf hrun
  refine ⟨fun n hn hbefore hdraw => ?_, fun hnever => ?_⟩
  · obtain ⟨hiters, htimeout⟩ := hwait.of_first hn hbefore hdraw
    exact ⟨t, ht, by rw [hrsp, hiters, htimeout]; rfl, hiters, htimeout⟩
  · obtain ⟨hiters, htimeout⟩ := hwait.of_never hnever
    exact ⟨t, ht, by rw [hrsp, hiters, htimeout]; rfl, hiters, htimeout⟩

/-- Settles O39: two transactions for each read-modify-write of the variant's protocol, one for each poll. -/
theorem applyTransactionCounts : Obligations.ApplyTransactionCounts := by
  intro a b c s t hvalid hp h
  rw [exec_apply_of_programmable hvalid hp] at h
  obtain ⟨⟨new, hnew, -, hbus, hdelay⟩, hwait⟩ := applySequence_traffic_wait hw_wf h
  refine ⟨new, hnew, ?_, hwait.pos, hwait.le, ?_⟩
  · rw [hbus, hw_protocolRmws_length]
  · rw [hdelay, hw_prepollDelayUs]
    split <;> rfl

/-- Settles O40: a refused APPLY makes no event, and the events of a completed one are those of its traffic. -/
theorem applyWritesFollowReads : Obligations.ApplyWritesFollowReads := by
  intro a b c s t new h hnew
  rcases exec_apply_cases h with ⟨st, rfl⟩ | hrun
  · have hnil : new = [] := List.append_left_eq_self.1 hnew.symm
    exact hnil ▸ writesFollowReads_of_no_write (by simp)
  · obtain ⟨⟨new', hnew', hwrites, -, -⟩, -⟩ := applySequence_traffic_wait hw_wf hrun
    rw [List.append_cancel_right (hnew.symm.trans hnew')]
    exact hwrites
end

section
/-! The SetBits of the protocol, clock by clock (43_programmer R174 to R177, R179, R180, R184, R185): the two steps that make one
read-modify-write, and what a SetBit does to the register. -/

namespace Sys2Proof.Machine

/-! ### A SetBit on the target (R174) -/

/-- Field `f` takes the value `v`, and every other stored bit but `locked` is as before (R174). -/
def SetsOnly (L : Layout) (f : Field) (v : Word) (before after : PllTarget) : Prop :=
  readField after.words f = v ∧
    ∀ i k, i < L.nwords → ¬ Field.Holds f i k → ¬ Field.Holds L.locked i k →
      (after.words.get i).getLsbD k = (before.words.get i).getLsbD k

theorem setsOnly_setBit {L : Layout} (hL : L.WF) {f : Field} {v : Word} (hf : f ∈ L.bitFields) (hn : f ≠ L.locked)
    (hv : v = 0 ∨ v = 1) (t : PllTarget) : SetsOnly L f v t ((setBit f v).onTarget L t) := by
  have hwords : ((setBit f v).onTarget L t).words =
      t.words.set f.word (storedValue L f.word ((setBit f v).edit (t.words.get f.word))) := rfl
  refine ⟨?_, fun i k hi hfield hlocked => ?_⟩
  · exact readField_rmw_same hL (proper_setBit hL hf hn hv) (e := (f, v)) List.mem_cons_self _ _
  · rw [hwords]
    by_cases hword : i = f.word
    · subst hword
      rw [RegWords.get_set_same, getLsbD_storedValue _ _ _ _ hlocked, getLsbD_edit_outside]
      intro e he hb
      rw [List.mem_singleton.1 he] at hb
      exact hfield ⟨rfl, hb⟩
    · rw [RegWords.get_set_other _ _ _ _ (wf_word_lt hL (bit_mem_fields hf)) (Nat.lt_of_lt_of_le hi (wf_nwords_le hL)) hword]

/-! ### The two steps of a read-modify-write (R31, R174) -/

theorem not_polling_of_sub {s : State} {n : Nat} (hsub : s.seq.sub.toNat = s.seq.fsm.firstSub + n) : ¬ Polling s := by
  rintro ⟨hwait, hzero⟩
  have hnat : (0 : BitVec 3).toNat = 0 := rfl
  rw [hwait, hzero, hnat, firstSub_waitingLock] at hsub
  omega

section
variable {s : State} {j : Nat} {r : Rmw} (hhost : s.env.host = []) (hl : s.Live) (hq : s.seq.fsm.rewrites)
  (hr : (transitionRmws (s.layout hw) s.cmd.params s.seq.fsm)[j]? = some r) (hin : s.inAddressSpace r.word = true)
include hhost hq

/-- With no input a step in such a transition is one clock of its read-modify-writes. -/
theorem step_rewrites (hp : ¬ Polling s) :
    step s =
      rmwTick hw (transitionRmws (s.layout hw) s.cmd.params s.seq.fsm) s.seq.fsm.firstSub s.seq.fsm (endPulse s) := by
  rw [step_noInput hhost, advance_inApply (s := endPulse s) hq.1]
  exact applyTick_rewrites (s := endPulse s) hq hp

include hl hr hin

/-- The step that makes the read of read-modify-write `j`. -/
theorem step_read (hsub : s.seq.sub.toNat = s.seq.fsm.firstSub + 2 * j) :
    step s = .next (readEffect hw r.word (endPulse s).counted).nextSub := by
  have hindex : (endPulse s).seq.sub.toNat - s.seq.fsm.firstSub = 2 * j := by rw [endPulse_seq]; omega
  rw [step_rewrites hhost hq (not_polling_of_sub hsub),
    rmwTick_read (r := r) (by rw [hindex, ← hr]; congr 1; omega) (by rw [hindex]; omega),
    busRead_live (s := endPulse s) hl hin, andThen_next]

/-- The step that makes its write, and ends the transition after the last. -/
theorem step_write (hsub : s.seq.sub.toNat = s.seq.fsm.firstSub + (2 * j + 1)) :
    ∃ t, step s = .next t ∧ t.pll = s.pll.write (s.layout hw) r.word (r.edit (s.seq.read.get r.word)) ∧
      (t.seq.fsm, t.seq.sub) =
        if j + 1 = (transitionRmws (s.layout hw) s.cmd.params s.seq.fsm).length then (s.seq.fsm.next, 0)
        else (s.seq.fsm, s.seq.sub + 1) := by
  have hindex : (endPulse s).seq.sub.toNat - s.seq.fsm.firstSub = 2 * j + 1 := by rw [endPulse_seq]; omega
  rw [step_rewrites hhost hq (not_polling_of_sub hsub),
    rmwTick_write (r := r) (by rw [hindex, ← hr]; congr 1; omega) (by rw [hindex]; omega),
    rmwWrite, busWrite_live (s := endPulse s) hl hin, andThen_next, hindex]
  by_cases hlast : j + 1 = (transitionRmws (s.layout hw) s.cmd.params s.seq.fsm).length
  · rw [if_pos (by omega), if_pos hlast]
    exact ⟨_, rfl, rfl, rfl⟩
  · rw [if_neg (by omega), if_neg hlast]
    exact ⟨_, rfl, rfl, rfl⟩

/-- Read-modify-write `j` of a transition is two steps: the first reads, the second writes and, after the last, ends the
transition. -/
theorem two_steps_rmw (hsub : s.seq.sub.toNat = s.seq.fsm.firstSub + 2 * j) :
    ∃ u t, step s = .next u ∧ u.seq.fsm = s.seq.fsm ∧ u.seq.sub = s.seq.sub + 1 ∧ u.pll = s.pll ∧
      step u = .next t ∧ t.pll = r.onTarget (s.layout hw) s.pll ∧
      (t.seq.fsm, t.seq.sub) =
        if j + 1 = (transitionRmws (s.layout hw) s.cmd.params s.seq.fsm).length then (s.seq.fsm.next, 0)
        else (s.seq.fsm, s.seq.sub + 2) := by
  have hlen := transitionRmws_length (wf_layout hw_wf s) s.cmd.params s.seq.fsm
  have hj := (List.getElem?_eq_some_iff.1 hr).1
  have hsub' : (s.seq.sub + 1).toNat = s.seq.fsm.firstSub + (2 * j + 1) := by bv_omega
  obtain ⟨t, ht, hpll, hseq⟩ :=
    step_write (s := (readEffect hw r.word (endPulse s).counted).nextSub) hhost hl hq hr hin hsub'
  refine ⟨_, t, step_read hhost hl hq hr hin hsub, rfl, rfl, rfl, ht, ?_, ?_⟩
  · rw [hpll, nextSub_seq, read_readEffect]
    exact write_congr (storedValue_edit_congr r (storedValue_readValue hw s r.word)) _
  · have htwo : s.seq.sub + 1 + 1 = s.seq.sub + 2 := BitVec.add_assoc _ _ _
    rw [← htwo]
    exact hseq

end

/-! ### The SetBits of the protocol -/

/-- At SUB = `k` of the transition out of `q` stands the SetBit of `f` to `v`, which leaves FSM = `q'` and SUB = `k'`. -/
structure SetBitAt (L : Layout) (p : ClockParams) (q : Fsm) (k : BitVec 3) (f : Field) (v : Word) (q' : Fsm) (k' : BitVec 3) :
    Prop where
  rewrites : q.rewrites
  field : f ∈ L.bitFields ∧ f ≠ L.locked
  value : v = 0 ∨ v = 1
  place : ∃ before after, transitionRmws L p q = before ++ setBit f v :: after ∧
    k.toNat = q.firstSub + 2 * before.length ∧ (q', k') = if after = [] then (q.next, 0) else (q, k + 2)

theorem SetBitAt.two_steps {s : State} {q q' : Fsm} {k k' : BitVec 3} {f : Field} {v : Word}
    (h : SetBitAt (s.layout hw) s.cmd.params q k f v q' k') (hfsm : s.seq.fsm = q) (hsub : s.seq.sub = k)
    (hhost : s.env.host = []) (hl : s.Live) (hwindow : s.WindowInside hw) :
    ∃ u t, step s = .next u ∧ u.seq.fsm = q ∧ u.seq.sub = k + 1 ∧ u.pll = s.pll ∧
      step u = .next t ∧ t.seq.fsm = q' ∧ t.seq.sub = k' ∧ SetsOnly (s.layout hw) f v s.pll t.pll := by
  subst hfsm hsub
  obtain ⟨hq, ⟨hf, hn⟩, hv, before, after, hsplit, hindex, hend⟩ := h
  have hr : (transitionRmws (s.layout hw) s.cmd.params s.seq.fsm)[before.length]? = some (setBit f v) := by
    rw [hsplit]; simp
  have hlast : before.length + 1 = (transitionRmws (s.layout hw) s.cmd.params s.seq.fsm).length ↔ after = [] := by
    rw [hsplit, ← List.length_eq_zero_iff]; simp
  have hL := wf_layout hw_wf s
  have hin : s.inAddressSpace (setBit f v).word = true :=
    inAddressSpace_of_window hwindow (wf_inside hL (bit_mem_fields hf)).1
  obtain ⟨u, t, hstep, hfsm, hsub, hpll, hstep', hpll', hseq⟩ := two_steps_rmw hhost hl hq hr hin hindex
  simp only [hlast] at hseq
  obtain ⟨hfsm', hsub'⟩ := Prod.mk.inj (hseq.trans hend.symm)
  exact ⟨u, t, hstep, hfsm, hsub, hpll, hstep', hfsm', hsub', hpll' ▸ setsOnly_setBit hL hf hn hv s.pll⟩

/-- Accepted at the fine granularity, an APPLY of a programmable triple makes step 1 (R33, R175; log 13). -/
theorem begin_apply {a b c : Word} {s : State} (hvalid : s.handle.valid = true) (hp : Programmable s ⟨a, b, c⟩) :
    begin hw (encode (.apply a b c)) s = transition hw ⟨a, b, c⟩ .idle (unsettle s) := by
  simp only [begin, decode_encode]
  rw [applyBegin, applyRefusal_none hvalid hp.1 hp.2]

/-- Step 1 is one SetBit. -/
theorem transition_idle_setsOnly {p : ClockParams} {s : State} (hl : s.Live) (hwindow : s.WindowInside hw) :
    ∃ t, transition hw p .idle s = .next t ∧ t.seq.fsm = .bypassed ∧ t.seq.sub = 0 ∧ t.cmd = s.cmd ∧
      SetsOnly (s.layout hw) (s.layout hw).bypass 1 s.pll t.pll := by
  have hL := wf_layout hw_wf s
  obtain ⟨t, ht⟩ := transition_live (p := p) (q := .idle) hl fun r hr =>
    inAddressSpace_of_window hwindow (transitionRmws_word hL hr)
  obtain ⟨u, hu, hframe, hpll, -, -, hseq⟩ := transition_eq_next ht
  refine ⟨t, ht, by rw [hseq]; rfl, by rw [hseq], hframe.cmd, ?_⟩
  rw [hpll, runRmws_target hu]
  exact setsOnly_setBit hL (bypass_mem _) (wf_bitsDistinct hL).bypass_locked (Or.inr rfl) _

end Sys2Proof.Machine

open Sys2Proof Sys2Proof.Machine

/-- Settles O41: the seven places of the SetBits after step 1, and step 1 at the acceptance. -/
theorem twoStepsMakeOneSetBit : Obligations.TwoStepsMakeOneSetBit := by
  refine ⟨fun q q' k k' f v s hfsm hsub hhost hl hwindow hplace => ?_,
    fun a b c rest s hq hfine hhost hvalid hp hl hwindow => ?_⟩
  · have hL := wf_layout hw_wf s
    have hd := wf_bitsDistinct hL
    suffices hat : SetBitAt (s.layout hw) s.cmd.params q k f v q' k' from hat.two_steps hfsm hsub hhost hl hwindow
    clear hfsm hsub
    rcases hplace with ⟨rfl, rfl, hs, rfl, rfl, rfl⟩ | ⟨rfl, rfl, rfl, rfl, rfl, rfl⟩ | ⟨rfl, rfl, hs, rfl, rfl, rfl⟩ |
      ⟨rfl, rfl, hs, rfl, rfl, rfl⟩ | ⟨rfl, rfl, rfl, rfl, rfl, rfl⟩ | ⟨rfl, rfl, hs, rfl, rfl, rfl⟩ |
      ⟨rfl, rfl, rfl, rfl, rfl, rfl⟩
    · exact ⟨⟨rfl, by decide, by decide⟩, selOut_bit hL f hs, Or.inl rfl, [], _, by rw [transitionRmws, hs]; rfl, rfl, rfl⟩
    · exact ⟨⟨rfl, by decide, by decide⟩, ⟨powerdown_mem _, hd.powerdown_locked⟩, Or.inr rfl, [], [], rfl, rfl, rfl⟩
    · exact ⟨⟨rfl, by decide, by decide⟩, setParam_bit hL f hs, Or.inr rfl, [], _, by rw [transitionRmws, hs]; rfl, rfl, rfl⟩
    · exact ⟨⟨rfl, by decide, by decide⟩, setParam_bit hL f hs, Or.inl rfl, [_], _, by rw [transitionRmws, hs]; rfl, rfl, rfl⟩
    · exact ⟨⟨rfl, by decide, by decide⟩, ⟨powerdown_mem _, hd.powerdown_locked⟩, Or.inl rfl, [], [], rfl, rfl, rfl⟩
    · exact ⟨⟨rfl, by decide, by decide⟩, selOut_bit hL f hs, Or.inr rfl, [], _, by rw [transitionRmws, hs]; rfl, rfl, rfl⟩
    · exact ⟨⟨rfl, by decide, by decide⟩, ⟨bypass_mem _, hd.bypass_locked⟩, Or.inl rfl, [], [], rfl, rfl, rfl⟩
  · have hstep : step s = transition hw ⟨a, b, c⟩ .idle
        (unsettle (accept (encode (.apply a b c)) (withHost rest (endPulse s)))) := by
      rw [step_accept hq hhost, acceptAndRun]
      exact (if_pos hfine).trans (begin_apply hvalid hp)
    rw [accept_encode] at hstep
    obtain ⟨t, ht, hfsm, hsub, hcmd, honly⟩ := transition_idle_setsOnly (p := ⟨a, b, c⟩)
      (s := unsettle { withHost rest (endPulse s) with cmd := ⟨8, a, b, c⟩ }) hl hwindow
    exact ⟨t, hstep.trans ht, hfsm, hsub, hcmd, honly⟩
end

section
/-! READFREQ after an APPLY (43_programmer R192, 44_readback R210 to R212): what the reads latch, and what is answered from it. -/

namespace Sys2Proof.Machine

/-! ### What READFREQ reads (R211) -/

/-- The read latch holds word `i` of the register, `locked` apart (R66, R210). -/
def Latched (cfg : Config) (s : State) (i : Nat) : Prop :=
  storedValue (s.layout cfg) i (s.seq.read.get i) = storedValue (s.layout cfg) i (s.pll.words.get i)

section
variable {cfg : Config} {s t : State}

theorem latched_readEffect {i j : Nat} (hi : i < 2) (hj : j < 2) (h : j = i ∨ Latched cfg s j) :
    Latched cfg (readEffect cfg i s.counted) j := by
  by_cases hji : j = i
  · subst hji
    rw [Latched, read_readEffect]
    exact storedValue_readValue cfg s j
  · have hkeep : (readEffect cfg i s.counted).seq.read.get j = s.seq.read.get j := RegWords.get_set_other _ _ _ _ hi hj hji
    rw [Latched, hkeep]
    exact h.resolve_left hji

/-- After the reads every word read is latched, and what was latched before still is. -/
theorem latched_readAll {is : List Nat} (h : readAll cfg is s = .next t) (his : ∀ i ∈ is, i < 2) {j : Nat} (hj : j < 2)
    (hjs : j ∈ is ∨ Latched cfg s j) : Latched cfg t j := by
  induction is generalizing s with
  | nil =>
    cases h
    exact hjs.resolve_left List.not_mem_nil
  | cons i is ih =>
    obtain ⟨u, hu, ht⟩ := andThen_eq_next.1 h
    cases busRead_eq_next hu
    refine ih ht (fun x hx => his x (List.mem_cons_of_mem _ hx)) ?_
    have hread := latched_readEffect (cfg := cfg) (s := s) (his i List.mem_cons_self) hj
    rw [List.mem_cons, or_assoc] at hjs
    tauto

/-- A latched word shows every field of the register but `locked` (R212). -/
theorem Latched.shows_field (hL : (s.layout cfg).WF) {f : Field} (h : Latched cfg s f.word)
    (hf : f ∈ (s.layout cfg).fields) (hn : f ≠ (s.layout cfg).locked) :
    readField s.seq.read f = readField s.pll.words f := by
  have hfield := congrArg (extract · f) h
  simp only [extract_storedValue hL hf hn] at hfield
  exact hfield

/-- A READFREQ that has read every word answers from the parameter fields of the register (R210, R212). -/
theorem decodeParams_readAll (hc : cfg.WF) (h : readAll cfg (List.range (s.layout cfg).nwords) s = .next t) :
    decodeParams (s.layout cfg) t.seq.read = decodeParams (s.layout cfg) s.pll.words := by
  obtain ⟨hframe, hpll⟩ := readAll_frame h
  have hL := wf_layout hc s
  have hparam : ∀ f ∈ (s.layout cfg).paramFields, readField t.seq.read f = readField s.pll.words f := by
    intro f hf
    have hword := (wf_inside hL (param_mem_fields hf)).1
    have hlatched : Latched cfg t f.word :=
      latched_readAll h (fun i hi => Nat.lt_of_lt_of_le (List.mem_range.1 hi) (wf_nwords_le hL))
        (wf_word_lt hL (param_mem_fields hf)) (Or.inl (List.mem_range.2 hword))
    rw [← hpll]
    exact hlatched.shows_field (wf_layout hc t) (by rw [hframe.layout]; exact param_mem_fields hf)
      (by rw [hframe.layout]; exact param_ne_locked hL hf)
  rw [decodeParams, decodeParams, hparam _ (divRef_mem _), hparam _ (loopc_mem _), hparam _ (divOut_mem _)]

end

/-! ### What READFREQ answers (R210) -/

theorem respondFreq_ok {cfg : Config} {p : ClockParams} {s : State} (hp : decodeParams (s.layout cfg) s.seq.read = p)
    (hzero : zeroDivider p = false) :
    respondFreq cfg s = respond .ok (some (BitVec.ofNat 32 (freq s.handle.refKhz.toNat p))) none none none s := by
  rw [respondFreq, hp]
  exact if_neg (by simp [hzero])

/-- From a register that holds a triple with no zero divider READFREQ answers its frequency (R210, R212). -/
theorem exec_readfreq_ok {a b c : Word} {p : ClockParams} {s : State} (hvalid : s.handle.valid = true) (hl : s.Live)
    (hwindow : s.WindowInside hw) (hp : decodeParams (s.layout hw) s.pll.words = p) (hzero : zeroDivider p = false) :
    ∃ u, exec (.readfreq a b c) s = .next u ∧ u.rsp.status = .ok ∧
      u.rsp.res0 = BitVec.ofNat 32 (freq s.handle.refKhz.toNat p) := by
  rcases readfreqCmd_cases hw s with ⟨hnot, -⟩ | ⟨-, hrun⟩
  · rw [hvalid] at hnot; cases hnot
  · obtain ⟨t, ht⟩ : ∃ t, readfreqCmd hw s = .next t := readfreqCmd_answers hl hwindow
    obtain ⟨u, hu, hut⟩ := andThen_eq_next.1 (hrun.symm.trans ht)
    have hframe := (readAll_frame hu).1
    have hread : decodeParams (u.layout hw) u.seq.read = p := by
      rw [hframe.layout]
      exact (decodeParams_readAll (s := s.moveTo .read) hw_wf hu).trans hp
    rw [respondFreq_ok hread hzero, hframe.handle] at hut
    cases hut
    exact ⟨_, ht, rfl, rfl⟩

end Sys2Proof.Machine

open Sys2Proof Sys2Proof.Machine

/-- Settles O46: after the APPLY the register holds the triple under the same handle, bus and window. -/
theorem readfreqAfterApplyAnswersTheTriple : Obligations.ReadfreqAfterApplyAnswersTheTriple := by
  intro a b c s t hvalid href hp hl hwindow h
  obtain ⟨u, hframe, rfl, hprogrammed⟩ := exec_apply_programs h hvalid hp
  have hhandle : (complete ⟨a, b, c⟩ u).handle = s.handle := hframe.handle
  have hlayout : (complete ⟨a, b, c⟩ u).layout hw = s.layout hw := hframe.layout hw
  have hlive : (complete ⟨a, b, c⟩ u).Live := hframe.live hl
  have hinside : (complete ⟨a, b, c⟩ u).WindowInside hw := hframe.windowInside (cfg := hw) hwindow
  obtain ⟨v, hv, hstatus, hres0⟩ := exec_readfreq_ok (a := 0) (b := 0) (c := 0) (hhandle ▸ hvalid) hlive hinside
    (hlayout ▸ hprogrammed.params) hp.2
  have hlt : freq s.handle.refKhz.toNat ⟨a, b, c⟩ < 2 ^ 32 := freq_lt href (loopc_lt_of_fits (wf_layout hw_wf s) hp.1)
  refine ⟨v, hv, hstatus, ?_⟩
  rw [hres0, hhandle, BitVec.toNat_ofNat, Nat.mod_eq_of_lt hlt]
  rfl
end

section
/-! READFREQ on any register (44_readback R210 to R213): the reads on the bus, and the two answers from the stored fields. -/

namespace Sys2Proof.Machine

/-! ### The reads on the bus (R211) -/

/-- The word that a port event reads, if it is a read. -/
def readIndex : PortEvent → Option Nat
  | .read i _ _ => some i
  | _ => none

/-- The events of `readAll`, oldest first, are one read of each word, in order. -/
theorem readAll_reads {cfg : Config} {is : List Nat} {s t : State} (h : readAll cfg is s = .next t) :
    ∃ new, t.trace = new ++ s.trace ∧ new.reverse.map readIndex = is.map some := by
  induction is generalizing s with
  | nil =>
    cases h
    exact ⟨[], rfl, rfl⟩
  | cons i is ih =>
    obtain ⟨u, hu, ht⟩ := andThen_eq_next.1 h
    obtain ⟨new, htrace, hreads⟩ := ih ht
    rw [busRead_eq_next hu, readEffect_trace, counted_trace] at htrace
    refine ⟨new ++ [.read i (s.counted.busAddr i) (s.counted.readValue cfg i)], ?_, ?_⟩
    · rw [htrace, List.append_assoc, List.singleton_append]
    · rw [List.reverse_append, List.map_append, hreads]
      rfl

/-- `u` is the state after the reads of a READFREQ from `s`: each word read once, in order, and the parameter fields of the
register in the read latch (R210 to R212). -/
structure ReadBack (s u : State) : Prop where
  frame : BusFrame (s.moveTo .read) u
  target : u.pll = s.pll
  params : decodeParams (u.layout hw) u.seq.read = decodeParams (s.layout hw) s.pll.words
  reads : ∃ new, u.trace = new ++ s.trace ∧ new.reverse.map readIndex = (List.range (s.layout hw).nwords).map some

/-- With a valid handle and under the provisos READFREQ makes its reads and answers from them (R210). -/
theorem exec_readfreq_readBack {s : State} (hvalid : s.handle.valid = true) (hl : s.Live) (hwindow : s.WindowInside hw)
    (a b c : Word) : ∃ u, ReadBack s u ∧ exec (.readfreq a b c) s = .next (respondFreq hw u) := by
  rcases readfreqCmd_cases hw s with ⟨hnot, -⟩ | ⟨-, hrun⟩
  · rw [hvalid] at hnot; cases hnot
  · obtain ⟨u, hu⟩ := readAll_live (cfg := hw) (is := List.range (s.layout hw).nwords) (s := s.moveTo .read) hl
      fun i hi => inAddressSpace_of_window (cfg := hw) hwindow (List.mem_range.1 hi)
    obtain ⟨hframe, hpll⟩ := readAll_frame hu
    have hparams : decodeParams (u.layout hw) u.seq.read = decodeParams (s.layout hw) s.pll.words := by
      rw [hframe.layout]
      exact decodeParams_readAll (s := s.moveTo .read) hw_wf hu
    refine ⟨u, ⟨hframe, hpll, hparams, readAll_reads (s := s.moveTo .read) hu⟩, ?_⟩
    rw [exec, execReadfreq, hrun, hu, andThen_next]

/-! ### What is answered -/

theorem ReadBack.respond_rsp {s u : State} (h : ReadBack s u) (st : Status) (r0 : Word) :
    (respond st (some r0) none none none u).rsp = { s.rsp with status := st, res0 := r0, valid := true } := by
  rw [Machine.respond_rsp, h.frame.rsp]
  rfl

theorem respondFreq_zeroDivider {cfg : Config} {p : ClockParams} {s : State}
    (hp : decodeParams (s.layout cfg) s.seq.read = p) (hzero : zeroDivider p = true) :
    respondFreq cfg s = respond .errDivZero (some 0) none none none s := by
  rw [respondFreq, hp]
  exact if_pos hzero

/-- What a field of the register holds fits the field's mask. -/
theorem readField_le_mask {L : Layout} (hL : L.WF) {f : Field} (hf : f ∈ L.fields) (W : RegWords) :
    (readField W f).toNat ≤ maskNat f.width := by
  rw [readField_toNat hL hf]
  exact Nat.le_sub_one_of_lt (Nat.mod_lt _ (Nat.two_pow_pos _))

/-- The triple stored in a register fits the register's layout (R101, R154). -/
theorem fits_decodeParams {L : Layout} (hL : L.WF) (W : RegWords) : fits L (decodeParams L W) = true := by
  have hparam : ∀ f ∈ L.paramFields, (readField W f).toNat ≤ maskNat f.width :=
    fun f hf => readField_le_mask hL (param_mem_fields hf) W
  simp only [fits, Bool.and_eq_true, decide_eq_true_eq]
  exact ⟨⟨hparam _ (divRef_mem L), hparam _ (loopc_mem L)⟩, hparam _ (divOut_mem L)⟩

end Sys2Proof.Machine

open Sys2Proof Sys2Proof.Machine

/-- Settles O44: the reads change only latch, FSM, trace and counters, and the stored triple leaves no room for a wrap-around. -/
theorem readfreqAnswersTheStoredTriple : Obligations.ReadfreqAnswersTheStoredTriple := by
  intro a b c s hvalid href hl hwindow p hdivRef hdivOut
  obtain ⟨u, hread, hexec⟩ := exec_readfreq_readBack hvalid hl hwindow a b c
  have hzero : zeroDivider p = false := Bool.eq_false_iff.2 fun h => (zeroDivider_eq_true_iff.1 h).elim hdivRef hdivOut
  have hlt : freq s.handle.refKhz.toNat p < 2 ^ 32 :=
    freq_lt href (loopc_lt_of_fits (wf_layout hw_wf s) (fits_decodeParams (wf_layout hw_wf s) _))
  rw [respondFreq_ok hread.params hzero, hread.frame.handle] at hexec
  refine ⟨_, hexec, rfl, (BitVec.toNat_ofNat ..).trans (Nat.mod_eq_of_lt hlt), by rw [hread.respond_rsp],
    by rw [hread.respond_rsp], by rw [hread.respond_rsp], hread.frame.handle, hread.frame.cache, hread.frame.cmd,
    hread.frame.search, hread.target, ?_, hread.reads⟩
  rw [respond_seq, hread.frame.seq]
  rfl

/-- Settles O45: the parameter fields in the latch are those of the register, so READFREQ finds the zero divider. -/
theorem readfreqReportsZeroDividers : Obligations.ReadfreqReportsZeroDividers := by
  intro a b c s hvalid hl hwindow hzero
  obtain ⟨u, hread, hexec⟩ := exec_readfreq_readBack hvalid hl hwindow a b c
  rw [respondFreq_zeroDivider hread.params hzero] at hexec
  exact ⟨_, hexec, hread.respond_rsp .errDivZero 0, hread.target, hread.frame.handle, hread.frame.cache⟩
end

section
/-! INIT and TEARDOWN (45_lifecycle R220 to R226): one equation per outcome, and the order of grants and releases over every
step. -/

namespace Sys2Proof.Machine

/-! ### INIT, first failing test first (R221 to R224) -/

theorem initArgsOk_iff {a b c : Word} :
    initArgsOk a b c = true ↔ b.toNat ≤ 3 ∧ a.toNat % 4 = 0 ∧ 1 ≤ c.toNat ∧ c.toNat ≤ 4194303 := by
  simp only [initArgsOk, Bool.and_eq_true, decide_eq_true_eq, and_assoc]
  rfl

section
variable {cfg : Config} {a b c : Word} {s : State}

theorem initCmd_valid (hvalid : s.handle.valid = true) : initCmd cfg a b c s = raise .errBadState s := if_pos hvalid

theorem initCmd_badArgs (hvalid : s.handle.valid = false) (hargs : initArgsOk a b c = false) :
    initCmd cfg a b c s = raise .errBadArg s := by
  simp [initCmd, hvalid, hargs]

/-! With no valid handle and good arguments INIT asks for the window, and the platform's answer decides. -/

theorem initCmd_granted (hvalid : s.handle.valid = false) (hargs : initArgsOk a b c = true)
    (hanswer : s.env.grantAt s.env.grantPos = .grant) :
    initCmd cfg a b c s =
      .next (respond .ok none none none none (fillHandle a b c ((requestMap cfg a b s).record .mapGrant))) := by
  simp [initCmd, hvalid, hargs, hanswer]

theorem initCmd_denied (hvalid : s.handle.valid = false) (hargs : initArgsOk a b c = true)
    (hanswer : s.env.grantAt s.env.grantPos = .deny) :
    initCmd cfg a b c s = raise .errMapFailed ((requestMap cfg a b s).record .mapDeny) := by
  simp [initCmd, hvalid, hargs, hanswer]

theorem initCmd_unanswered (hvalid : s.handle.valid = false) (hargs : initArgsOk a b c = true)
    (hanswer : s.env.grantAt s.env.grantPos = .silent) : initCmd cfg a b c s = .fault .mapNeverAnswered := by
  simp [initCmd, hvalid, hargs, hanswer]

end

/-- The window of a reference variant is eight bytes on variants 0 and 1, four on 2 and 3 (R221). -/
theorem hw_windowBytes (v : BitVec 2) : 4 * (hw.variant v).layout.nwords = if v.toNat ≤ 1 then 8 else 4 := by
  rcases variant_cases v with rfl | rfl | rfl | rfl <;> rfl

theorem toNat_variantTag {b : Word} (hb : b.toNat ≤ 3) : (b.setWidth 2).toNat = b.toNat := by
  rw [BitVec.toNat_setWidth, Nat.mod_eq_of_lt (by omega)]

theorem requestMap_hw {b : Word} (hb : b.toNat ≤ 3) (a : Word) (s : State) :
    requestMap hw a b s =
      { s with
        trace := .mapReq a (if b.toNat ≤ 1 then 8 else 4) :: s.trace
        env := { s.env with grantPos := s.env.grantPos + 1 } } := by
  rw [requestMap, hw_windowBytes, toNat_variantTag hb]
  rfl

/-! ### TEARDOWN (R225) -/

theorem teardownCmd_notInit {s : State} (hvalid : s.handle.valid = false) : teardownCmd s = raise .errNotInit s := by
  simp [teardownCmd, hvalid]

theorem teardownCmd_valid {s : State} (hvalid : s.handle.valid = true) :
    teardownCmd s =
      .next (respond .ok none none none none
        { s.record .mapRelease with
          handle := { s.handle with valid := false }, cache := { s.cache with valid := false } }) := by
  simp [teardownCmd, hvalid]

end Sys2Proof.Machine

open Sys2Proof Sys2Proof.Machine

/-- Settles O47: the arguments pass, the platform grants, and the tag is the low two bits of B. -/
theorem initFillsTheHandle : Obligations.InitFillsTheHandle := by
  intro a b c s hvalid hb ha hc hmax hgrant
  refine ⟨b.setWidth 2, toNat_variantTag hb, ?_⟩
  rw [exec, execInit, initCmd_granted hvalid (initArgsOk_iff.2 ⟨hb, ha, hc, hmax⟩) hgrant, requestMap_hw hb]
  rfl

/-- Settles O48: one equation of INIT per failing test. -/
theorem initErrorsChangeNoHandleRegister : Obligations.InitErrorsChangeNoHandleRegister := by
  intro a b c s
  refine ⟨fun hvalid => ?_, fun hvalid hbad => ?_, fun hvalid hb ha hc hmax hdeny => ?_,
    fun hvalid hb ha hc hmax hsilent => ?_⟩
  · exact initCmd_valid hvalid
  · have hargs : initArgsOk a b c = false := by
      rw [Bool.eq_false_iff, Ne, initArgsOk_iff]
      omega
    exact initCmd_badArgs hvalid hargs
  · rw [exec, execInit, initCmd_denied hvalid (initArgsOk_iff.2 ⟨hb, ha, hc, hmax⟩) hdeny, requestMap_hw hb]
    rfl
  · exact initCmd_unanswered hvalid (initArgsOk_iff.2 ⟨hb, ha, hc, hmax⟩) hsilent

/-- Settles O49: TEARDOWN looks at nothing but the valid flag. -/
theorem teardownReleasesOnce : Obligations.TeardownReleasesOnce := fun _ _ _ _ hvalid => teardownCmd_valid hvalid

namespace Sys2Proof.Machine

/-! ### Grants and releases in the trace (R226) -/

/-- A further grant or release keeps the order exactly when it is not of the newest's kind, a grant being due at the start. -/
theorem alternates_cons (b : Bool) (es : List Bool) :
    alternates (b :: es) = true ↔ alternates es = true ∧ (es.head? = some true ↔ b = false) := by
  cases es with
  | nil => cases b <;> simp [alternates]
  | cons c rest => cases b <;> cases c <;> simp [alternates]

/-- Bus transactions and delays are neither grants nor releases. -/
theorem mapEvents_append_quiet {new : List PortEvent} (h : ∀ e ∈ new, (e.isBus || e.isDelay) = true)
    (old : List PortEvent) : mapEvents (new ++ old) = mapEvents old := by
  rw [mapEvents, List.filterMap_append, List.filterMap_eq_nil_iff.2, List.nil_append, ← mapEvents]
  intro e he
  have := h e he
  cases e <;> simp_all [PortEvent.isBus, PortEvent.isDelay]

/-- Between the two states there was no grant and no release, and the valid flag stayed. -/
structure MapQuiet (s t : State) : Prop where
  valid : t.handle.valid = s.handle.valid
  events : mapEvents t.trace = mapEvents s.trace

theorem ApplyFrame.mapQuiet {s t : State} (h : ApplyFrame s t) : MapQuiet s t := by
  obtain ⟨new, htrace, hnew⟩ := h.trace
  exact ⟨by rw [h.handle], by rw [htrace, mapEvents_append_quiet hnew]⟩

/-- Only INIT and TEARDOWN have grants and releases. -/
theorem CommandEffect.mapQuiet {i : Instr} {s t : State} (h : CommandEffect s i t) (hinit : ∀ a b c, i ≠ .init a b c)
    (hteardown : ∀ a b c, i ≠ .teardown a b c) : MapQuiet s t := by
  cases h with
  | answer => exact ⟨rfl, rfl⟩
  | searched => exact ⟨rfl, rfl⟩
  | granted a b c => exact absurd rfl (hinit a b c)
  | denied a b c => exact absurd rfl (hinit a b c)
  | released a b c => exact absurd rfl (hteardown a b c)
  | applied a b c u hvalid hparams hframe => exact ⟨hframe.mapQuiet.valid, hframe.mapQuiet.events⟩
  | readBack _ st r0 u hframe => exact ⟨hframe.toApply.mapQuiet.valid, hframe.toApply.mapQuiet.events⟩

theorem applyTick_mapQuiet {p : ClockParams} {s t : State} (hin : s.seq.fsm.inApply = true)
    (h : applyTick hw p s = .next t) : MapQuiet s t := by
  rcases applyTick_cases hin h with ⟨-, hs⟩ | ⟨-, hp⟩ | ⟨-, rfl⟩ | ⟨-, -, hr⟩
  · exact (settle_eq_next hs).1.mapQuiet
  · exact (poll_eq_next hw_wf hp).1.mapQuiet
  · exact ⟨rfl, rfl⟩
  · exact (rmwTick_frame hr).1.mapQuiet

theorem readTick_mapQuiet {s t : State} (h : readTick hw s = .next t) : MapQuiet s t := by
  rcases readTick_cases h with ⟨-, rfl⟩ | ⟨st, r0, rfl⟩
  · exact ⟨rfl, rfl⟩
  · exact ⟨rfl, rfl⟩

theorem begin_mapQuiet {w : CommandWord} {s t : State} (h : begin hw w (accept w s) = .next t) : MapQuiet s t := by
  rcases begin_cases h with ⟨st, rfl⟩ | rfl | ⟨-, rfl⟩ | ⟨-, -, ht⟩
  · exact ⟨rfl, rfl⟩
  · exact ⟨rfl, rfl⟩
  · exact ⟨rfl, rfl⟩
  · obtain ⟨-, -, hframe, -⟩ := transition_eq_next ht
    exact ⟨hframe.mapQuiet.valid, hframe.mapQuiet.events⟩

/-! ### The invariant -/

section
variable {s t : State}

theorem MapInv.of_quiet (hi : MapInv s) (h : MapQuiet s t) : MapInv t := by
  rw [MapInv, h.valid, h.events]
  exact hi

/-- A grant that makes an invalid handle valid, or a release that makes a valid one invalid, keeps the invariant. -/
theorem MapInv.of_event {b : Bool} (hi : MapInv s) (hs : s.handle.valid = !b) (ht : t.handle.valid = b)
    (hevents : mapEvents t.trace = b :: mapEvents s.trace) : MapInv t := by
  obtain ⟨halternates, hnewest⟩ := hi
  rw [MapInv, hevents, ht, alternates_cons]
  exact ⟨⟨halternates, by rw [hnewest, hs]; cases b <;> decide⟩, by simp⟩

/-- INIT asks only without a valid handle, so a grant follows a release or nothing. -/
theorem MapInv.of_initCmd {a b c : Word} (hi : MapInv s) (h : initCmd hw a b c s = .next t) : MapInv t := by
  cases hvalid : s.handle.valid with
  | true =>
    rw [initCmd_valid hvalid] at h
    cases h
    exact hi
  | false =>
    cases hargs : initArgsOk a b c with
    | false =>
      rw [initCmd_badArgs hvalid hargs] at h
      cases h
      exact hi
    | true =>
      cases hanswer : s.env.grantAt s.env.grantPos with
      | grant =>
        rw [initCmd_granted hvalid hargs hanswer] at h
        cases h
        exact hi.of_event (b := true) hvalid rfl rfl
      | deny =>
        rw [initCmd_denied hvalid hargs hanswer] at h
        cases h
        exact hi
      | silent =>
        rw [initCmd_unanswered hvalid hargs hanswer] at h
        cases h

/-- TEARDOWN releases only a valid handle, so a release follows a grant. -/
theorem MapInv.of_teardownCmd (hi : MapInv s) (h : teardownCmd s = .next t) : MapInv t := by
  cases hvalid : s.handle.valid with
  | false =>
    rw [teardownCmd_notInit hvalid] at h
    cases h
    exact hi
  | true =>
    rw [teardownCmd_valid hvalid] at h
    cases h
    exact hi.of_event (b := false) hvalid rfl rfl

theorem MapInv.of_exec {i : Instr} (hi : MapInv s) (h : exec i s = .next t) : MapInv t := by
  cases i with
  | init a b c => exact hi.of_initCmd h
  | teardown a b c => exact hi.of_teardownCmd h
  | _ => exact hi.of_quiet ((exec_effect h).mapQuiet nofun nofun)

theorem MapInv.of_runWord {w : CommandWord} (hi : MapInv s) (h : runWord exec w s = .next t) : MapInv t := by
  unfold runWord at h
  split at h
  · exact hi.of_exec h
  · cases h
    exact hi

theorem MapInv.of_advance (hi : MapInv s) (h : advance hw exec s = .next t) : MapInv t := by
  rcases fsm_cases s.seq.fsm with hq | hq | hq | hq
  · rw [advance_idle hq] at h
    cases h
    exact hi
  · rw [advance_exec hq] at h
    exact hi.of_runWord h
  · rw [advance_read hq] at h
    exact hi.of_quiet (readTick_mapQuiet h)
  · rw [advance_inApply hq] at h
    exact hi.of_quiet (applyTick_mapQuiet hq h)

theorem MapInv.of_acceptAndRun {w : CommandWord} (hi : MapInv s) (h : acceptAndRun hw exec w s = .next t) : MapInv t := by
  unfold acceptAndRun at h
  split at h
  · exact hi.of_quiet (begin_mapQuiet h)
  · exact MapInv.of_runWord (s := accept w s) hi h

end

end Sys2Proof.Machine

/-- Settles O50: by the host's next input; taking it off the list and ending the pulse touch neither trace nor handle. -/
theorem grantsAndReleasesAlternate : Obligations.GrantsAndReleasesAlternate := by
  intro s t hi hreset h
  have hi' : ∀ rest, MapInv (withHost rest (endPulse s)) := fun _ => hi
  cases hhost : s.env.host with
  | nil =>
    rw [step_noInput hhost] at h
    exact (hi' s.env.host).of_advance h
  | cons x rest =>
    cases x with
    | reset => exact absurd (by rw [hhost]; rfl) hreset
    | quiet =>
      rw [step_quiet hhost] at h
      exact (hi' rest).of_advance h
    | command w =>
      by_cases hq : s.seq.fsm = .idle
      · rw [step_accept hq hhost] at h
        exact (hi' rest).of_acceptAndRun h
      · rw [step_busy hq hhost] at h
        exact (hi' s.env.host).of_advance h
end

section
/-! Which commands need a valid handle (60_exceptions R240), and what a failed check leaves alone (R238). -/

namespace Sys2Proof.Machine

/-! ### Commands without a valid handle (R240) -/

/-- Beside INIT and LOOKUP, every command tests the valid flag before anything else. -/
theorem exec_notInit {i : Instr} {s : State} (hinit : ∀ a b c, i ≠ .init a b c) (hlookup : ∀ a b c, i ≠ .lookup a b c)
    (hvalid : s.handle.valid = false) : exec i s = raise .errNotInit s := by
  have hnot : (!s.handle.valid) = true := by rw [hvalid]; rfl
  cases i with
  | init a b c => exact absurd rfl (hinit a b c)
  | lookup a b c => exact absurd rfl (hlookup a b c)
  | apply a b c => exact exec_apply_refused (if_pos hnot)
  | _ => exact if_pos hnot

/-- LOOKUP looks at the table alone, so it answers under any handle what it answers under the state's own. -/
theorem lookupCmd_withHandle (cfg : Config) (khz : Word) (s : State) (h : Handle) :
    ∃ t, lookupCmd cfg khz s = .next t ∧ lookupCmd cfg khz { s with handle := h } = .next { t with handle := h } := by
  unfold lookupCmd
  cases tableFind cfg.table khz with
  | none => exact ⟨_, rfl, rfl⟩
  | some e => exact ⟨_, rfl, rfl⟩

/-! ### What a failed check leaves alone (R238) -/

/-- The registers that an error of a command's checks must not change. -/
structure Untouched (s t : State) : Prop where
  handle : t.handle = s.handle
  cache : t.cache = s.cache
  pll : t.pll = s.pll
  search : t.search = s.search
  cmd : t.cmd = s.cmd
  lockIters : t.seq.lockIters = s.seq.lockIters
  lockTimeout : t.seq.lockTimeout = s.seq.lockTimeout
  res1 : t.rsp.res1 = s.rsp.res1
  res2 : t.rsp.res2 = s.rsp.res2
  res3 : t.rsp.res3 = s.rsp.res3

/-- A command that started in `s` and ends in an error of its checks has left those registers alone. -/
def Precise (s : State) (o : Outcome) : Prop :=
  ∀ t, o = .next t → t.rsp.status.isCheckFailure = true → Untouched s t

section
variable {s u : State} {o : Outcome}

theorem Untouched.refl (s : State) : Untouched s s := ⟨rfl, rfl, rfl, rfl, rfl, rfl, rfl, rfl, rfl, rfl⟩

theorem BusFrame.untouched {q : Fsm} (h : BusFrame (s.moveTo q) u) (hpll : u.pll = s.pll) : Untouched s u :=
  ⟨h.handle, h.cache, hpll, h.search, h.cmd, by rw [h.seq]; rfl, by rw [h.seq]; rfl, by rw [h.rsp]; rfl,
    by rw [h.rsp]; rfl, by rw [h.rsp]; rfl⟩

/-- Asking for the window moves the outside alone, and so does recording its answer. -/
theorem requestMap_untouched (cfg : Config) (a b : Word) (e : PortEvent) (s : State) :
    Untouched s ((requestMap cfg a b s).record e) := ⟨rfl, rfl, rfl, rfl, rfl, rfl, rfl, rfl, rfl, rfl⟩

/-! An outcome is precise when its answer names no result register but RES0, when its status is no error of a check, or when
it is a stop. -/

theorem Precise.of_answer {st : Status} {r0 : Option Word} (h : Untouched s u)
    (ho : o = .next (respond st r0 none none none u)) : Precise s o := by
  subst ho
  rintro _ ⟨⟩ -
  exact ⟨h.handle, h.cache, h.pll, h.search, h.cmd, h.lockIters, h.lockTimeout, h.res1, h.res2, h.res3⟩

theorem Precise.of_raise {st : Status} (ho : o = raise st s) : Precise s o := .of_answer (.refl s) ho

theorem Precise.of_noCheckFailure (ho : o = .next u) (h : u.rsp.status.isCheckFailure = false) : Precise s o := by
  subst ho
  rintro _ ⟨⟩ hfailure
  rw [h] at hfailure
  cases hfailure

theorem Precise.of_fault {r : Fault} (ho : o = .fault r) : Precise s o := by
  subst ho
  rintro _ ⟨⟩

/-! ### Every command is precise -/

theorem verdict_isCheckFailure (r : SearchRegs) : r.verdict.isCheckFailure = false := by
  unfold SearchRegs.verdict
  split_ifs <;> rfl

theorem complete_isCheckFailure (p : ClockParams) (s : State) : (complete p s).rsp.status.isCheckFailure = false := by
  rw [complete_rsp]
  dsimp only
  split_ifs <;> rfl

theorem initCmd_precise (cfg : Config) (a b c : Word) : Precise s (initCmd cfg a b c s) := by
  cases hvalid : s.handle.valid with
  | true => exact .of_raise (initCmd_valid hvalid)
  | false =>
    cases hargs : initArgsOk a b c with
    | false => exact .of_raise (initCmd_badArgs hvalid hargs)
    | true =>
      cases hanswer : s.env.grantAt s.env.grantPos with
      | grant => exact .of_noCheckFailure (initCmd_granted hvalid hargs hanswer) rfl
      | deny => exact .of_answer (requestMap_untouched ..) (initCmd_denied hvalid hargs hanswer)
      | silent => exact .of_fault (initCmd_unanswered hvalid hargs hanswer)

theorem lookupCmd_precise (cfg : Config) (khz : Word) : Precise s (lookupCmd cfg khz s) := by
  cases hfind : tableFind cfg.table khz with
  | none => exact .of_raise (lookupCmd_miss hfind s)
  | some e => exact .of_noCheckFailure (lookupCmd_hit hfind s) rfl

theorem applyCmd_precise {cfg : Config} (hcfg : cfg.WF) (p : ClockParams) : Precise s (applyCmd cfg p s) := by
  rcases applyCmd_cases cfg p s with ⟨st, -, hrefused⟩ | ⟨-, -, -, hruns⟩
  · exact .of_raise hrefused
  · intro t h
    obtain ⟨u, -, rfl, -⟩ := applySequence_result hcfg (hruns ▸ h)
    exact Precise.of_noCheckFailure rfl (complete_isCheckFailure p u) _ rfl

theorem readfreqCmd_precise (cfg : Config) : Precise s (readfreqCmd cfg s) := by
  rcases readfreqCmd_cases cfg s with ⟨-, hnotInit⟩ | ⟨-, hruns⟩
  · exact .of_raise hnotInit
  · intro t h
    obtain ⟨u, hu, hanswer⟩ := andThen_eq_next.1 (hruns ▸ h)
    obtain ⟨hframe, hpll⟩ := readAll_frame hu
    obtain ⟨st, r0, hr⟩ := respondFreq_eq_respond cfg u
    exact Precise.of_answer (hframe.untouched hpll) (congrArg _ hr) t hanswer

section
variable (hvalid : s.handle.valid = true)
include hvalid

theorem searchCmd_precise (cfg : Config) (khz : Word) : Precise s (searchCmd cfg khz s) :=
  .of_noCheckFailure (searchCmd_valid hvalid khz) (verdict_isCheckFailure _)

theorem computeCmd_precise (cfg : Config) (khz : Word) : Precise s (computeCmd cfg khz s) := by
  rcases computeCmd_cases (cfg := cfg) (khz := khz) hvalid with ⟨e, -, -, hhit⟩ | hsearch
  · exact .of_noCheckFailure hhit rfl
  · rw [hsearch]
    exact searchCmd_precise hvalid cfg khz

theorem calcfreqCmd_precise (cfg : Config) (p : ClockParams) : Precise s (calcfreqCmd cfg p s) := by
  cases hfits : fits (s.layout cfg) p with
  | false => exact .of_raise (calcfreqCmd_not_fits hvalid hfits)
  | true =>
    cases hzero : zeroDivider p with
    | true => exact .of_answer (.refl s) (calcfreqCmd_zeroDivider hvalid hfits hzero)
    | false => exact .of_noCheckFailure (calcfreqCmd_ok hvalid hfits hzero) rfl

theorem encodeCmd_precise {cfg : Config} (hL : (s.layout cfg).WF) (p : ClockParams) : Precise s (encodeCmd cfg p s) := by
  cases hfits : fits (s.layout cfg) p with
  | false => exact .of_raise (encodeCmd_not_fits hvalid hfits)
  | true => exact .of_noCheckFailure (encodeCmd_fits hvalid hL hfits) rfl

/-- With a valid handle each command gets to its own checks. -/
theorem exec_precise_of_valid (i : Instr) : Precise s (exec i s) := by
  cases i with
  | init a b c => exact initCmd_precise hw a b c
  | lookup a b c => exact lookupCmd_precise hw a
  | search a b c => exact searchCmd_precise hvalid hw a
  | compute a b c => exact computeCmd_precise hvalid hw a
  | calcfreq a b c => exact calcfreqCmd_precise hvalid hw ⟨a, b, c⟩
  | encode a b c => exact encodeCmd_precise hvalid (wf_layout hw_wf s) ⟨a, b, c⟩
  | decode a b c => exact .of_noCheckFailure (decodeCmd_valid hvalid) rfl
  | apply a b c => exact applyCmd_precise hw_wf ⟨a, b, c⟩
  | readfreq a b c => exact readfreqCmd_precise hw
  | teardown a b c => exact .of_noCheckFailure (teardownCmd_valid hvalid) rfl

end

/-- Without a valid handle only INIT and LOOKUP do anything but raise ERR_NOT_INIT. -/
theorem exec_precise (i : Instr) (s : State) : Precise s (exec i s) := by
  cases hvalid : s.handle.valid with
  | true => exact exec_precise_of_valid hvalid i
  | false =>
    cases i with
    | init a b c => exact initCmd_precise hw a b c
    | lookup a b c => exact lookupCmd_precise hw a
    | _ => exact .of_raise (exec_notInit nofun nofun hvalid)

end

end Sys2Proof.Machine

open Sys2Proof Sys2Proof.Machine

/-- Settles O51: the valid flag is INIT's and eight other commands' first test, and none of LOOKUP's. -/
theorem commandsNeedAHandle : Obligations.CommandsNeedAHandle := by
  intro i s
  refine ⟨?_, ?_, exec_notInit⟩
  · rintro ⟨a, b, c, rfl⟩ hvalid
    exact initCmd_valid hvalid
  · rintro ⟨a, b, c, rfl⟩ h
    exact lookupCmd_withHandle hw a s h

/-- Settles O53: every command is precise. -/
theorem checkErrorsArePrecise : Obligations.CheckErrorsArePrecise := by
  intro i s t h hfailure
  obtain ⟨hhandle, hcache, hpll, hsearch, hcmd, hiters, htimeout, hres1, hres2, hres3⟩ := exec_precise i s t h hfailure
  exact ⟨hhandle, hcache, hpll, hsearch, hcmd, hiters, htimeout, hres1, hres2, hres3⟩
end

section
/-! The copies of CORE beside one another (60_exceptions R248, 70_reset_and_hazards R275). -/

namespace Sys2Proof.Machine

section
variable {st : State → Outcome} {j k : Nat} {y z : System}

/-! ### One step of one copy, by whether its port has a copy -/

theorem stepBy_noCopy (hcopy : y.cores[k]? = none) : System.stepBy st k y = .next y := by
  rw [System.stepBy, hcopy]

theorem stepBy_copy {s t : State} (hcopy : y.cores[k]? = some s) (hstep : st s = .next t) :
    System.stepBy st k y = .next ⟨y.cores.set k t⟩ := by
  rw [System.stepBy, hcopy]
  dsimp only
  rw [hstep]

/-- A step of one copy that answers has replaced that copy by its next state, if its port has one. -/
theorem stepBy_cases (h : System.stepBy st k y = .next z) :
    (y.cores[k]? = none ∧ z = y) ∨ ∃ s t, y.cores[k]? = some s ∧ st s = .next t ∧ z = ⟨y.cores.set k t⟩ := by
  unfold System.stepBy at h
  split at h
  · next hcopy =>
    cases h
    exact Or.inl ⟨hcopy, rfl⟩
  · next s hcopy =>
    split at h
    · next t hstep =>
      cases h
      exact Or.inr ⟨s, t, hcopy, hstep, rfl⟩
    · cases h
    · cases h

/-! ### Two different copies -/

theorem stepBy_keeps_others (hjk : j ≠ k) (h : System.stepBy st j y = .next z) : z.cores[k]? = y.cores[k]? := by
  rcases stepBy_cases h with ⟨-, rfl⟩ | ⟨s, t, -, -, rfl⟩
  · rfl
  · exact List.getElem?_set_ne hjk

/-- What copy `j` does is the same after the copy on another port was replaced. -/
theorem stepBy_set_other (hjk : j ≠ k) (h : System.stepBy st j y = .next z) (u : State) :
    System.stepBy st j ⟨y.cores.set k u⟩ = .next ⟨z.cores.set k u⟩ := by
  have hj : (y.cores.set k u)[j]? = y.cores[j]? := List.getElem?_set_ne hjk.symm
  rcases stepBy_cases h with ⟨hcopy, rfl⟩ | ⟨s, t, hcopy, hstep, rfl⟩
  · exact stepBy_noCopy (hj.trans hcopy)
  · rw [stepBy_copy (hj.trans hcopy) hstep, List.set_comm _ _ hjk]

theorem stepBy_exchange {u : System} (hjk : j ≠ k) (hj : System.stepBy st j y = .next z)
    (hk : System.stepBy st k z = .next u) :
    ∃ x, System.stepBy st k y = .next x ∧ System.stepBy st j x = .next u := by
  have hsame := stepBy_keeps_others hjk hj
  rcases stepBy_cases hk with ⟨hcopy, rfl⟩ | ⟨s, t, hcopy, hstep, rfl⟩
  · exact ⟨y, stepBy_noCopy (hsame.symm.trans hcopy), hj⟩
  · exact ⟨_, stepBy_copy (hsame.symm.trans hcopy) hstep, stepBy_set_other hjk hj t⟩

end

end Sys2Proof.Machine

open Sys2Proof Sys2Proof.Machine

/-- Settles O58: copies share nothing, so this holds of any step function, the machine's own included. -/
theorem copiesDoNotDisturbEachOther : Obligations.CopiesDoNotDisturbEachOther :=
  fun _ _ _ _ hjk hj => ⟨stepBy_keeps_others hjk hj, fun _ hk => stepBy_exchange hjk hj hk⟩
end
